-- ==== Sys2Proof/Word.lean ====
section
/-! DEFINITION. The words of the machine: bytes, 32-bit host words, pin levels (00_scope.md R5, R7). -/

namespace Sys2Proof

/-- One byte: a row byte, a bus beat, the configuration register (R5, R14). -/
abbrev Byte := BitVec 8

/-- A command word, and any host register (R5, R60). -/
abbrev Word := BitVec 32

/-- A duration or length operand as it stands in the command word (R60, R64). -/
abbrev Operand := BitVec 12

/-- The level of one pin: `true` is 1, `false` is 0 (R7). -/
abbrev Level := Bool

end Sys2Proof
end

