-- ==== Sys2Proof/Config.lean ====
section
/-! DEFINITION. What an implementation fixes (00_scope.md R4), the choices of the environment ENV (R6) as plain data,
and the free values: opaque constants without a body, so that no proof can see what they are. -/

namespace Sys2Proof

/-- `PINMAP`: which physical pin carries each line (R4). No rule reads it. -/
structure PinMap where
  cfgData : Nat
  cfgClk : Nat
  cfgStr : Nat
  tpOut : Nat
  bus : List Nat
deriving DecidableEq, Repr

/-- The named parameters of R4. `tick`, `cycRate` and `pinMap` are read by no rule (R4). -/
structure Params where
  rowWidth : Nat
  d1 : Nat
  d2 : Nat
  d3 : Nat
  d4 : Nat
  d5 : Nat
  tick : Nat
  cycRate : Nat
  pinMap : PinMap
deriving DecidableEq, Repr

/-- One step of an agent other than SEQ, with the draw it takes (20_memory.md R46). A move that is not enabled
where it stands changes nothing. -/
inductive Move where
  /-- TPG takes its enabled play step: start, fall or end (41_timing_pulse.md R100). -/
  | tpg
  /-- TPG fails the head waveform (`tx_ok = false`), leaving `TP_OUT` at the drawn level (R101). -/
  | tpgFail (level : Level)
  /-- XFR takes its enabled step, a beat or the successful end (44_row_output.md R135, R136); at the end the
  bus lines are left at the drawn level (10_state.md R26). -/
  | xfr (idle : Byte)
  /-- XFR fails the transfer (`xfer_ok = false`, R136), leaving the bus lines at the drawn level. -/
  | xfrFail (idle : Byte)
  /-- one cycle of `CYC` passes (10_state.md R27) -/
  | cycle
  /-- HOST takes its pending access, if that is a read of `STATUS` or `RESULT` (R46) -/
  | poll
deriving DecidableEq, Repr

/-- The free values behind the parameters of R4. -/
opaque Config.rowWidthRaw : Nat
opaque Config.d1Raw : Nat
opaque Config.d2Raw : Nat
opaque Config.d3Raw : Nat
opaque Config.d4Raw : Nat
opaque Config.d5Raw : Nat
opaque Config.tickRaw : Nat
opaque Config.cycRateRaw : Nat
opaque Config.cfgDataPin : Nat
opaque Config.cfgClkPin : Nat
opaque Config.cfgStrPin : Nat
opaque Config.tpOutPin : Nat
opaque Config.busPins : List Nat

/-- The machine's parameters: any values that meet R4's constraints
(1 ≤ ROW_WIDTH ≤ 4095, D1 < D2, D4 < D5, D4 ≤ D1, D5 ≤ D2), and every such tuple comes from some free values. -/
def Config.params : Params :=
  let d1 := Config.d1Raw
  let d2 := d1 + 1 + Config.d2Raw
  let d4 := Config.d4Raw % (d1 + 1)
  { rowWidth := Config.rowWidthRaw % 4095 + 1
    d1 := d1
    d2 := d2
    d3 := Config.d3Raw
    d4 := d4
    d5 := d4 + 1 + Config.d5Raw % (d2 - d4)
    tick := Config.tickRaw
    cycRate := Config.cycRateRaw
    pinMap :=
      { cfgData := Config.cfgDataPin, cfgClk := Config.cfgClkPin, cfgStr := Config.cfgStrPin
        tpOut := Config.tpOutPin, bus := Config.busPins } }

/-- The moves the other agents take before SEQ's next event, for the draw of the given number, where ENV's script
in State is empty (R46, R52). -/
opaque Config.freeBurst : Nat → List Move

/-- `acq_ok` for the draw of the given number, where ENV's script is empty (R92). -/
opaque Config.freeAcq : Nat → Bool

/-- What RSRC holds at an index that HOST has not written since the reset whose draw has the given number (R25, R186). -/
opaque Config.freeRowByte : Nat → Nat → Byte

/-- What TBUF holds at an index that no row has written since the reset whose draw has the given number (R23). -/
opaque Config.freeBufferByte : Nat → Nat → Byte

end Sys2Proof
end

