-- ==== Sys2Proof/Syntax.lean ====
section
/-! DEFINITION. The command set: one constructor per row of spec/opcode_table.json (30_encoding.md R61, R63). -/

namespace Sys2Proof

/-- The nine commands, with their operands as the word holds them (R64). -/
inductive Instr where
  | write
  | pulse (high low : Operand) (blocking : Bool)
  | powerOn
  | powerOff
  | frameStart
  | latchRow
  | outputRow (driveTime len : Operand)
  | skip
  | frameEnd
deriving DecidableEq, Repr

end Sys2Proof
end

