-- ==== Sys2Proof/WellFormed.lean ====
section
/-! DEFINITION. What makes parameters and commands well formed: R4's constraints, and R69's one legality condition that is
not a pattern of bits. -/

namespace Sys2Proof

/-- R4's constraints on the parameters. -/
abbrev Params.ok (p : Params) : Prop :=
  1 ≤ p.rowWidth ∧ p.rowWidth ≤ 4095 ∧ p.d1 < p.d2 ∧ p.d4 < p.d5 ∧ p.d4 ≤ p.d1 ∧ p.d5 ≤ p.d2

/-- A row of `len` bytes fits the buffer: `len ≤ ROW_WIDTH`. The empty row fits whatever `ROW_WIDTH` is (R137). -/
def Params.fits (p : Params) (len : Nat) : Bool :=
  len == 0 || decide (len ≤ p.rowWidth)

/-- R69: OUTPUT_ROW is legal only with `B ≤ ROW_WIDTH`; every other command whose word decodes is legal. -/
def Instr.wellFormed (p : Params) : Instr → Bool
  | .outputRow _ len => p.fits len.toNat
  | .write => true
  | .pulse _ _ _ => true
  | .powerOn => true
  | .powerOff => true
  | .frameStart => true
  | .latchRow => true
  | .skip => true
  | .frameEnd => true

end Sys2Proof
end

