-- ==== Sys2Proof/Decode.lean ====
section
/-! DEFINITION. The command word: its fields, the decoder, total and rejecting by name, and the encoder
(30_encoding.md R60, R61, R63, R64, R69). -/

namespace Sys2Proof

/-- The fields of a command word (R60). -/
structure Fields where
  op : BitVec 4
  blk : BitVec 1
  z : BitVec 3
  a : Operand
  b : Operand
deriving DecidableEq, Repr

/-- R60: `OP = w[31:28]`, `BLK = w[27]`, `Z = w[26:24]`, `A = w[23:12]`, `B = w[11:0]`. -/
def fields (w : Word) : Fields :=
  { op := w.extractLsb' 28 4, blk := w.extractLsb' 27 1, z := w.extractLsb' 24 3
    a := w.extractLsb' 12 12, b := w.extractLsb' 0 12 }

/-- R60: `word = OP ++ BLK ++ Z ++ A ++ B`. -/
def Fields.word (f : Fields) : Word := f.op ++ f.blk ++ f.z ++ f.a ++ f.b

/-- Why a word is no command (R69). -/
inductive DecodeError where
  /-- `OP` is 0x0 or 0xA to 0xF -/
  | illegalOp (op : BitVec 4)
  /-- `Z ≠ 0` -/
  | reservedZ (z : BitVec 3)
  /-- `BLK = 1` with `OP ≠ 0x2` -/
  | strayBlk
  /-- `A ≠ 0` or `B ≠ 0` in a command that uses neither -/
  | strayOperand (a b : Operand)
deriving DecidableEq, Repr

/-- A command without operands: `BLK`, `A` and `B` must be 0 (R61). -/
def plain (i : Instr) (f : Fields) : Except DecodeError Instr :=
  if f.blk ≠ 0 then .error .strayBlk
  else if f.a ≠ 0 ∨ f.b ≠ 0 then .error (.strayOperand f.a f.b)
  else .ok i

/-- R61's rows by `OP` (R63), `Z` already checked. -/
def decodeFields (f : Fields) : Except DecodeError Instr :=
  match f.op.toNat with
  | 1 => plain .write f
  | 2 => .ok (.pulse f.a f.b (f.blk == 1))
  | 3 => plain .powerOn f
  | 4 => plain .powerOff f
  | 5 => plain .frameStart f
  | 6 => plain .latchRow f
  | 7 => if f.blk ≠ 0 then .error .strayBlk else .ok (.outputRow f.a f.b)
  | 8 => plain .skip f
  | 9 => plain .frameEnd f
  | _ => .error (.illegalOp f.op)

/-- The decoder: every word is one of the nine commands or rejected by name (R69, R70, R72). That an OUTPUT_ROW fits the
row width is `Instr.wellFormed`, since it depends on the parameters. -/
def decode (w : Word) : Except DecodeError Instr :=
  let f := fields w
  if f.z ≠ 0 then .error (.reservedZ f.z) else decodeFields f

/-- The fields of a command's word, from the table of R61. -/
def Instr.fields : Instr → Fields
  | .write => ⟨1, 0, 0, 0, 0⟩
  | .pulse high low blocking => ⟨2, BitVec.ofBool blocking, 0, high, low⟩
  | .powerOn => ⟨3, 0, 0, 0, 0⟩
  | .powerOff => ⟨4, 0, 0, 0, 0⟩
  | .frameStart => ⟨5, 0, 0, 0, 0⟩
  | .latchRow => ⟨6, 0, 0, 0, 0⟩
  | .outputRow driveTime len => ⟨7, 0, 0, driveTime, len⟩
  | .skip => ⟨8, 0, 0, 0, 0⟩
  | .frameEnd => ⟨9, 0, 0, 0, 0⟩

/-- The encoder: the command's one word (R60, R61). -/
def encode (i : Instr) : Word := i.fields.word

/-- One row of the table of R61: a word selects the row's command iff `w &&& mask = pattern`. -/
structure OpcodeRow where
  mnemonic : String
  pattern : Word
  mask : Word
deriving DecidableEq, Repr

/-- The table of R61, as printed. -/
def opcodeTable : List OpcodeRow :=
  [ ⟨"WRITE", 0x10000000, 0xFFFFFFFF⟩,
    ⟨"PULSE", 0x20000000, 0xF7000000⟩,
    ⟨"POWER_ON", 0x30000000, 0xFFFFFFFF⟩,
    ⟨"POWER_OFF", 0x40000000, 0xFFFFFFFF⟩,
    ⟨"FRAME_START", 0x50000000, 0xFFFFFFFF⟩,
    ⟨"LATCH_ROW", 0x60000000, 0xFFFFFFFF⟩,
    ⟨"OUTPUT_ROW", 0x70000000, 0xFF000000⟩,
    ⟨"SKIP", 0x80000000, 0xFFFFFFFF⟩,
    ⟨"FRAME_END", 0x90000000, 0xFFFFFFFF⟩ ]

/-- The word selects the row's command (R61). -/
def OpcodeRow.selects (r : OpcodeRow) (w : Word) : Bool := w &&& r.mask == r.pattern

/-- The mnemonic of a command in the table of R61. -/
def Instr.mnemonic : Instr → String
  | .write => "WRITE"
  | .pulse _ _ _ => "PULSE"
  | .powerOn => "POWER_ON"
  | .powerOff => "POWER_OFF"
  | .frameStart => "FRAME_START"
  | .latchRow => "LATCH_ROW"
  | .outputRow _ _ => "OUTPUT_ROW"
  | .skip => "SKIP"
  | .frameEnd => "FRAME_END"

/-- The instruction the decoder reads from the one 32-bit word whose bits are `w`; a row shorter than 32 bits has zeros
above. Every command is one word (R60, R72). -/
def decodeTableWord (nbits w : Nat) : Option Instr :=
  if nbits ≤ 32 then (decode (BitVec.ofNat 32 (w % 2 ^ nbits))).toOption else none

end Sys2Proof
end

