-- ==== Sys2Proof/Machine/State.lean ====
section
/-! DEFINITION. The machine's state as plain data, everything the spec gives it (10_state.md), its reset values
(R34, 70_reset_and_hazards.md R180, R181), and the reasons a step can stop. -/

namespace Sys2Proof.Machine

/-- The engine state (R13). -/
inductive Fsm where
  | poweredOff
  | idle
  | frameActive
deriving DecidableEq, Repr

/-- What a command ended with (60_exceptions.md R150). -/
inductive Cause where
  | ok
  | channelUnavailable
  | transmit
  | transferError
  | bufferInitError
  | resourceUnavailable
  | illegalCommand
deriving DecidableEq, Repr

/-- The eight fields of `CFG` (R14). -/
inductive CfgField where
  | outputEnable
  | mode
  | scanDirection
  | startOfFrame
  | negPowerEnable
  | posPowerEnable
  | powerDisable
  | latchEnable
deriving DecidableEq, Repr

/-- The three configuration lines (R17). -/
inductive Pin where
  | cfgData
  | cfgClk
  | cfgStr
deriving DecidableEq, Repr

/-- The capability slot `TCH`, with the channel instance held (R19). -/
inductive Channel where
  | absent
  | held (g : Nat)
deriving DecidableEq, Repr

/-- How far the peripheral is with a waveform (R21). -/
inductive Phase where
  | queued
  | high
  | low
deriving DecidableEq, Repr

/-- A waveform issued and not yet ended (R21). Durations in ticks. -/
structure Wave where
  g : Nat
  high : Nat
  low : Nat
  blk : Bool
  phase : Phase
deriving DecidableEq, Repr

/-- The result latch `TPR` (R37). -/
inductive PulseResult where
  | none
  | ended
  | failed
deriving DecidableEq, Repr

/-- The capability slot `TR` (R22). -/
inductive Slot where
  | absent
  | held
deriving DecidableEq, Repr

/-- The transfer `XF` (R24): bytes captured at issue, and how many are out. -/
inductive Transfer where
  | none
  | active (data : List Byte) (sent : Nat)
  | ended (ok : Bool)
deriving DecidableEq, Repr

/-- The events of `TRACE` (R30). -/
inductive Event where
  | reset (ok : Bool)
  | cmd (w : Word)
  | ret (c : Cause)
  | pin (p : Pin) (l : Level)
  | cfg (v : Byte)
  | delay (n : Nat)
  | tpAcquire (g : Nat)
  | tpAcquireFail
  | tpIssue (g high low : Nat) (blk : Bool)
  | tpSeg (g : Nat) (level : Level) (ticks : Nat)
  | tpEnd (g : Nat)
  | tpFail (g : Nat)
  | xfIssue (data : List Byte)
  | xfBeat (i : Nat) (b : Byte)
  | xfEnd (ok : Bool)
deriving DecidableEq, Repr

/-- What ENV draws at a reset: whether the buffer could be allocated (R180), and the levels that reset leaves
unspecified (R17, R26, R27). -/
structure ResetDraw where
  initOk : Bool
  cfgData : Level
  cfgClk : Level
  cfgStr : Level
  bus : Byte
  cyc : Nat
deriving DecidableEq, Repr

/-- What HOST does next: an access, at a byte offset of the port and of a width in bytes (R28, R44); a reset (R180); or
nothing until `BUSY = 0`, when its next access is enabled again (20_memory.md R46). -/
inductive HostOp where
  | read (offset width : Nat)
  | write (offset width : Nat) (value : Word)
  | reset (draw : ResetDraw)
  | awaitIdle
deriving DecidableEq, Repr

/-- The contents of a byte array, RSRC or TBUF, keyed by index: indices strictly rising. An index not listed holds no
value that the spec states (R23, R25). -/
abbrev Memory := List Host.Cell

/-- The whole machine. The last six fields are the model's own: HOST's pending accesses and what its reads returned, and
ENV's script of draws with the count of draws taken, and the draw that the last reset took for the two arrays. -/
structure State where
  /-- the fixed parameters (00_scope.md R4, R33); never written -/
  params : Params
  /-- `BUSY` (R11) -/
  busy : Bool
  /-- `STEP`, the index of the next micro-step (R12) -/
  step : Nat
  /-- how far inside micro-step `STEP` an `await` holds the sequencer (R12) -/
  act : Nat
  /-- `OP` latch (R10) -/
  op : BitVec 4
  /-- `BLK` latch (R10) -/
  blk : BitVec 1
  /-- `A` latch (R10) -/
  a : Operand
  /-- `B` latch (R10) -/
  b : Operand
  /-- `FSM` (R13) -/
  fsm : Fsm
  /-- `CFG` (R14) -/
  cfg : Byte
  /-- `PANEL_CFG`, or no value (R16) -/
  panelCfg : Option Byte
  /-- `CFG_DATA` (R17) -/
  cfgData : Level
  /-- `CFG_CLK` (R17) -/
  cfgClk : Level
  /-- `CFG_STR` (R17) -/
  cfgStr : Level
  /-- `TP_OUT` (R18) -/
  tpOut : Level
  /-- `TCH` (R19) -/
  tch : Channel
  /-- `TCH_GEN` (R20) -/
  tchGen : Nat
  /-- the local `g` of `pulse` while it waits (41_timing_pulse.md R97) -/
  pulseG : Nat
  /-- `PQ`, oldest first (R21) -/
  pq : List Wave
  /-- `TPR` (R37) -/
  tpr : PulseResult
  /-- `TR` (R22) -/
  tr : Slot
  /-- `TBUF`, absent after a failed reset (R23, R31) -/
  tbuf : Option Memory
  /-- `XF` (R24) -/
  xf : Transfer
  /-- `RSRC` (R25) -/
  rsrc : Memory
  /-- `BUS` (R26); between beats and transfers, and after reset, it keeps its level (entry 27) -/
  bus : Byte
  /-- `CYC` (R27) -/
  cyc : Nat
  /-- `RESULT` (R29) -/
  result : Cause
  /-- `INIT_FAIL` (R31) -/
  initFail : Bool
  /-- `TRACE`, oldest first (R30) -/
  trace : List Event
  /-- HOST's pending accesses, next first -/
  hostq : List HostOp
  /-- what HOST's reads returned: (offset, value), oldest first -/
  reads : List (Nat × Word)
  /-- ENV's script: the agents' moves before each of SEQ's next events -/
  bursts : List (List Move)
  /-- ENV's script: the next values of `acq_ok` -/
  acqs : List Bool
  /-- the count of draws taken, the argument of the free values -/
  drawn : Nat
  /-- the draw that gave the two arrays their contents at the last reset (R23, R25) -/
  filled : Nat
deriving DecidableEq, Repr

/-- The state a reset leaves (R34; 70_reset_and_hazards.md R180, R181). The latches, `STEP` and the two cursor fields
hold no value after reset (R10, R12): 0 is a DESIGN CHOICE (entry 2). No host access is pending and nothing is
scripted. -/
def State.afterReset (p : Params) (d : ResetDraw) : State :=
  { params := p
    busy := false
    step := 0
    act := 0
    op := 0
    blk := 0
    a := 0
    b := 0
    fsm := .poweredOff
    cfg := 0x12
    panelCfg := none
    cfgData := d.cfgData
    cfgClk := d.cfgClk
    cfgStr := d.cfgStr
    tpOut := false
    tch := .absent
    tchGen := 0
    pulseG := 0
    pq := []
    tpr := .none
    tr := if d.initOk then .held else .absent
    tbuf := if d.initOk then some [] else none
    xf := .none
    rsrc := []
    bus := d.bus
    cyc := d.cyc
    result := if d.initOk then .ok else .bufferInitError
    initFail := !d.initOk
    trace := [.reset d.initOk]
    hostq := []
    reads := []
    bursts := []
    acqs := []
    drawn := 0
    filled := 0 }

/-- The draw of the power-up reset: the allocation succeeds (R34's first table), and the levels the spec leaves
unspecified are 0 (DESIGN CHOICE, entries 1, 3 and 4). -/
def ResetDraw.powerUp : ResetDraw :=
  { initOk := true, cfgData := false, cfgClk := false, cfgStr := false, bus := 0, cyc := 0 }

/-- The machine right after a successful reset (R34), with the implementation's parameters. -/
def State.reset : State := State.afterReset Config.params ResetDraw.powerUp

/-- A step that the model itself stops, because an assertion of its bookkeeping fails. Both are unreachable from reset. -/
inductive Fault where
  /-- raised by OUTPUT_ROW's put into a slot that is already held (44_row_output.md R132); safe: the spec has no such
  step and treats it as a fault of the model (decision D27) -/
  | putIntoHeldSlot
  /-- raised by `step` when `BUSY = 1` and the operand latches hold no command, which no acceptance leaves (30_encoding.md
  R62); safe: the spec has no such state -/
  | latchesHoldNoCommand
deriving DecidableEq, Repr

/-- A step the spec gives no meaning. -/
inductive Refusal where
  /-- raised by `exec`'s arm for a command that has no meaning yet; safe -/
  | notModelled (mnemonic : String)
  /-- raised by a host access at an offset or of a width outside the port's map (20_memory.md R41, R44); safe: the spec
  refuses it -/
  | hostAccess (offset width : Nat)
  /-- raised by a reset while a command, waveform or transfer is in progress (70_reset_and_hazards.md R183); safe: the
  spec refuses it -/
  | resetInProgress
  /-- raised by a host access while `BUSY = 1`, other than a read of `STATUS` or `RESULT` (20_memory.md R46; U15 of
  93_implementation_defined.md); safe: the spec refuses it -/
  | accessWhileBusy (offset width : Nat)
  /-- raised by an illegal word written to `CMD` while `BUSY = 0` and `INIT_FAIL = 0`; `seen` is what HOST and an observer
  would then see, but no run goes on from it (30_encoding.md R71); safe: the spec refuses it -/
  | illegalCommand (w : Word) (seen : State)
deriving DecidableEq, Repr

end Sys2Proof.Machine
end

