-- ==== Sys2Proof/Machine/Operands.lean ====
section
/-! DEFINITION. The operand forms: fields of `CFG` (10_state.md R14, R80), zero-extended durations and lengths
(30_encoding.md R64), the serial frame (R65), the waveform descriptor (R67), and bytes of the two arrays. -/

namespace Sys2Proof.Machine

/-- The bit number of a field of `CFG` (R14). -/
def CfgField.bit : CfgField → Nat
  | .outputEnable => 7
  | .mode => 6
  | .scanDirection => 5
  | .startOfFrame => 4
  | .negPowerEnable => 3
  | .posPowerEnable => 2
  | .powerDisable => 1
  | .latchEnable => 0

/-- The mask of a field of `CFG` (R14). -/
def CfgField.mask : CfgField → Byte
  | .outputEnable => 0x80
  | .mode => 0x40
  | .scanDirection => 0x20
  | .startOfFrame => 0x10
  | .negPowerEnable => 0x08
  | .posPowerEnable => 0x04
  | .powerDisable => 0x02
  | .latchEnable => 0x01

/-- `CFG.f`: one field's value. -/
def CfgField.get (f : CfgField) (v : Byte) : Bool := v.getLsbD f.bit

/-- R80: replace one field, leaving the other seven bits (45_command_classes.md R143). -/
def CfgField.set (f : CfgField) (b : Bool) (v : Byte) : Byte :=
  if b then v ||| f.mask else v &&& ~~~f.mask

/-- The fixed order in which the fields leave the block (30_encoding.md R65). -/
def serialOrder : List CfgField :=
  [.outputEnable, .mode, .scanDirection, .startOfFrame, .negPowerEnable, .posPowerEnable, .powerDisable, .latchEnable]

/-- The 26 pin writes of one commit of `v`, in order (40_config_writer.md R81). -/
def commitPins (v : Byte) : List (Pin × Level) :=
  (.cfgStr, false) ::
    (serialOrder.flatMap fun f => [(.cfgData, f.get v), (.cfgClk, false), (.cfgClk, true)]) ++ [(.cfgStr, true)]

/-- `zext`: an operand field as a natural number (30_encoding.md R64). -/
def zext (x : Operand) : Nat := x.toNat

/-- The five delay parameters by name (42_power_sequencing.md R110 to R112). -/
inductive DelayName where
  | d1
  | d2
  | d3
  | d4
  | d5
deriving DecidableEq, Repr

/-- A delay's length in cycles (00_scope.md R4). -/
def delayCycles (p : Params) : DelayName → Nat
  | .d1 => p.d1
  | .d2 => p.d2
  | .d3 => p.d3
  | .d4 => p.d4
  | .d5 => p.d5

/-- One segment of a waveform (30_encoding.md R67). -/
structure Seg where
  level : Level
  ticks : Nat
deriving DecidableEq, Repr

/-- R67: the segments before the end marker. -/
def wave (high low : Nat) : List Seg :=
  if high = 0 then [⟨false, low⟩] else [⟨true, high⟩, ⟨false, low⟩]

/-- The byte at an index of an array, or no value. -/
def Memory.read : Memory → Nat → Option Byte
  | [], _ => none
  | c :: m, i => if c.1 = i then some c.2 else Memory.read m i

/-- Store one byte, keeping the indices strictly rising. -/
def Memory.write : Memory → Nat → Byte → Memory
  | [], i, v => [(i, v)]
  | c :: m, i, v =>
    if i < c.1 then (i, v) :: c :: m else if i = c.1 then (i, v) :: m else c :: Memory.write m i v

/-- The canonical form of an array's contents. -/
abbrev Memory.wf (m : Memory) : Prop := (m.map Prod.fst).Pairwise (· < ·)

/-- Every listed index lies inside an array of `n` bytes. -/
abbrev Memory.within (n : Nat) (m : Memory) : Prop := ∀ c ∈ m, c.1 < n

/-- `MemRead(RSRC, i, 1)`: an index that HOST has not written since reset holds an unspecified byte, a draw of the reset
(10_state.md R25, 70_reset_and_hazards.md R186), so that reading twice gives one byte (20_memory.md R45; entry 5). -/
def rsrcByte (s : State) (i : Nat) : Byte := (s.rsrc.read i).getD (Config.freeRowByte s.filled i)

/-- The byte OUTPUT_ROW stores at index `i` of `TBUF`: the copy below `len`, the zero fill from `len` up
(44_row_output.md R137). -/
def rowByte (s : State) (len i : Nat) : Byte := if i < len then rsrcByte s i else 0

/-- `MemRead(TBUF, i, 1)`; a byte not written since reset is unspecified (10_state.md R23). -/
def tbufByte (s : State) (i : Nat) : Byte := ((s.tbuf.bind (·.read i))).getD (Config.freeBufferByte s.filled i)

/-- The whole buffer, index 0 first: what a transfer captures (44_row_output.md R134). -/
def rowData (s : State) : List Byte := (List.range s.params.rowWidth).map (tbufByte s)

/-- The command in the operand latches (10_state.md R10). -/
def State.current (s : State) : Option Instr :=
  (decode (Fields.word ⟨s.op, s.blk, 0, s.a, s.b⟩)).toOption

/-- What a host access reaches (10_state.md R28, 20_memory.md R40). -/
inductive HostTarget where
  | cmd
  | status
  | result
  | cfgro
  | rsrc (i : Nat)
deriving DecidableEq, Repr

/-- The port's map: four 32-bit registers, and the byte window of RSRC; anything else is no access of the port
(20_memory.md R41, R44). -/
def hostTarget (p : Params) (offset width : Nat) : Option HostTarget :=
  if width = 4 then
    if offset = 0x000 then some .cmd
    else if offset = 0x004 then some .status
    else if offset = 0x008 then some .result
    else if offset = 0x00C then some .cfgro
    else none
  else if width = 1 ∧ 0x1000 ≤ offset ∧ offset < 0x1000 + p.rowWidth then some (.rsrc (offset - 0x1000))
  else none

end Sys2Proof.Machine
end

