-- ==== Sys2Proof/Machine/Flags.lean ====
section
/-! DEFINITION. The flags and the host's views of them (10_state.md R28, R32), the result codes (60_exceptions.md R150)
and the protocol predicate (R160). -/

namespace Sys2Proof.Machine

/-- R13's encoding; 3 is never produced. -/
def Fsm.code : Fsm → BitVec 2
  | .poweredOff => 0
  | .idle => 1
  | .frameActive => 2

/-- `CODE` (R150); 5 and 6 are never produced. -/
def Cause.code : Cause → BitVec 3
  | .ok => 0
  | .channelUnavailable => 1
  | .transmit => 1
  | .transferError => 2
  | .bufferInitError => 3
  | .resourceUnavailable => 4
  | .illegalCommand => 7

/-- `SUB` (R150). -/
def Cause.sub : Cause → BitVec 1
  | .transmit => 1
  | .ok => 0
  | .channelUnavailable => 0
  | .transferError => 0
  | .bufferInitError => 0
  | .resourceUnavailable => 0
  | .illegalCommand => 0

/-- `TR_HELD` (R28). -/
def trHeld (s : State) : Bool := s.tr == .held

/-- `TCH_HELD` (R28): 1 iff `TCH = Held(g)` for some `g`. -/
def tchHeld (s : State) : Bool :=
  match s.tch with
  | .held _ => true
  | .absent => false

/-- `STATUS` (R28): bit 0 BUSY, bits 2:1 FSM, bit 3 TR_HELD, bit 4 TCH_HELD, bit 5 INIT_FAIL, the rest 0. -/
def statusWord (s : State) : Word :=
  (0 : BitVec 26) ++ BitVec.ofBool s.initFail ++ BitVec.ofBool (tchHeld s) ++ BitVec.ofBool (trHeld s) ++ s.fsm.code
    ++ BitVec.ofBool s.busy

/-- `RESULT` (R28): bits 2:0 CODE, bit 3 SUB, the rest 0. -/
def resultWord (s : State) : Word := (0 : BitVec 28) ++ s.result.sub ++ s.result.code

/-- `CFGRO` (R28): bits 7:0 are `CFG`, the rest 0. -/
def cfgroWord (s : State) : Word := s.cfg.setWidth 32

/-- R160: the intended uses. No command checks it; a claim about the panel takes it as a premise. -/
def inProtocol (f : Fsm) : Instr → Bool
  | .powerOn => f == .poweredOff
  | .powerOff => f == .idle
  | .frameStart => f == .idle
  | .latchRow => f == .frameActive
  | .outputRow _ _ => f == .frameActive
  | .skip => f == .frameActive
  | .frameEnd => f == .frameActive
  | .write => true
  | .pulse _ _ _ => true

end Sys2Proof.Machine
end

