-- ==== Sys2Proof/Machine/Agents.lean ====
section
/-! DEFINITION. The agents that step beside the sequencer: the timing-pulse peripheral TPG (41_timing_pulse.md R100, R101),
the bus transfer engine XFR (44_row_output.md R135, R136), the cycle counter (10_state.md R27) and HOST's polls
(20_memory.md R46); and how their moves fall between the sequencer's events. -/

namespace Sys2Proof.Machine

/-- The part of the state that the other agents read and write. -/
structure Devices where
  pq : List Wave
  tpr : PulseResult
  tpOut : Level
  xf : Transfer
  bus : Byte
  cyc : Nat
  trace : List Event
  hostq : List HostOp
  reads : List (Nat × Word)
deriving DecidableEq, Repr

/-- The devices' part of a state. -/
def State.devices (s : State) : Devices :=
  { pq := s.pq, tpr := s.tpr, tpOut := s.tpOut, xf := s.xf, bus := s.bus, cyc := s.cyc, trace := s.trace
    hostq := s.hostq, reads := s.reads }

/-- A `TpSeg` event, unless the segment takes no time (30_encoding.md R67). -/
def segEvents (g : Nat) (level : Level) (ticks : Nat) : List Event :=
  if ticks = 0 then [] else [.tpSeg g level ticks]

/-- R100: the enabled play step of the head waveform: start, fall or end. -/
def tpgPlay (d : Devices) : Devices :=
  match d.pq with
  | [] => d
  | w :: rest =>
    match w.phase with
    | .queued =>
      if w.high = 0 then
        { d with tpOut := false, pq := { w with phase := .low } :: rest, trace := d.trace ++ segEvents w.g false w.low }
      else
        { d with tpOut := true, pq := { w with phase := .high } :: rest, trace := d.trace ++ [.tpSeg w.g true w.high] }
    | .high =>
      { d with tpOut := false, pq := { w with phase := .low } :: rest, trace := d.trace ++ segEvents w.g false w.low }
    | .low =>
      { d with
        pq := rest, tpOut := false, trace := d.trace ++ [.tpEnd w.g]
        tpr := if w.blk then .ended else d.tpr }

/-- R101: the head waveform fails, in any phase, and emits `TpFail`, blocking or not (entry 19); only a blocking one is
reported in `TPR`. The pin keeps the drawn level until the next waveform starts (entry 28). -/
def tpgFail (level : Level) (d : Devices) : Devices :=
  match d.pq with
  | [] => d
  | w :: rest =>
    { d with
      pq := rest, tpOut := level, trace := d.trace ++ [.tpFail w.g]
      tpr := if w.blk then .failed else d.tpr }

/-- R135, R136: one beat, or the successful end when all of `data` (`ROW_WIDTH` bytes, R134) is out. DESIGN CHOICE: the bus
lines take a drawn level at the end (entry 20) and keep it until the next beat (entry 27); R26 leaves the level between
transfers unspecified. -/
def xfrGo (idle : Byte) (d : Devices) : Devices :=
  match d.xf with
  | .active data sent =>
    match data[sent]? with
    | some v => { d with bus := v, xf := .active data (sent + 1), trace := d.trace ++ [.xfBeat sent v] }
    | none => { d with xf := .ended true, bus := idle, trace := d.trace ++ [.xfEnd true] }
  | .none => d
  | .ended _ => d

/-- R136: the transfer fails, after any number of beats; the bus lines as after a successful end (entries 20 and 27). -/
def xfrFail (idle : Byte) (d : Devices) : Devices :=
  match d.xf with
  | .active _ _ => { d with xf := .ended false, bus := idle, trace := d.trace ++ [.xfEnd false] }
  | .none => d
  | .ended _ => d

/-- HOST takes its pending access if that is a 32-bit read of `STATUS` or `RESULT`, the two accesses enabled while a
command runs (R46); a read has no side effect (R45). -/
def hostPoll (status result : Word) (d : Devices) : Devices :=
  match d.hostq with
  | .read 0x004 4 :: rest => { d with hostq := rest, reads := d.reads ++ [(0x004, status)] }
  | .read 0x008 4 :: rest => { d with hostq := rest, reads := d.reads ++ [(0x008, result)] }
  | _ => d

/-- One move of an agent other than SEQ. -/
def moveDevices (status result : Word) (m : Move) (d : Devices) : Devices :=
  match m with
  | .tpg => tpgPlay d
  | .tpgFail level => tpgFail level d
  | .xfr idle => xfrGo idle d
  | .xfrFail idle => xfrFail idle d
  | .cycle => { d with cyc := d.cyc + 1 }
  | .poll => hostPoll status result d

/-- A run of moves, in order. -/
def runMoves (status result : Word) : List Move → Devices → Devices
  | [], d => d
  | m :: ms, d => runMoves status result ms (moveDevices status result m d)

/-- The draw of the moves that fall before SEQ's next event (R46): ENV's script, then a free value. -/
def nextBurst (s : State) : List Move := s.bursts.headD (Config.freeBurst s.drawn)

/-- The devices after the drawn moves. `STATUS` and `RESULT` are those of the instant: no agent but SEQ writes what they
show. -/
def afterBurst (s : State) : Devices := runMoves (statusWord s) (resultWord s) (nextBurst s) s.devices

/-- The other agents step: any number of moves, in any order (20_memory.md R46, R52). -/
def interleave (s : State) : State :=
  { s with
    pq := (afterBurst s).pq
    tpr := (afterBurst s).tpr
    tpOut := (afterBurst s).tpOut
    xf := (afterBurst s).xf
    bus := (afterBurst s).bus
    cyc := (afterBurst s).cyc
    trace := (afterBurst s).trace
    hostq := (afterBurst s).hostq
    reads := (afterBurst s).reads
    bursts := s.bursts.tail
    drawn := s.drawn + 1 }

/-- `f` runs while HOST takes no step: its accesses stay pending. -/
def withoutHost (f : State → State) (s : State) : State := { f { s with hostq := [] } with hostq := s.hostq }

end Sys2Proof.Machine
end

