-- ==== Sys2Proof/Machine/Ops.lean ====
section
/-! DEFINITION. The shared operations: events, commit, delay, the pulse procedure, the transfer slot, the two exits, command
acceptance, and the run of a command's micro-steps. -/

namespace Sys2Proof.Machine

/-- `emit e` (00_scope.md R8): an event of SEQ, after whatever moves of the other agents fall before it
(20_memory.md R46, R49). -/
def seqEmit (e : Event) (s : State) : State :=
  { interleave s with trace := (interleave s).trace ++ [e] }

/-- Events of SEQ in order, the other agents' moves between them. -/
def seqEmits : List Event → State → State
  | [], s => s
  | e :: es, s => seqEmits es (seqEmit e s)

/-! ### The two exits -/

/-- The error exit, `raise Cause(sub)` (60_exceptions.md R156): this machine's one way to take an exception. It writes
`RESULT`, clears `BUSY`, emits `Ret`, and does nothing else: no state is saved, no mode changes, control goes nowhere. -/
def raise (c : Cause) (s : State) : State := { seqEmit (.ret c) s with result := c, busy := false }

/-- The normal exit, `return Ok` (R155). There is no return from an exception (R159). -/
def returnOk (s : State) : State := { seqEmit (.ret .ok) s with result := .ok, busy := false }

/-! ### The configuration register -/

/-- `CFG.f <- b` (40_config_writer.md R80): no pin moves and nothing is emitted. -/
def setField (f : CfgField) (b : Bool) (s : State) : State := { s with cfg := f.set b s.cfg }

/-- `PinWrite(p, l)` drives one line (00_scope.md R8); `commit`, its only caller, emits the event. -/
def pinWrite (p : Pin) (l : Level) (s : State) : State :=
  match p with
  | .cfgData => { s with cfgData := l }
  | .cfgClk => { s with cfgClk := l }
  | .cfgStr => { s with cfgStr := l }

/-- Pin writes in order. -/
def pinWrites : List (Pin × Level) → State → State
  | [], s => s
  | w :: ws, s => pinWrites ws (pinWrite w.1 w.2 s)

/-- The events of one commit of `v`: 26 pin writes, then `Cfg(v)` (40_config_writer.md R81). -/
def commitEvents (v : Byte) : List Event := (commitPins v).map (fun w => .pin w.1 w.2) ++ [.cfg v]

/-- `commit()` on the lines and the panel (40_config_writer.md R81): all eight fields, inside one strobe-low window; the
panel's register changes once, at the end. -/
def driveCommit (s : State) : State := { pinWrites (commitPins s.cfg) s with panelCfg := some s.cfg }

/-- `commit()`. What it does to the lines and the panel is one action, in which no other agent steps, so that wherever one
can step `PANEL_CFG = CFG` (10_state.md R15); steps of TPG and XFR, and cycles of CYC, fall between its events in the trace
(20_memory.md R49). DESIGN CHOICE: HOST takes no access meanwhile (entry 7). -/
def commit (s : State) : State := withoutHost (seqEmits (commitEvents s.cfg)) (driveCommit s)

/-! ### The busy-wait delay -/

/-- `delay(n)` (42_power_sequencing.md R110): the other agents step while it waits; when it ends, at least `n` cycles have
passed since it began. -/
def delay (n : Nat) (s : State) : State :=
  { interleave s with cyc := max (interleave s).cyc (s.cyc + n), trace := (interleave s).trace ++ [.delay n] }

/-! ### Results of one action -/

/-- How one action of a micro-step ends: done, an error to raise, or held by an `await`. -/
inductive ActResult where
  | done (s : State)
  | error (c : Cause) (s : State)
  | hold (s : State)
deriving DecidableEq, Repr

/-! ### The pulse procedure (41_timing_pulse.md R97) -/

/-- The draw `acq_ok` (R92): ENV's script, then a free value. -/
def nextAcq (s : State) : Bool := s.acqs.headD (Config.freeAcq s.drawn)

/-- R95: hand the waveform to the peripheral on instance `g`; the slot becomes absent. -/
def issueWave (g high low : Nat) (blk : Bool) (s : State) : State :=
  { interleave s with
    tch := .absent
    pulseG := g
    pq := (interleave s).pq ++ [⟨g, high, low, blk, .queued⟩]
    trace := (interleave s).trace ++ [.tpIssue g high low blk] }

/-- R94: a fresh channel instance is acquired and held. -/
def acquired (s : State) : State :=
  seqEmit (.tpAcquire (s.tchGen + 1))
    { s with acqs := s.acqs.tail, drawn := s.drawn + 1, tchGen := s.tchGen + 1, tch := .held (s.tchGen + 1) }

/-- R93: the acquisition fails; the slot stays absent. -/
def acquireFailed (s : State) : State :=
  seqEmit .tpAcquireFail { s with acqs := s.acqs.tail, drawn := s.drawn + 1 }

/-- R97 up to its `await`: acquire if absent, then issue. -/
def beginPulse (high low : Nat) (blk : Bool) (s : State) : ActResult :=
  match s.tch with
  | .held g => .done (issueWave g high low blk s)
  | .absent =>
    if nextAcq s then .done (issueWave (s.tchGen + 1) high low blk (acquired s))
    else .error .channelUnavailable (acquireFailed s)

/-- R98: the blocking waveform has ended; the channel is held again, the same instance. -/
def reclaim (s : State) : State := { s with tpr := .none, tch := .held s.pulseG }

/-- R99: the blocking waveform failed; the channel is dropped. -/
def dropChannel (s : State) : State := { s with tpr := .none }

/-- R97 from its `await` on: the hold that only TPG lifts, then R98 or R99. -/
def awaitPulse (s : State) : ActResult :=
  match (interleave s).tpr with
  | .none => .hold (interleave s)
  | .ended => .done (reclaim (interleave s))
  | .failed => .error .transmit (dropChannel (interleave s))

/-! ### The transfer slot (44_row_output.md) -/

/-- R131: the absence check of OUTPUT_ROW micro-step 3. -/
def checkSlot (s : State) : ActResult :=
  match s.tr with
  | .held => .done s
  | .absent => .error .resourceUnavailable s

/-- Store `v i` at every index `i` below `n`. -/
def fillBelow (v : Nat → Byte) (m : Memory) (n : Nat) : Memory :=
  (List.range n).foldl (fun m i => m.write i (v i)) m

/-- R137: copy `len` bytes of `RSRC`, zero-fill the rest of the buffer. -/
def copyRow (len : Nat) (s : State) : State :=
  { s with tbuf := s.tbuf.map (fun m => fillBelow (rowByte s len) m s.params.rowWidth) }

/-- R131, R134: take the resource and issue the transfer of the whole buffer. -/
def issueTransfer (s : State) : State :=
  { interleave s with
    tr := .absent
    xf := .active (rowData (interleave s)) 0
    trace := (interleave s).trace ++ [.xfIssue (rowData (interleave s))] }

/-- R132: put the resource back. -/
def putSlot (s : State) : State := { s with xf := .none, tr := .held }

/-- OUTPUT_ROW micro-step 6 (R138): the hold that only XFR lifts, then the put, on both outcomes. -/
def collectTransfer (s : State) : ActResult :=
  match (interleave s).xf with
  | .ended true => .done (putSlot (interleave s))
  | .ended false => .error .transferError (putSlot (interleave s))
  | .active _ _ => .hold (interleave s)
  | .none => .hold (interleave s)

/-! ### Micro-steps (10_state.md R12) -/

/-- An action inside the micro-step is done. -/
def nextAct (s : State) : State := { s with act := s.act + 1 }

/-- A micro-step completes: `STEP` advances by exactly 1 (R12). -/
def nextStep (s : State) : State := { s with step := s.step + 1, act := 0 }

/-- `FSM <- f` (R13). -/
def setFsm (f : Fsm) (s : State) : State := { s with fsm := f }

/-- The actions that micro-steps are lists of. -/
inductive Act where
  | set (f : CfgField) (b : Bool)
  | commit
  | delay (d : DelayName)
  | beginPulse (high low : Nat) (blk : Bool)
  | awaitPulse
  | checkSlot
  | copyRow (len : Nat)
  | issueTransfer
  | collectTransfer
  | fsm (f : Fsm)
deriving DecidableEq, Repr

/-- `pulse(high, low, blk)?` as actions: a non-blocking pulse does not wait (R96). -/
def pulseActs (high low : Nat) (blk : Bool) : List Act :=
  if blk then [.beginPulse high low true, .awaitPulse] else [.beginPulse high low false]

/-- One numbered micro-step of a command. -/
abbrev MicroStep := List Act

/-- What one action does. -/
def doAct (a : Act) (s : State) : ActResult :=
  match a with
  | .set f b => .done (setField f b s)
  | .commit => .done (commit s)
  | .delay d => .done (delay (delayCycles s.params d) s)
  | .beginPulse high low blk => beginPulse high low blk s
  | .awaitPulse => awaitPulse s
  | .checkSlot => checkSlot s
  | .copyRow len => .done (copyRow len s)
  | .issueTransfer => .done (issueTransfer s)
  | .collectTransfer => collectTransfer s
  | .fsm f => .done (setFsm f s)

/-- The actions of one micro-step, from where the sequencer stands in it. -/
def runActs : List Act → State → ActResult
  | [], s => .done s
  | a :: as, s =>
    match doAct a s with
    | .done t => runActs as (nextAct t)
    | .error c t => .error c t
    | .hold t => .hold t

/-- The micro-steps in order, then the normal exit (45_command_classes.md R144). `STEP` advances by 1 when a micro-step
completes and keeps its value while an `await` holds (R12); an error ends the command where it stands (R156). -/
def runSteps : List MicroStep → State → State
  | [], s => returnOk s
  | m :: ms, s =>
    match runActs (m.drop s.act) s with
    | .done t => runSteps ms (nextStep t)
    | .error c t => raise c t
    | .hold t => t

/-- Run a command from where `STEP` stands until it exits or a hold is not lifted. A hold that is never lifted is a
command that never exits (70_reset_and_hazards.md R192). -/
def runCommand (steps : List MicroStep) (s : State) : State := runSteps (steps.drop s.step) s

/-! ### Command acceptance (30_encoding.md R62, R71) -/

/-- R62: the latches take the word's fields, `BUSY <- 1`, `STEP <- 0`, `emit Cmd(w)`. -/
def accept (w : Word) (s : State) : State :=
  seqEmit (.cmd w)
    { s with
      op := (fields w).op, blk := (fields w).blk, a := (fields w).a, b := (fields w).b
      busy := true, step := 0, act := 0 }

/-- R71: an illegal word starts no command; `RESULT <- (7, 0)`, `emit Cmd(w)`, `emit Ret(7, 0)`. The step that meets it is
refused and carries this state. HOST's later accesses come after it. -/
def rejectIllegal (w : Word) (s : State) : State :=
  { withoutHost (seqEmits [.cmd w, .ret .illegalCommand]) s with result := .illegalCommand }

end Sys2Proof.Machine
end

