-- ==== Sys2Proof/Machine/ConfigWriter.lean ====
section
/-! DEFINITION. WRITE (40_config_writer.md R83). -/

namespace Sys2Proof.Machine

/-- R83: micro-step 0 commits the register as it stands. -/
def writeSteps : List MicroStep := [[.commit]]

/-- WRITE (R83). -/
def execWrite (s : State) : Host.Outcome State Fault Refusal := .next (runCommand writeSteps s)

end Sys2Proof.Machine
end

