-- ==== Sys2Proof/Machine/FrameScan.lean ====
section
/-! DEFINITION. FRAME_START, LATCH_ROW, SKIP and FRAME_END (43_frame_scan.md R120, R121, R122, R124), with the constants of
30_encoding.md R68. -/

namespace Sys2Proof.Machine

/-- R120's four micro-steps. -/
def frameStartSteps : List MicroStep :=
  [ [.set .mode true, .commit] ++ pulseActs 1 1 true,
    [.set .startOfFrame false, .commit, .delay .d3] ++ pulseActs 10 10 true,
    [.set .startOfFrame true, .commit] ++ pulseActs 0 10 true,
    [.set .outputEnable true, .commit] ++ pulseActs 1 1 true ++ [.fsm .frameActive] ]

/-- FRAME_START (R120). -/
def execFrameStart (s : State) : Host.Outcome State Fault Refusal := .next (runCommand frameStartSteps s)

/-- R121's two micro-steps. -/
def latchRowSteps : List MicroStep :=
  [ [.set .latchEnable true, .commit],
    [.set .latchEnable false, .commit] ]

/-- LATCH_ROW (R121). -/
def execLatchRow (s : State) : Host.Outcome State Fault Refusal := .next (runCommand latchRowSteps s)

/-- R122's one micro-step. -/
def skipSteps : List MicroStep := [pulseActs 45 5 false]

/-- SKIP (R122). -/
def execSkip (s : State) : Host.Outcome State Fault Refusal := .next (runCommand skipSteps s)

/-- R124's four micro-steps. -/
def frameEndSteps : List MicroStep :=
  [ [.set .outputEnable false, .commit],
    [.set .mode true, .commit],
    pulseActs 10 10 true,
    pulseActs 10 10 true ++ [.fsm .idle] ]

/-- FRAME_END (R124). -/
def execFrameEnd (s : State) : Host.Outcome State Fault Refusal := .next (runCommand frameEndSteps s)

end Sys2Proof.Machine
end

