-- ==== Sys2Proof/Machine/PowerSequencing.lean ====
section
/-! DEFINITION. POWER_ON and POWER_OFF (42_power_sequencing.md R111, R112). -/

namespace Sys2Proof.Machine

/-- R111's four micro-steps. -/
def powerOnSteps : List MicroStep :=
  [ [.set .scanDirection true, .set .powerDisable false, .commit, .delay .d1],
    [.set .negPowerEnable true, .commit, .delay .d2],
    [.set .posPowerEnable true, .commit, .delay .d1],
    [.set .startOfFrame true, .commit, .fsm .idle] ]

/-- POWER_ON (R111). -/
def execPowerOn (s : State) : Host.Outcome State Fault Refusal := .next (runCommand powerOnSteps s)

/-- R112's three micro-steps, each group committed (90_conflicts.md C6). -/
def powerOffSteps : List MicroStep :=
  [ [.set .posPowerEnable false, .commit, .delay .d4],
    [.set .negPowerEnable false, .commit, .delay .d5],
    [.set .powerDisable true, .set .startOfFrame false, .commit, .fsm .poweredOff] ]

/-- POWER_OFF (R112). -/
def execPowerOff (s : State) : Host.Outcome State Fault Refusal := .next (runCommand powerOffSteps s)

end Sys2Proof.Machine
end

