-- ==== Sys2Proof/Machine/RowOutput.lean ====
section
/-! DEFINITION. OUTPUT_ROW (44_row_output.md R138). -/

namespace Sys2Proof.Machine

/-- R138's seven micro-steps; the first two are LATCH_ROW's (45_command_classes.md R145). -/
def outputRowSteps (driveTime len : Operand) : List MicroStep :=
  latchRowSteps ++
    [ pulseActs (zext driveTime) 50 false,
      [.checkSlot],
      [.copyRow (zext len)],
      [.issueTransfer],
      [.collectTransfer] ]

/-- The assertion at the put (R132): the command stands at its put, the transfer is over, and the slot is held already.
Unreachable from reset (R133). -/
def putsIntoHeld (s : State) : Bool :=
  s.step == 6 && s.act == 0 && s.tr == .held &&
    match (interleave s).xf with
    | .ended _ => true
    | .active _ _ => false
    | .none => false

/-- OUTPUT_ROW drive_time, len (R138). -/
def execOutputRow (driveTime len : Operand) (s : State) : Host.Outcome State Fault Refusal :=
  if putsIntoHeld s then .fault .putIntoHeldSlot else .next (runCommand (outputRowSteps driveTime len) s)

end Sys2Proof.Machine
end

