-- ==== Sys2Proof/Machine/TimingPulse.lean ====
section
/-! DEFINITION. PULSE (41_timing_pulse.md R102). -/

namespace Sys2Proof.Machine

/-- R102: micro-step 0 is one call of `pulse`. -/
def pulseSteps (high low : Operand) (blocking : Bool) : List MicroStep :=
  [pulseActs (zext high) (zext low) blocking]

/-- PULSE high, low, blocking (R102). -/
def execPulse (high low : Operand) (blocking : Bool) (s : State) : Host.Outcome State Fault Refusal :=
  .next (runCommand (pulseSteps high low blocking) s)

end Sys2Proof.Machine
end

