-- ==== Sys2Proof/Machine/Dispatch.lean ====
section
/-! DEFINITION. One arm per command: its meaning, run on a state that has accepted it. -/

namespace Sys2Proof.Machine

def exec (i : Instr) (s : State) : Host.Outcome State Fault Refusal :=
  match i with
  | .write => Sys2Proof.Machine.execWrite s
  | .pulse high low blocking => Sys2Proof.Machine.execPulse high low blocking s
  | .powerOn => Sys2Proof.Machine.execPowerOn s
  | .powerOff => Sys2Proof.Machine.execPowerOff s
  | .frameStart => Sys2Proof.Machine.execFrameStart s
  | .latchRow => Sys2Proof.Machine.execLatchRow s
  | .outputRow driveTime len => Sys2Proof.Machine.execOutputRow driveTime len s
  | .skip => Sys2Proof.Machine.execSkip s
  | .frameEnd => Sys2Proof.Machine.execFrameEnd s

end Sys2Proof.Machine
end

