-- ==== Sys2Proof/Machine/HostPort.lean ====
section
/-! DEFINITION. HOST's accesses (10_state.md R28, R29; 20_memory.md R41, R44, R45), the command port (30_encoding.md R62, R71)
and the reset (70_reset_and_hazards.md R180 to R183). -/

namespace Sys2Proof.Machine

/-- A word written to `CMD` while `BUSY = 0` and `INIT_FAIL = 0`: a legal word is accepted and its command runs (R62); an
illegal one starts no command and is a refusal, which carries what R71 says is seen (R71, decision D26). -/
def submitCommand (w : Word) (s : State) : Host.Outcome State Fault Refusal :=
  match decode w with
  | .ok i => if i.wellFormed s.params then exec i (accept w s) else .refused (.illegalCommand w (rejectIllegal w s))
  | .error _ => .refused (.illegalCommand w (rejectIllegal w s))

/-- The agents that may be chosen before HOST (20_memory.md R46) have stepped, any number of times; HOST's later accesses
come after this one. -/
def beforeAccess (s : State) : State := withoutHost interleave s

/-- A host write. `CMD` is not accepted while `INIT_FAIL = 1`, and nothing changes (R31, R62); the read-only registers
ignore it (R28); `RSRC` takes the low byte. -/
def hostWrite (offset width : Nat) (v : Word) (s : State) : Host.Outcome State Fault Refusal :=
  match hostTarget s.params offset width with
  | some .cmd => if s.initFail then .next (beforeAccess s) else submitCommand v s
  | some .status => .next (beforeAccess s)
  | some .result => .next (beforeAccess s)
  | some .cfgro => .next (beforeAccess s)
  | some (.rsrc i) => .next { beforeAccess s with rsrc := s.rsrc.write i (v.setWidth 8) }
  | none => .refused (.hostAccess offset width)

/-- What a host read returns (R28): `CMD` reads 0; an `RSRC` byte not written since reset is unspecified (R25). -/
def hostValue (s : State) : HostTarget → Word
  | .cmd => 0
  | .status => statusWord s
  | .result => resultWord s
  | .cfgro => cfgroWord s
  | .rsrc i => (rsrcByte s i).setWidth 32

/-- A host read: no side effect on the block, and a second read returns the same (R45). -/
def hostRead (offset width : Nat) (s : State) : Host.Outcome State Fault Refusal :=
  match hostTarget s.params offset width with
  | some target => .next { beforeAccess s with reads := s.reads ++ [(offset, hostValue (beforeAccess s) target)] }
  | none => .refused (.hostAccess offset width)

/-- Nothing is in progress (R183). -/
def quiescent (s : State) : Bool := !s.busy && s.pq.isEmpty && s.xf == .none

/-- A reset (R180, R181): every piece of state takes its reset value; the parameters, fixed at construction, stay, and
so do HOST's and ENV's own lists; the arrays' contents are a new draw. The other agents may step before it; it has no
meaning while something is in progress (R183). -/
def hostReset (d : ResetDraw) (s : State) : Host.Outcome State Fault Refusal :=
  let t := beforeAccess s
  if quiescent t then
    .next { State.afterReset t.params d with
      hostq := t.hostq, reads := t.reads, bursts := t.bursts, acqs := t.acqs, drawn := t.drawn + 1, filled := t.drawn }
  else .refused .resetInProgress

/-- HOST goes on, while `BUSY = 0`: one access, a reset, or the end of its wait for `BUSY = 0`. -/
def hostStep (op : HostOp) (s : State) : Host.Outcome State Fault Refusal :=
  match op with
  | .read offset width => hostRead offset width s
  | .write offset width v => hostWrite offset width v s
  | .reset d => hostReset d s
  | .awaitIdle => .next (beforeAccess s)

/-- The command in progress goes on from where a hold left it (10_state.md R12). -/
def resume (s : State) : Host.Outcome State Fault Refusal :=
  match s.current with
  | some i => exec i s
  | none => .fault .latchesHoldNoCommand

/-- Why HOST's next operation is refused while `BUSY = 1`, if it is. Reads of `STATUS` and `RESULT` are enabled, every other
access is refused (20_memory.md R46; 93_implementation_defined.md U15), and so is a reset (R183, U16). -/
def refusedWhileBusy : HostOp → Option Refusal
  | .read offset width =>
    if width = 4 ∧ (offset = 0x004 ∨ offset = 0x008) then none else some (.accessWhileBusy offset width)
  | .write offset width _ => some (.accessWhileBusy offset width)
  | .reset _ => some .resetInProgress
  | .awaitIdle => none

/-- What happens next (20_memory.md R46): with `BUSY = 1` the command in progress, unless HOST does what is then refused;
else HOST, after whatever steps of the other agents come first; else the other agents alone. -/
def advance (s : State) : Host.Outcome State Fault Refusal :=
  if s.busy then
    match s.hostq.head?.bind refusedWhileBusy with
    | some r => .refused r
    | none => resume s
  else
    match s.hostq with
    | [] => .next (interleave s)
    | op :: rest => hostStep op { s with hostq := rest }

end Sys2Proof.Machine
end

