-- ==== Sys2Proof/Machine/Step.lean ====
section
/-! DEFINITION. The step function, and where it finds its next command: a write to `CMD` at the head of HOST's pending
accesses (10_state.md R28, 30_encoding.md R62). -/

namespace Sys2Proof.Machine

/-- One step of the machine. -/
def step (s : State) : Host.Outcome State Fault Refusal := advance s

/-- HOST's next access becomes the write of the one-word command `w` to `CMD`, and the port accepts it: `BUSY = 0` and
`INIT_FAIL = 0` (R62). -/
def State.withFetchWord (s : State) (nbits w : Nat) : State :=
  { s with
    hostq := .write 0x000 4 (BitVec.ofNat 32 (w % 2 ^ nbits)) :: s.hostq
    busy := false
    initFail := false }

end Sys2Proof.Machine
end

