-- ==== Sys2Proof/Safety.lean ====
section
/-! DEFINITION. The terms claims are stated in: the traces an observer keeps, a command's micro-steps and the sequencer's
place in them, hardware that plays and sends promptly, what only the other agents changed, and the machine's invariants. -/

namespace Sys2Proof.Machine

/-! ### Traces -/

/-- The events emitted by SEQ (10_state.md R30). -/
def Event.bySeq : Event → Bool
  | .cmd _ => true
  | .ret _ => true
  | .pin _ _ => true
  | .cfg _ => true
  | .delay _ => true
  | .tpAcquire _ => true
  | .tpAcquireFail => true
  | .tpIssue _ _ _ _ => true
  | .xfIssue _ => true
  | .reset _ => false
  | .tpSeg _ _ _ => false
  | .tpEnd _ => false
  | .tpFail _ => false
  | .xfBeat _ _ => false
  | .xfEnd _ => false

/-- SEQ's events, in order (20_memory.md R48). -/
def seqTrace (s : State) : List Event := s.trace.filter Event.bySeq

/-- The value of a `Cfg` event. -/
def Event.committed : Event → Option Byte
  | .cfg v => some v
  | .cmd _ => none
  | .ret _ => none
  | .pin _ _ => none
  | .delay _ => none
  | .tpAcquire _ => none
  | .tpAcquireFail => none
  | .tpIssue _ _ _ _ => none
  | .xfIssue _ => none
  | .reset _ => none
  | .tpSeg _ _ _ => none
  | .tpEnd _ => none
  | .tpFail _ => none
  | .xfBeat _ _ => none
  | .xfEnd _ => none

/-- The commit trace: the values of the `Cfg` events, in order (R30). -/
def commitTrace (s : State) : List Byte := s.trace.filterMap Event.committed

/-- The events of a transfer: its issue, its beats, its end (44_row_output.md R134 to R136). -/
def Event.byTransfer : Event → Bool
  | .xfIssue _ => true
  | .xfBeat _ _ => true
  | .xfEnd _ => true
  | .cmd _ => false
  | .ret _ => false
  | .pin _ _ => false
  | .cfg _ => false
  | .delay _ => false
  | .tpAcquire _ => false
  | .tpAcquireFail => false
  | .tpIssue _ _ _ _ => false
  | .reset _ => false
  | .tpSeg _ _ _ => false
  | .tpEnd _ => false
  | .tpFail _ => false

/-- The transfers' events, in order. -/
def transferTrace (s : State) : List Event := s.trace.filter Event.byTransfer

/-- The beats of a transfer of `data`, index 0 first (44_row_output.md R135). -/
def beatEvents (data : List Byte) : List Event := data.zipIdx.map (fun x => .xfBeat x.2 x.1)

/-- A receiver that shifts `CFG_DATA` in on each rising edge of `CFG_CLK` and copies its shift stage to its outputs on the
rising edge of `CFG_STR` (40_config_writer.md R82). -/
structure Receiver where
  data : Level
  clk : Level
  str : Level
  shift : Byte
  out : Option Byte
deriving DecidableEq, Repr

/-- The receiver sees one pin write. -/
def Receiver.see (r : Receiver) (w : Pin × Level) : Receiver :=
  match w.1 with
  | .cfgData => { r with data := w.2 }
  | .cfgClk =>
    { r with clk := w.2, shift := if !r.clk && w.2 then (r.shift <<< 1) ||| (BitVec.ofBool r.data).setWidth 8 else r.shift }
  | .cfgStr => { r with str := w.2, out := if !r.str && w.2 then some r.shift else r.out }

/-! ### The sequencer's place -/

/-- The micro-steps of each command. -/
def microSteps : Instr → List MicroStep
  | .write => writeSteps
  | .pulse high low blocking => pulseSteps high low blocking
  | .powerOn => powerOnSteps
  | .powerOff => powerOffSteps
  | .frameStart => frameStartSteps
  | .latchRow => latchRowSteps
  | .outputRow driveTime len => outputRowSteps driveTime len
  | .skip => skipSteps
  | .frameEnd => frameEndSteps

/-- A command has just been accepted: no action of it has run (30_encoding.md R62). -/
def State.atStart (s : State) : Prop := s.step = 0 ∧ s.act = 0

/-- The action at which the sequencer stands in command `i`. -/
def actAt (i : Instr) (s : State) : Option Act := ((microSteps i)[s.step]?).bind (·[s.act]?)

/-- A command waits in a blocking pulse (41_timing_pulse.md R97). -/
def State.waitsForPulse (s : State) : Bool :=
  s.busy && match s.current with
    | some i => actAt i s == some .awaitPulse
    | none => false

/-- A command waits for its transfer (44_row_output.md R138 micro-step 6). -/
def State.waitsForTransfer (s : State) : Bool :=
  s.busy && match s.current with
    | some i => actAt i s == some .collectTransfer
    | none => false

/-- The channel instance a pulse begun now is issued on (41_timing_pulse.md R94, R95). -/
def nextInstance (s : State) : Nat :=
  match s.tch with
  | .held g => g
  | .absent => s.tchGen + 1

/-- The draw `acq_ok` that is taken after `k` other draws (R92). -/
def acqAfter (k : Nat) (s : State) : Bool := s.acqs.headD (Config.freeAcq (s.drawn + k))

/-- A pulse begun after `k` draws gets a channel: it is held, or the acquisition succeeds (R92, R94). -/
def channelAfter (k : Nat) (s : State) : Prop := s.tch ≠ .absent ∨ acqAfter k s = true

/-- The acquisition event of a pulse begun now, if it needs one (R94). -/
def acquireEvents (s : State) : List Event :=
  match s.tch with
  | .held _ => []
  | .absent => [.tpAcquire (s.tchGen + 1)]

/-- `TCH_GEN` after a pulse begun now got its channel (R94). -/
def genAfterPulse (s : State) : Nat :=
  match s.tch with
  | .held _ => s.tchGen
  | .absent => s.tchGen + 1

/-! ### Prompt hardware -/

/-- A move that is not a failure. -/
def Move.calm : Move → Bool
  | .tpgFail _ => false
  | .xfrFail _ => false
  | .tpg => true
  | .xfr _ => true
  | .cycle => true
  | .poll => true

/-- A play step of TPG. -/
def Move.isTpg : Move → Bool
  | .tpg => true
  | .tpgFail _ => false
  | .xfr _ => false
  | .xfrFail _ => false
  | .cycle => false
  | .poll => false

/-- A step of XFR without a failure. -/
def Move.isXfr : Move → Bool
  | .xfr _ => true
  | .tpg => false
  | .tpgFail _ => false
  | .xfrFail _ => false
  | .cycle => false
  | .poll => false

/-- The play steps a waveform still needs (41_timing_pulse.md R100). -/
def Wave.work (w : Wave) : Nat :=
  match w.phase with
  | .queued => if w.high = 0 then 2 else 3
  | .high => 2
  | .low => 1

/-- The play steps a queue still needs. -/
def tpgWork (pq : List Wave) : Nat := (pq.map Wave.work).sum

/-- No failure, at least `n` play steps, and at least `m` transfer steps. -/
def promptBurst (n m : Nat) (moves : List Move) : Bool :=
  moves.all Move.calm && decide (n ≤ moves.countP Move.isTpg) && decide (m ≤ moves.countP Move.isXfr)

/-- ENV's script makes the hardware prompt for `k` of SEQ's events: before each, the peripheral plays what is queued and
one waveform more, and the bus engine ends a whole transfer, none of them failing. A claim about the one step that runs a
whole command, with Ok at its end, takes this premise; a claim that a command ends at all takes fairness alone. -/
def State.promptFor (s : State) (k : Nat) : Prop :=
  k ≤ s.bursts.length ∧ ∀ moves ∈ s.bursts.take k, promptBurst (tpgWork s.pq + 3) (s.params.rowWidth + 1) moves = true

/-- Moves that fail the waveform being played while it still needs `n` play steps: fewer than `n` of them, and no failure,
come before (41_timing_pulse.md R101). -/
def failsBurst (n : Nat) (moves : List Move) : Prop :=
  ∃ before level after, moves = before ++ .tpgFail level :: after ∧ before.all Move.calm = true ∧
    before.countP Move.isTpg < n

/-- ENV's script is prompt for `k` of SEQ's events, and before the next look fails a waveform that needs `n` play steps. -/
def State.failsAt (s : State) (k n : Nat) : Prop := s.promptFor k ∧ ∃ moves, s.bursts[k]? = some moves ∧ failsBurst n moves

/-! ### Fairness (20_memory.md R47) -/

/-- The states of a run that goes on for ever. -/
def IsRun (run : Nat → State) : Prop := ∀ n, step (run n) = .next (run (n + 1))

/-- TPG is fair: if from some point on its step stays enabled (a waveform is queued), it takes one later. A step of TPG
changes the record at the head, or takes it away; SEQ only appends (41_timing_pulse.md R95, R100, R101). -/
def FairTpg (run : Nat → State) : Prop :=
  ∀ n, (∀ k, n ≤ k → (run k).pq ≠ []) → ∃ k, n ≤ k ∧ (run (k + 1)).pq.head? ≠ (run k).pq.head?

/-- XFR is fair: if from some point on its step stays enabled (a transfer is in flight), it takes one later
(44_row_output.md R135, R136). -/
def FairXfr (run : Nat → State) : Prop :=
  ∀ n, (∀ k, n ≤ k → ∃ data sent, (run k).xf = .active data sent) → ∃ k, n ≤ k ∧ (run (k + 1)).xf ≠ (run k).xf

/-! ### What commands leave alone -/

/-- The devices' state changed only by steps of the other agents. That `BUS` holds its level between two such steps is the
model's choice (entry 27), and so is that `TP_OUT` does after a failed waveform (entry 28). -/
def AgentsOnly (s t : State) : Prop :=
  ∃ moves : List Move, ∀ status result,
    t.pq = (runMoves status result moves s.devices).pq ∧
    t.tpr = (runMoves status result moves s.devices).tpr ∧
    t.tpOut = (runMoves status result moves s.devices).tpOut ∧
    t.xf = (runMoves status result moves s.devices).xf ∧
    t.bus = (runMoves status result moves s.devices).bus

/-- The queue, the result latch and the pulse pin changed only by steps of TPG (for the pin after a failure, entry 28). -/
def TpgOnly (s t : State) : Prop :=
  ∃ moves : List Move, ∀ status result,
    t.pq = (runMoves status result moves s.devices).pq ∧
    t.tpr = (runMoves status result moves s.devices).tpr ∧
    t.tpOut = (runMoves status result moves s.devices).tpOut

/-- SEQ queued the one waveform `w`, and nothing else changed the peripheral but its own steps (41_timing_pulse.md R95). -/
def QueuesWave (w : Wave) (s t : State) : Prop := ∃ u, TpgOnly s u ∧ TpgOnly { u with pq := u.pq ++ [w] } t

/-- The two accesses that are enabled while a command runs (20_memory.md R46). -/
inductive Poll where
  | status
  | result
deriving DecidableEq, Repr

/-- The access of a poll: a 32-bit read of its register (10_state.md R28). -/
def Poll.access : Poll → HostOp
  | .status => .read 0x004 4
  | .result => .read 0x008 4

/-- What a poll returns: its register's offset and word. -/
def Poll.answer (status result : Word) : Poll → Nat × Word
  | .status => (0x004, status)
  | .result => (0x008, result)

/-- The parameters, the operand latches, `INIT_FAIL` and the row source window are unchanged: every command leaves
them alone (10_state.md R10, R25, R31, R33). -/
def SameFixed (s t : State) : Prop :=
  t.params = s.params ∧ t.op = s.op ∧ t.blk = s.blk ∧ t.a = s.a ∧ t.b = s.b ∧ t.initFail = s.initFail ∧
    ∀ i, t.rsrc.read i = s.rsrc.read i

/-- The timing channel's slot, its count and the pulse procedure's local are unchanged. -/
def SameChannel (s t : State) : Prop := t.tch = s.tch ∧ t.tchGen = s.tchGen ∧ t.pulseG = s.pulseG

/-- The byte of `TBUF` at an index, if any. -/
def tbufRead (s : State) (i : Nat) : Option Byte := s.tbuf.bind (·.read i)

/-- The transfer slot and every byte of the row buffer are unchanged. -/
def SameTransfer (s t : State) : Prop := t.tr = s.tr ∧ ∀ i, tbufRead t i = tbufRead s i

/-- The configuration register, the panel's register and the three lines are unchanged. -/
def SameConfig (s t : State) : Prop :=
  t.cfg = s.cfg ∧ t.panelCfg = s.panelCfg ∧ t.cfgData = s.cfgData ∧ t.cfgClk = s.cfgClk ∧ t.cfgStr = s.cfgStr

/-- SEQ did nothing: what is SEQ's, the panel's and a parameter's is unchanged, and the devices changed only by steps of the
other agents. `RSRC`, which HOST writes, is not spoken of. -/
def SeqStill (s t : State) : Prop :=
  AgentsOnly s t ∧ SameConfig s t ∧ SameChannel s t ∧ SameTransfer s t ∧
    t.params = s.params ∧ t.op = s.op ∧ t.blk = s.blk ∧ t.a = s.a ∧ t.b = s.b ∧ t.initFail = s.initFail ∧
    t.busy = s.busy ∧ t.step = s.step ∧ t.act = s.act ∧ t.fsm = s.fsm ∧ t.result = s.result ∧ seqTrace t = seqTrace s

/-- The three lines as a commit leaves them (10_state.md R17). -/
def linesAfterCommit (t : State) : Prop := t.cfgStr = true ∧ t.cfgClk = true ∧ t.cfgData = t.cfg.getLsbD 0

/-- A command ended, with its cause (60_exceptions.md R155, R156). -/
def endedWith (c : Cause) (t : State) : Prop := t.busy = false ∧ t.result = c

/-! ### Invariants -/

/-- RSRC and TBUF keep their canonical form and stay inside `ROW_WIDTH`; TBUF exists iff the last reset succeeded
(10_state.md R23, R25, R31). -/
def MemoryInv (s : State) : Prop :=
  s.rsrc.wf ∧ s.rsrc.within s.params.rowWidth ∧
  (∀ m, s.tbuf = some m → Memory.wf m ∧ Memory.within s.params.rowWidth m) ∧
  (s.tbuf = none ↔ s.initFail = true)

/-- The transfer slot's discipline (44_row_output.md R133; 10_state.md R22, R24, R31): `TR` is absent only while an
OUTPUT_ROW waits for its transfer, or after a failed reset; a transfer is in flight or over exactly while OUTPUT_ROW
waits; it carries the bytes of `TBUF`, all `ROW_WIDTH` of them (20_memory.md R53; 44_row_output.md R134). -/
def ArbiterInv (s : State) : Prop :=
  (s.initFail = true → s.tr = .absent ∧ s.busy = false ∧ s.xf = .none) ∧
  (s.initFail = false → s.tr = .absent → s.busy = true ∧ s.op = 7 ∧ s.step = 6 ∧ s.act = 0 ∧ s.xf ≠ .none) ∧
  (s.tr = .held → s.xf = .none) ∧
  (∀ data sent, s.xf = .active data sent → data = rowData s ∧ sent ≤ s.params.rowWidth)

/-- 10_state.md R15, R16, R35: the panel holds `CFG`, or nothing has been committed since reset. -/
def PanelInv (s : State) : Prop := s.panelCfg = none ∨ s.panelCfg = some s.cfg

/-- Between steps, a command in progress is a legal one that waits (10_state.md R12; 45_command_classes.md R146), for its
transfer with the slot taken (44_row_output.md R131, R134). -/
def ControlInv (s : State) : Prop :=
  s.busy = true →
    (∃ i, s.current = some i ∧ i.wellFormed s.params = true) ∧
      (s.waitsForPulse = true ∨ s.waitsForTransfer = true ∧ s.tr = .absent)

/-- The timing channel and the queue of waveforms (10_state.md R19 to R21, R37; 41_timing_pulse.md R91): only the head is
being played; a blocking waveform is in the queue, as its last record, exactly while a command waits and its result has not
come; a result is latched only for a command that waits, and then nothing is queued; no instance exceeds `TCH_GEN`; an
instance that SEQ holds is not the hardware's. -/
def TimingInv (s : State) : Prop :=
  (∀ w ∈ s.pq.tail, w.phase = .queued) ∧
  (s.waitsForPulse = false → s.tpr = .none ∧ ∀ w ∈ s.pq, w.blk = false) ∧
  (s.waitsForPulse = true →
    s.tch = .absent ∧
      ((s.tpr = .none ∧ ∃ ws w, s.pq = ws ++ [w] ∧ w.blk = true ∧ w.g = s.pulseG ∧ ∀ x ∈ ws, x.blk = false) ∨
        (s.tpr ≠ .none ∧ s.pq = []))) ∧
  (∀ w ∈ s.pq, w.g ≤ s.tchGen) ∧
  (s.waitsForPulse = true → s.pulseG ≤ s.tchGen) ∧
  (∀ g, s.tch = .held g → g ≤ s.tchGen ∧ ∀ w ∈ s.pq, w.g ≠ g)

end Sys2Proof.Machine
end

