-- ==== Sys2Proof/Certificates/Slice0/Obligations.lean ====
section
/-! DEFINITION. The statements for the provers, each a rule of spec/ or drawn from several; OBLIGATIONS.json lists them. -/

open Sys2Proof Sys2Proof.Machine

/-! ### Encoding (30_encoding.md) -/

/-- R60, R61, R73: words written out from the table decode to the commands they stand for, and words outside it do not
decode. -/
def Obligations.TableWordsDecode : Prop :=
  decode 0x10000000 = .ok .write ∧
  decode 0x2800A00A = .ok (.pulse 10 10 true) ∧
  decode 0x2002D005 = .ok (.pulse 45 5 false) ∧
  decode 0x30000000 = .ok .powerOn ∧
  decode 0x40000000 = .ok .powerOff ∧
  decode 0x50000000 = .ok .frameStart ∧
  decode 0x60000000 = .ok .latchRow ∧
  decode 0x70032004 = .ok (.outputRow 50 4) ∧
  decode 0x80000000 = .ok .skip ∧
  decode 0x90000000 = .ok .frameEnd ∧
  decode 0x00000000 = .error (.illegalOp 0) ∧
  decode 0xA0000000 = .error (.illegalOp 10) ∧
  decode 0x18000000 = .error .strayBlk ∧
  decode 0x10000001 = .error (.strayOperand 0 1) ∧
  decode 0x21000000 = .error (.reservedZ 1)

/-- R60, R61, R64: decoding an encoded command gives it back, every operand at every value. -/
def Obligations.DecodeEncodeRoundTrip : Prop := ∀ i : Instr, decode (encode i) = .ok i

/-- R60, R61: a word that decodes is the word of the command it decodes to: no two words are one command. -/
def Obligations.EncodeDecodeRoundTrip : Prop := ∀ (w : Word) (i : Instr), decode w = .ok i → encode i = w

/-- R61: "A word w selects a command iff w & mask = match", the rows are disjoint, and each command takes its operands from
the fields the table names, the others being 0. -/
def Obligations.DecodeFollowsTable : Prop :=
  (∀ (w : Word) (name : String),
    (∃ i, decode w = .ok i ∧ i.mnemonic = name) ↔ ∃ r ∈ opcodeTable, r.mnemonic = name ∧ r.selects w = true) ∧
  opcodeTable.Pairwise (fun r q => ∀ w : Word, ¬ (r.selects w = true ∧ q.selects w = true)) ∧
  ∀ (w : Word) (i : Instr), decode w = .ok i →
    let op := w.extractLsb' 28 4
    let blk := w.extractLsb' 27 1
    let a := w.extractLsb' 12 12
    let b := w.extractLsb' 0 12
    match i with
    | .write => op = 1 ∧ blk = 0 ∧ a = 0 ∧ b = 0
    | .pulse high low blocking => op = 2 ∧ blocking = decide (blk = 1) ∧ high = a ∧ low = b
    | .powerOn => op = 3 ∧ blk = 0 ∧ a = 0 ∧ b = 0
    | .powerOff => op = 4 ∧ blk = 0 ∧ a = 0 ∧ b = 0
    | .frameStart => op = 5 ∧ blk = 0 ∧ a = 0 ∧ b = 0
    | .latchRow => op = 6 ∧ blk = 0 ∧ a = 0 ∧ b = 0
    | .outputRow driveTime len => op = 7 ∧ blk = 0 ∧ driveTime = a ∧ len = b
    | .skip => op = 8 ∧ blk = 0 ∧ a = 0 ∧ b = 0
    | .frameEnd => op = 9 ∧ blk = 0 ∧ a = 0 ∧ b = 0

/-- R69: which words are illegal, field by field. -/
def Obligations.IllegalWordsAreExactlyR69 : Prop :=
  ∀ (p : Params) (w : Word),
    (¬ ∃ i, decode w = .ok i ∧ i.wellFormed p = true) ↔
      ((w.extractLsb' 28 4 = 0 ∨ 0xA ≤ (w.extractLsb' 28 4).toNat) ∨
        w.extractLsb' 24 3 ≠ 0 ∨
        (w.extractLsb' 27 1 = 1 ∧ w.extractLsb' 28 4 ≠ 2) ∨
        ((w.extractLsb' 12 12 ≠ 0 ∨ w.extractLsb' 0 12 ≠ 0) ∧ w.extractLsb' 28 4 ≠ 2 ∧ w.extractLsb' 28 4 ≠ 7) ∨
        (w.extractLsb' 28 4 = 7 ∧ p.rowWidth < (w.extractLsb' 0 12).toNat))

/-! ### Acceptance and the step -/

/-- With `BUSY = 0` and `INIT_FAIL = 0`, a legal word that HOST writes to `CMD` is accepted and its command runs (R62); while
`BUSY = 1` the command in the latches goes on (R12), unless HOST makes an access that is then refused
(HostAccessRefusals, HostResetOutcomes). That one step accepts the word and runs its command to an exit or to a wait that is
not lifted, where R46 makes each micro-step a step, is the model's choice (entry 9), and so is HOST's list of what it does
next, with its `awaitIdle` (entry 13). With `BUSY = 0` and nothing pending the other agents alone step (R46). -/
def Obligations.StepRunsCommand : Prop :=
  (∀ (s : State) (w : Word) (rest : List HostOp) (i : Instr),
    s.busy = false → s.initFail = false → s.hostq = .write 0x000 4 w :: rest →
    decode w = .ok i → i.wellFormed s.params = true →
    step s = exec i (accept w { s with hostq := rest })) ∧
  (∀ (s : State) (i : Instr), s.busy = true → s.current = some i →
    (∀ op rest, s.hostq = op :: rest → op = .read 0x004 4 ∨ op = .read 0x008 4 ∨ op = .awaitIdle) → step s = exec i s) ∧
  ∀ s : State, s.busy = false → s.hostq = [] →
    ∃ t, step s = .next t ∧ SeqStill s t ∧ ∀ i, t.rsrc.read i = s.rsrc.read i

/-- R62, R181: a word that HOST writes to `CMD` while a command runs, or after a failed reset, is not accepted. While
`BUSY = 1` the write is refused (U15), and no command takes it within its step. That it is dropped after a failed reset,
where SEQ does nothing, is the model's choice (entry 12). -/
def Obligations.CommandNotAcceptedUnlessIdle : Prop :=
  (∀ (s : State) (w : Word) (rest : List HostOp), s.busy = true → s.hostq = .write 0x000 4 w :: rest →
    step s = .refused (.accessWhileBusy 0x000 4)) ∧
  (∀ (i : Instr) (s t : State) (w : Word) (rest : List HostOp),
    s.hostq = .write 0x000 4 w :: rest → exec i s = .next t → t.hostq = .write 0x000 4 w :: rest) ∧
  ∀ (s : State) (w : Word) (rest : List HostOp),
    s.busy = false → s.initFail = true → s.hostq = .write 0x000 4 w :: rest →
    ∃ t, step s = .next t ∧ t.hostq = rest ∧ t.reads = s.reads ∧ SeqStill s t ∧ ∀ i, t.rsrc.read i = s.rsrc.read i

/-- R62, R10, R12: what acceptance writes, and that nothing else of the block changes but by the other agents' steps; of
HOST's lists, polls alone are taken, and each returns its register (R46). -/
def Obligations.AcceptanceLoadsLatches : Prop :=
  ∀ (s : State) (w : Word) (i : Instr), decode w = .ok i →
    (accept w s).op = w.extractLsb' 28 4 ∧ (accept w s).blk = w.extractLsb' 27 1 ∧
    (accept w s).a = w.extractLsb' 12 12 ∧ (accept w s).b = w.extractLsb' 0 12 ∧
    (accept w s).busy = true ∧ (accept w s).atStart ∧ (accept w s).current = some i ∧
    seqTrace (accept w s) = seqTrace s ++ [.cmd w] ∧
    SameConfig s (accept w s) ∧ SameChannel s (accept w s) ∧ SameTransfer s (accept w s) ∧
    (accept w s).fsm = s.fsm ∧ (accept w s).result = s.result ∧ (accept w s).params = s.params ∧
    (accept w s).initFail = s.initFail ∧ (∀ k, (accept w s).rsrc.read k = s.rsrc.read k) ∧ AgentsOnly s (accept w s) ∧
    s.cyc ≤ (accept w s).cyc ∧
    ∃ polls : List Poll, s.hostq = polls.map Poll.access ++ (accept w s).hostq ∧
      (accept w s).reads = s.reads ++ polls.map (Poll.answer (statusWord (accept w s)) (resultWord (accept w s)))

/-- R71, D26: an illegal word is a refusal, which names the word; that it carries the state R71 describes is the model's
choice (entry 11). -/
def Obligations.IllegalWordReportsCode7 : Prop :=
  ∀ (s : State) (w : Word) (rest : List HostOp),
    s.busy = false → s.initFail = false → s.hostq = .write 0x000 4 w :: rest →
    (¬ ∃ i, decode w = .ok i ∧ i.wellFormed s.params = true) →
    ∃ t, step s = .refused (.illegalCommand w t) ∧ t.busy = false ∧ resultWord t = 7 ∧ t.fsm = s.fsm ∧ SameConfig s t ∧ SameChannel s t ∧
      SameTransfer s t ∧ SameFixed s t ∧ AgentsOnly s t ∧
      seqTrace t = seqTrace s ++ [.cmd w, .ret .illegalCommand] ∧ t.hostq = rest

/-! ### The configuration register and WRITE (40_config_writer.md) -/

/-- R80: a field update replaces one field, leaves the other seven and everything else of the state, in any order within a
group; and in every command it is followed, in its micro-step and with nothing but field updates between, by a commit. -/
def Obligations.FieldUpdateIsLocal : Prop :=
  (∀ (f g : CfgField) (b : Bool) (v : Byte), g.get (f.set b v) = if g = f then b else g.get v) ∧
  (∀ (f g : CfgField) (b c : Bool) (v : Byte), f ≠ g → f.set b (g.set c v) = g.set c (f.set b v)) ∧
  (∀ (f : CfgField) (v : Byte), f.set (f.get v) v = v) ∧
  (∀ (f : CfgField) (b : Bool) (s : State), setField f b s = { s with cfg := f.set b s.cfg }) ∧
  ∀ (i : Instr), ∀ m ∈ microSteps i, ∀ (k : Nat) (f : CfgField) (b : Bool), m[k]? = some (.set f b) →
    ∃ j, k < j ∧ m[j]? = some .commit ∧ ∀ n, k < n → n < j → ∃ g c, m[n]? = some (.set g c)

/-- R15: a commit drives the lines and the panel in one action, in which no other agent steps (entry 7). R49: then its events
are emitted, contiguous among SEQ's. That HOST takes no access meanwhile, where R46 enables its polls, is the model's choice
(entry 7). R65, R81: the 26 pin writes of a commit, `CFG[7]` first. The
receiver is the one R82 describes from general knowledge, not from the source: whatever the lines were and whatever it held,
it ends with the committed value. -/
def Obligations.CommitPinOrder : Prop :=
  (∀ s : State, (driveCommit s).panelCfg = some (driveCommit s).cfg ∧ (driveCommit s).devices = s.devices ∧
    commit s = withoutHost (seqEmits (commitEvents s.cfg)) (driveCommit s) ∧
    seqTrace (commit s) = seqTrace s ++ commitEvents s.cfg ∧ AgentsOnly s (commit s) ∧
    (commit s).hostq = s.hostq ∧ (commit s).reads = s.reads) ∧
  ∀ (v : Byte) (r : Receiver), ((commitPins v).foldl Receiver.see r).out = some v ∧ commitPins v =
    [ (.cfgStr, false),
      (.cfgData, v.getLsbD 7), (.cfgClk, false), (.cfgClk, true),
      (.cfgData, v.getLsbD 6), (.cfgClk, false), (.cfgClk, true),
      (.cfgData, v.getLsbD 5), (.cfgClk, false), (.cfgClk, true),
      (.cfgData, v.getLsbD 4), (.cfgClk, false), (.cfgClk, true),
      (.cfgData, v.getLsbD 3), (.cfgClk, false), (.cfgClk, true),
      (.cfgData, v.getLsbD 2), (.cfgClk, false), (.cfgClk, true),
      (.cfgData, v.getLsbD 1), (.cfgClk, false), (.cfgClk, true),
      (.cfgData, v.getLsbD 0), (.cfgClk, false), (.cfgClk, true),
      (.cfgStr, true) ]

/-- R83: WRITE completes: one full commit of the register as it stands, whatever the lines and the panel held. -/
def Obligations.WriteCommitsRegister : Prop :=
  ∀ s : State, s.atStart → ∃ t, exec .write s = .next t ∧ endedWith .ok t ∧ t.cfg = s.cfg ∧ t.panelCfg = some s.cfg ∧
    linesAfterCommit t ∧ t.fsm = s.fsm ∧
    seqTrace t = seqTrace s ++ commitEvents s.cfg ++ [.ret .ok]

/-- R121: LATCH_ROW completes with two commits, `latch_enable` true then false, the other fields unchanged. -/
def Obligations.LatchRowCommitsTwice : Prop :=
  ∀ s : State, s.atStart → ∃ t, exec .latchRow s = .next t ∧ endedWith .ok t ∧ t.cfg = s.cfg &&& 0xFE ∧
    t.panelCfg = some t.cfg ∧ linesAfterCommit t ∧ t.fsm = s.fsm ∧
    seqTrace t = seqTrace s ++ commitEvents (s.cfg ||| 0x01) ++ commitEvents (s.cfg &&& 0xFE) ++ [.ret .ok]

/-- The frame of WRITE and LATCH_ROW (R83, R121): besides the panel's register, the lines and, for LATCH_ROW, the one field
`latch_enable`, nothing of SEQ's changes, no byte of memory changes, and the devices change only by their own steps. -/
def Obligations.WriteLatchFrame : Prop :=
  ∀ (i : Instr) (s t : State), i = .write ∨ i = .latchRow → exec i s = .next t →
    SameFixed s t ∧ SameChannel s t ∧ SameTransfer s t ∧ t.fsm = s.fsm ∧ AgentsOnly s t ∧
    (i = .write → t.cfg = s.cfg) ∧ (∀ f, f ≠ .latchEnable → CfgField.get f t.cfg = CfgField.get f s.cfg)

/-- R85: how many commits each command makes when it ends with Ok in the step that starts it. That POWER_OFF makes 3 is the
spec's decision D8 (entry 23). -/
def Obligations.CommitCountPerCommand : Prop :=
  ∀ (i : Instr) (s t : State), s.atStart → s.busy = true → exec i s = .next t → endedWith .ok t →
    (commitTrace t).length = (commitTrace s).length +
      (match i with
        | .write => 1
        | .pulse _ _ _ => 0
        | .powerOn => 4
        | .powerOff => 3
        | .frameStart => 4
        | .latchRow => 2
        | .outputRow _ _ => 2
        | .skip => 0
        | .frameEnd => 2)

/-! ### Power (42_power_sequencing.md) -/

/-- R110: a delay emits `Delay(n)` when at least `n` cycles have passed, and changes nothing else of SEQ's. -/
def Obligations.DelayWaitsAtLeast : Prop :=
  ∀ (n : Nat) (s : State),
    s.cyc + n ≤ (delay n s).cyc ∧ seqTrace (delay n s) = seqTrace s ++ [.delay n] ∧
    SameConfig s (delay n s) ∧ SameChannel s (delay n s) ∧ SameTransfer s (delay n s) ∧ SameFixed s (delay n s) ∧
    (delay n s).busy = s.busy ∧ (delay n s).step = s.step ∧ (delay n s).act = s.act ∧ (delay n s).fsm = s.fsm ∧
    (delay n s).result = s.result ∧ AgentsOnly s (delay n s)

/-- R111: POWER_ON completes from every state: the four commits and three delays, the fields, `FSM`. -/
def Obligations.PowerOnStagesRails : Prop :=
  ∀ s : State, s.atStart →
    let c0 := (s.cfg ||| 0x20) &&& ~~~0x02
    ∃ t, exec .powerOn s = .next t ∧ endedWith .ok t ∧ t.fsm = .idle ∧ t.cfg = c0 ||| 0x1C ∧ t.panelCfg = some t.cfg ∧
      linesAfterCommit t ∧ s.cyc + (2 * s.params.d1 + s.params.d2) ≤ t.cyc ∧
      seqTrace t = seqTrace s ++ commitEvents c0 ++ [.delay s.params.d1] ++ commitEvents (c0 ||| 0x08) ++
        [.delay s.params.d2] ++ commitEvents (c0 ||| 0x0C) ++ [.delay s.params.d1] ++ commitEvents (c0 ||| 0x1C) ++
        [.ret .ok]

/-- R112: POWER_OFF completes from every state: three commits (decision D8, entry 23), two delays, the rails off at the
end. -/
def Obligations.PowerOffDropsRails : Prop :=
  ∀ s : State, s.atStart →
    ∃ t, exec .powerOff s = .next t ∧ endedWith .ok t ∧ t.fsm = .poweredOff ∧
      t.cfg = (s.cfg &&& ~~~0x1C) ||| 0x02 ∧ t.panelCfg = some t.cfg ∧ linesAfterCommit t ∧
      s.cyc + (s.params.d4 + s.params.d5) ≤ t.cyc ∧
      seqTrace t = seqTrace s ++ commitEvents (s.cfg &&& ~~~0x04) ++ [.delay s.params.d4] ++
        commitEvents (s.cfg &&& ~~~0x0C) ++ [.delay s.params.d5] ++ commitEvents ((s.cfg &&& ~~~0x1C) ||| 0x02) ++
        [.ret .ok]

/-- The frame of POWER_ON and POWER_OFF (R111, R112): the fields outside DIR, PDIS, NEG, POS, SOF keep their values, no
slot is touched, no byte of memory changes, and the devices change only by their own steps. -/
def Obligations.PowerFrame : Prop :=
  ∀ (i : Instr) (s t : State), i = .powerOn ∨ i = .powerOff → exec i s = .next t →
    SameFixed s t ∧ SameChannel s t ∧ SameTransfer s t ∧ AgentsOnly s t ∧
    (∀ f, f = .outputEnable ∨ f = .mode ∨ f = .latchEnable → CfgField.get f t.cfg = CfgField.get f s.cfg) ∧
    (i = .powerOff → CfgField.get .scanDirection t.cfg = CfgField.get .scanDirection s.cfg)

/-- R113: POWER_ON then POWER_OFF leaves `(c & 0xC1) | 0x22`, from any `c`; from 0x12 that is 0x22, from 0x22 it is 0x22;
the rails end off. -/
def Obligations.PowerCycleLeaves : Prop :=
  ∀ s t u v : State, s.atStart → exec .powerOn s = .next t → u.atStart → u.cfg = t.cfg → exec .powerOff u = .next v →
    v.cfg = (s.cfg &&& 0xC1) ||| 0x22 ∧ (s.cfg = 0x12 → v.cfg = 0x22) ∧ (s.cfg = 0x22 → v.cfg = 0x22) ∧
    CfgField.get .negPowerEnable v.cfg = false ∧ CfgField.get .posPowerEnable v.cfg = false ∧
    CfgField.get .powerDisable v.cfg = true

/-- R111, R112, R115: the order of the rails, commit by commit; and at no commit of POWER_ON or POWER_OFF is the positive rail
on while the negative rail is off, if that held at entry. That POWER_OFF commits group by group is the spec's decision D8
(entry 23). -/
def Obligations.RailsNeverPositiveAlone : Prop :=
  ∀ (i : Instr) (s t : State), i = .powerOn ∨ i = .powerOff → s.atStart → exec i s = .next t →
    let commits := (commitTrace t).drop (commitTrace s).length
    let on := CfgField.set .powerDisable false (CfgField.set .scanDirection true s.cfg)
    let neg := CfgField.set .negPowerEnable true on
    let pos := CfgField.set .posPowerEnable true neg
    let posOff := CfgField.set .posPowerEnable false s.cfg
    let negOff := CfgField.set .negPowerEnable false posOff
    (i = .powerOn → commits = [on, neg, pos, CfgField.set .startOfFrame true pos]) ∧
    (i = .powerOff →
      commits = [posOff, negOff, CfgField.set .startOfFrame false (CfgField.set .powerDisable true negOff)]) ∧
    ((CfgField.get .posPowerEnable s.cfg = true → CfgField.get .negPowerEnable s.cfg = true) →
      ∀ v ∈ commits, CfgField.get .posPowerEnable v = true → CfgField.get .negPowerEnable v = true)

/-! ### The timing peripheral (41_timing_pulse.md) -/

/-- R100, R101: TPG's steps on the head record: start, fall, end, and fail in any phase; only a blocking waveform is reported
in `TPR`. The pin at 0 after the end is decision D11 (entry 23). Every failure emits `TpFail`, as R101 says;
R30's table describes the event by the blocking case (entry 19). -/
def Obligations.TpgSteps : Prop :=
  ∀ (d : Devices) (w : Wave) (rest : List Wave), d.pq = w :: rest →
    (w.phase = .queued → 0 < w.high →
      tpgPlay d = { d with
        tpOut := true, pq := { w with phase := .high } :: rest, trace := d.trace ++ [.tpSeg w.g true w.high] }) ∧
    (w.phase = .queued → w.high = 0 →
      tpgPlay d = { d with
        tpOut := false, pq := { w with phase := .low } :: rest
        trace := d.trace ++ if 0 < w.low then [.tpSeg w.g false w.low] else [] }) ∧
    (w.phase = .high →
      tpgPlay d = { d with
        tpOut := false, pq := { w with phase := .low } :: rest
        trace := d.trace ++ if 0 < w.low then [.tpSeg w.g false w.low] else [] }) ∧
    (w.phase = .low →
      tpgPlay d = { d with
        tpOut := false, pq := rest, trace := d.trace ++ [.tpEnd w.g], tpr := if w.blk = true then .ended else d.tpr }) ∧
    ∀ level, tpgFail level d = { d with
      pq := rest, tpOut := level, trace := d.trace ++ [.tpFail w.g], tpr := if w.blk = true then .failed else d.tpr }

/-- R50, R67, R100, and the spec's decisions D11 (the pin idles at 0) and D12 (first in, first out, each to its end), entry
23: the peripheral plays every queued waveform to its end, one at a time, in issue order: the events are
those of the descriptor `wave(high, low)`, segments of no ticks left out, each closed by its end marker. -/
def Obligations.TpgPlaysQueueInOrder : Prop :=
  ∀ (st rs : Word) (d : Devices), (∀ w ∈ d.pq, w.phase = .queued) →
    let e := runMoves st rs (List.replicate (tpgWork d.pq) .tpg) d
    e.pq = [] ∧ (d.pq ≠ [] → e.tpOut = false) ∧
    e.trace = d.trace ++ d.pq.flatMap (fun w =>
      ((wave w.high w.low).filter (fun x => 0 < x.ticks)).map (fun x => .tpSeg w.g x.level x.ticks) ++ [.tpEnd w.g])

/-- R93, R156: an acquisition that fails ends PULSE with ChannelUnavailable; no waveform is issued, the slot stays
absent for the next pulse to try again. R99, vector V10: a blocking waveform that fails ends PULSE with Transmit, the channel
dropped; that nothing is queued then rests on decision D12 (entry 23). -/
def Obligations.PulseFails : Prop :=
  (∀ (s : State) (high low : Operand) (blk : Bool), s.atStart → s.tch = .absent → acqAfter 0 s = false →
    ∃ t, exec (.pulse high low blk) s = .next t ∧ endedWith .channelUnavailable t ∧ t.tch = .absent ∧
      t.tchGen = s.tchGen ∧ AgentsOnly s t ∧
      seqTrace t = seqTrace s ++ [.tpAcquireFail, .ret .channelUnavailable]) ∧
  ∀ (s : State) (high low : Operand), s.atStart → channelAfter 0 s → s.tpr = .none →
    s.failsAt (1 + (acquireEvents s).length) (if high.toNat = 0 then 2 else 3) →
    ∃ t, exec (.pulse high low true) s = .next t ∧ endedWith .transmit t ∧ t.tch = .absent ∧ t.tchGen = genAfterPulse s ∧
      t.pq = [] ∧ t.tpr = .none ∧ t.fsm = s.fsm ∧ SameConfig s t ∧
      seqTrace t = seqTrace s ++ acquireEvents s ++
        [.tpIssue (nextInstance s) high.toNat low.toNat true, .ret .transmit]

/-- R95: what an issue queues is what it reports, and it forfeits the channel. R94 to R96, R102: a non-blocking PULSE that gets
a channel queues one waveform of its operands, completes at once and forfeits the channel. That a waveform queues behind those before
it, and cuts none short, is the spec's decision D12 (entry 23). -/
def Obligations.NonBlockingPulseForfeits : Prop :=
  (∀ (g high low : Nat) (blk : Bool) (s : State),
    (issueWave g high low blk s).pq = (interleave s).pq ++ [⟨g, high, low, blk, .queued⟩] ∧
    (issueWave g high low blk s).tpr = (interleave s).tpr ∧ (issueWave g high low blk s).tch = .absent ∧
    (issueWave g high low blk s).pulseG = g ∧
    seqTrace (issueWave g high low blk s) = seqTrace s ++ [.tpIssue g high low blk]) ∧
  ∀ (s : State) (high low : Operand), s.atStart → channelAfter 0 s →
    ∃ t, exec (.pulse high low false) s = .next t ∧ endedWith .ok t ∧ t.tch = .absent ∧ t.tchGen = genAfterPulse s ∧
      QueuesWave ⟨nextInstance s, high.toNat, low.toNat, false, .queued⟩ s t ∧
      seqTrace t = seqTrace s ++ acquireEvents s ++ [.tpIssue (nextInstance s) high.toNat low.toNat false, .ret .ok]

/-- R94, R95, R98, R102: on prompt hardware a blocking PULSE that gets a channel completes: every waveform has ended, and
the same instance is held again. That the waveforms before it have ended too rests on decision D12 (entry 23). -/
def Obligations.BlockingPulseCompletes : Prop :=
  ∀ (s : State) (high low : Operand), s.atStart → channelAfter 0 s → s.tpr = .none → s.promptFor 4 →
    ∃ t, exec (.pulse high low true) s = .next t ∧ endedWith .ok t ∧ t.tch = .held (nextInstance s) ∧
      t.tchGen = genAfterPulse s ∧ t.pq = [] ∧ t.tpr = .none ∧
      seqTrace t = seqTrace s ++ acquireEvents s ++ [.tpIssue (nextInstance s) high.toNat low.toNat true, .ret .ok]

/-- R97, R146, R192: a wait that is not lifted holds the command: the step changes nothing but by the other agents'
steps, in every command, at each of its two kinds of wait. R47: on a run that is fair to TPG and XFR, and starts in a state
that meets three invariants every step keeps, every command that is in progress ends, whatever fails; that TPG plays one
waveform after the other to its end is the spec's decision D12 (entry 23). -/
def Obligations.WaitsEndUnderFairness : Prop :=
  (∀ (i : Instr) (s : State),
    ((actAt i s = some .awaitPulse ∧ (interleave s).tpr = .none) ∨
      (actAt i s = some .collectTransfer ∧ ∀ ok, (interleave s).xf ≠ .ended ok)) →
    exec i s = .next (interleave s)) ∧
  ∀ run : Nat → State, IsRun run → FairTpg run → FairXfr run →
    ControlInv (run 0) → ArbiterInv (run 0) → TimingInv (run 0) → ∀ n, ∃ m, n ≤ m ∧ (run m).busy = false

/-- R98, R99, R156: when its waveform has ended, a PULSE that waits takes the channel back and ends with Ok; a FRAME_START or
FRAME_END that waits takes it back and goes on with its next micro-step, or, at its last pulse, ends with Ok and writes
`FSM` (R120, R124). When its waveform has failed, any command that waits for a pulse ends with Transmit and drops the
channel, and its register and `FSM` stay as they are. -/
def Obligations.WaitingPulseEnds : Prop :=
  (∀ (s : State) (high low : Operand),
    actAt (.pulse high low true) s = some .awaitPulse → (interleave s).tpr = .ended →
    ∃ t, exec (.pulse high low true) s = .next t ∧ endedWith .ok t ∧ t.tch = .held s.pulseG ∧ t.tchGen = s.tchGen ∧
      seqTrace t = seqTrace s ++ [.ret .ok]) ∧
  (∀ (i : Instr) (s : State), i = .frameStart ∨ i = .frameEnd →
    actAt i s = some .awaitPulse → (interleave s).tpr = .ended →
    (s.step < 3 → exec i s =
      exec i { interleave s with tpr := .none, tch := .held s.pulseG, step := s.step + 1, act := 0 }) ∧
    (3 ≤ s.step → ∃ t, exec i s = .next t ∧ endedWith .ok t ∧
      t.fsm = (if i = .frameStart then .frameActive else .idle) ∧ t.tch = .held s.pulseG ∧ t.tchGen = s.tchGen ∧
      SameConfig s t ∧ SameTransfer s t ∧ seqTrace t = seqTrace s ++ [.ret .ok])) ∧
  ∀ (i : Instr) (s : State), actAt i s = some .awaitPulse → (interleave s).tpr = .failed →
    ∃ t, exec i s = .next t ∧ endedWith .transmit t ∧ t.tch = s.tch ∧ t.tchGen = s.tchGen ∧ t.fsm = s.fsm ∧
      SameConfig s t ∧ SameTransfer s t ∧ seqTrace t = seqTrace s ++ [.ret .transmit]

/-- R94, R103: whatever a command acquires is a fresh instance: its number exceeds every earlier one. -/
def Obligations.AcquiredInstancesAreFresh : Prop :=
  ∀ (i : Instr) (s t : State), exec i s = .next t →
    s.tchGen ≤ t.tchGen ∧ ∀ g, .tpAcquire g ∈ (seqTrace t).drop (seqTrace s).length → s.tchGen < g ∧ g ≤ t.tchGen

/-- R97, R102, R122: PULSE and SKIP never touch `CFG`, the panel's register, the lines, `FSM`, `TR` or memory. With no transfer
in flight none begins; that `BUS` then keeps its level, which R26 leaves unspecified, is the model's choice (entry 27). -/
def Obligations.PulseSkipFrame : Prop :=
  ∀ (i : Instr) (s t : State), (∃ h l b, i = .pulse h l b) ∨ i = .skip → exec i s = .next t →
    SameFixed s t ∧ SameConfig s t ∧ SameTransfer s t ∧ t.fsm = s.fsm ∧ (s.xf = .none → t.xf = .none ∧ t.bus = s.bus)

/-- R51, R98, R124: under the timing invariant, a command whose pulses block ends with Ok only when nothing is queued, and
then holds the channel. That nothing is queued rests on decision D12 (entry 23). -/
def Obligations.BlockingPulseJoins : Prop :=
  ∀ (i : Instr) (s t : State), (∃ h l, i = .pulse h l true) ∨ i = .frameStart ∨ i = .frameEnd →
    TimingInv s → s.busy = true → s.current = some i → s.atStart ∨ s.waitsForPulse = true →
    exec i s = .next t → endedWith .ok t → t.pq = [] ∧ ∃ g, t.tch = .held g

/-! ### Frame scan (43_frame_scan.md) -/

/-- R120: on prompt hardware FRAME_START completes: four commits, four blocking pulses on one instance, `FSM`; that
nothing is queued then rests on decision D12 (entry 23). -/
def Obligations.FrameStartCompletes : Prop :=
  ∀ s : State, s.atStart → channelAfter 27 s → s.tpr = .none → s.promptFor 119 →
    let g := nextInstance s
    ∃ t, exec .frameStart s = .next t ∧ endedWith .ok t ∧ t.fsm = .frameActive ∧ t.cfg = s.cfg ||| 0xD0 ∧
      t.panelCfg = some t.cfg ∧ linesAfterCommit t ∧ t.tch = .held g ∧ t.tchGen = genAfterPulse s ∧ t.pq = [] ∧
      t.tpr = .none ∧
      seqTrace t = seqTrace s ++ commitEvents (s.cfg ||| 0x40) ++ acquireEvents s ++ [.tpIssue g 1 1 true] ++
        commitEvents ((s.cfg ||| 0x40) &&& ~~~0x10) ++ [.delay s.params.d3, .tpIssue g 10 10 true] ++
        commitEvents (s.cfg ||| 0x50) ++ [.tpIssue g 0 10 true] ++
        commitEvents (s.cfg ||| 0xD0) ++ [.tpIssue g 1 1 true, .ret .ok]

/-- R120, R124, R151: the one acquisition of FRAME_START or FRAME_END fails: the commits before it stay made, `FSM` is not
written, and what is queued is left to TPG. R120's table, R124, vector V17 (b): one of its waveforms fails, after those before
it have ended on prompt hardware: the same, with Transmit and the channel dropped. That nothing is queued then rests on decision D12
(entry 23). A row is the events before the look that finds the failure, the play steps that waveform needs, the register,
and SEQ's events. -/
def Obligations.FrameScanFails : Prop :=
  (∀ s : State, s.atStart → s.tch = .absent → acqAfter 27 s = false →
    ∃ t, exec .frameStart s = .next t ∧ endedWith .channelUnavailable t ∧ t.fsm = s.fsm ∧ t.cfg = s.cfg ||| 0x40 ∧
      t.panelCfg = some t.cfg ∧ t.tch = .absent ∧ t.tchGen = s.tchGen ∧ AgentsOnly s t ∧
      seqTrace t = seqTrace s ++ commitEvents (s.cfg ||| 0x40) ++ [.tpAcquireFail, .ret .channelUnavailable]) ∧
  (∀ s : State, s.atStart → s.tch = .absent → acqAfter 54 s = false →
    ∃ t, exec .frameEnd s = .next t ∧ endedWith .channelUnavailable t ∧ t.fsm = s.fsm ∧
      t.cfg = (s.cfg &&& ~~~0x80) ||| 0x40 ∧ t.panelCfg = some t.cfg ∧ t.tch = .absent ∧ t.tchGen = s.tchGen ∧
      AgentsOnly s t ∧
      seqTrace t = seqTrace s ++ commitEvents (s.cfg &&& ~~~0x80) ++ commitEvents ((s.cfg &&& ~~~0x80) ||| 0x40) ++
        [.tpAcquireFail, .ret .channelUnavailable]) ∧
  ∀ s : State, s.atStart → s.tpr = .none →
    let g := nextInstance s
    let a := (acquireEvents s).length
    let failed (i : Instr) (row : Nat × Nat × Byte × List Event) : Prop := s.failsAt (row.1 + a) row.2.1 →
      ∃ t, exec i s = .next t ∧ endedWith .transmit t ∧ t.fsm = s.fsm ∧ t.cfg = row.2.2.1 ∧ t.panelCfg = some t.cfg ∧
        t.tch = .absent ∧ t.tchGen = genAfterPulse s ∧ t.pq = [] ∧ t.tpr = .none ∧
        seqTrace t = seqTrace s ++ row.2.2.2 ++ [.ret .transmit]
    let c0 := s.cfg ||| 0x40
    let start0 := commitEvents c0 ++ acquireEvents s ++ [.tpIssue g 1 1 true]
    let start1 := start0 ++ commitEvents (c0 &&& ~~~0x10) ++ [.delay s.params.d3, .tpIssue g 10 10 true]
    let start2 := start1 ++ commitEvents (s.cfg ||| 0x50) ++ [.tpIssue g 0 10 true]
    let start3 := start2 ++ commitEvents (s.cfg ||| 0xD0) ++ [.tpIssue g 1 1 true]
    let e := (s.cfg &&& ~~~0x80) ||| 0x40
    let end2 := commitEvents (s.cfg &&& ~~~0x80) ++ commitEvents e ++ acquireEvents s ++ [.tpIssue g 10 10 true]
    (channelAfter 27 s → ∀ row ∈ [(28, 3, c0, start0), (58, 3, c0 &&& ~~~0x10, start1), (87, 2, s.cfg ||| 0x50, start2),
      (116, 3, s.cfg ||| 0xD0, start3)], failed .frameStart row) ∧
    (channelAfter 54 s → ∀ row ∈ [(55, 3, e, end2), (57, 3, e, end2 ++ [.tpIssue g 10 10 true])], failed .frameEnd row)

/-- R124: on prompt hardware FRAME_END completes: two commits, two blocking pulses on one instance, nothing queued
(decision D12, entry 23). -/
def Obligations.FrameEndCompletes : Prop :=
  ∀ s : State, s.atStart → channelAfter 54 s → s.tpr = .none → s.promptFor 60 →
    let g := nextInstance s
    ∃ t, exec .frameEnd s = .next t ∧ endedWith .ok t ∧ t.fsm = .idle ∧ t.cfg = (s.cfg &&& ~~~0x80) ||| 0x40 ∧
      t.panelCfg = some t.cfg ∧ linesAfterCommit t ∧ t.tch = .held g ∧ t.tchGen = genAfterPulse s ∧ t.pq = [] ∧
      t.tpr = .none ∧
      seqTrace t = seqTrace s ++ commitEvents (s.cfg &&& ~~~0x80) ++ commitEvents ((s.cfg &&& ~~~0x80) ||| 0x40) ++
        acquireEvents s ++ [.tpIssue g 10 10 true, .tpIssue g 10 10 true, .ret .ok]

/-- The frame of FRAME_START and FRAME_END (R120, R124): only MODE, SOF and OE of the register change; the transfer slot
and every byte of memory stay. With no transfer in flight none begins; that `BUS` then keeps its level, which R26 leaves
unspecified, is the model's choice (entry 27). -/
def Obligations.FrameScanFrame : Prop :=
  ∀ (i : Instr) (s t : State), i = .frameStart ∨ i = .frameEnd → exec i s = .next t →
    SameFixed s t ∧ SameTransfer s t ∧ (s.xf = .none → t.xf = .none ∧ t.bus = s.bus) ∧
    (∀ f, f ≠ .outputEnable → f ≠ .mode → f ≠ .startOfFrame → CfgField.get f t.cfg = CfgField.get f s.cfg) ∧
    (i = .frameEnd → CfgField.get .startOfFrame t.cfg = CfgField.get .startOfFrame s.cfg)

/-- R74: SKIP has the micro-steps of PULSE 45, 5, NB and does the same in every state; LATCH_ROW has the first two
micro-steps of OUTPUT_ROW. R122: SKIP, given a channel, completes at once with one non-blocking waveform of 45 and 5
ticks, queued behind those before it (decision D12, entry 23). -/
def Obligations.SkipIsNonBlockingPulse : Prop :=
  microSteps .skip = microSteps (.pulse 45 5 false) ∧
  (∀ driveTime len : Operand, (microSteps (.outputRow driveTime len)).take 2 = microSteps .latchRow) ∧
  (∀ s : State, exec .skip s = exec (.pulse 45 5 false) s) ∧
  ∀ s : State, s.atStart → channelAfter 0 s →
    ∃ t, exec .skip s = .next t ∧ endedWith .ok t ∧ t.tch = .absent ∧ t.tchGen = genAfterPulse s ∧
      QueuesWave ⟨nextInstance s, 45, 5, false, .queued⟩ s t ∧
      seqTrace t = seqTrace s ++ acquireEvents s ++ [.tpIssue (nextInstance s) 45 5 false, .ret .ok]

/-! ### Row output (44_row_output.md) -/

/-- R137: the copy and zero-fill: every byte of the buffer is written, `RSRC` is not. -/
def Obligations.CopyZeroFillsRow : Prop :=
  ∀ (s : State) (len : Nat) (m : Memory), s.tbuf = some m → len ≤ s.params.rowWidth →
    (∀ i, i < len → ∀ v, s.rsrc.read i = some v → tbufRead (copyRow len s) i = some v) ∧
    (∀ i, i < len → tbufRead (copyRow len s) i ≠ none) ∧
    (∀ i, len ≤ i → i < s.params.rowWidth → tbufRead (copyRow len s) i = some 0) ∧
    (∀ i, s.params.rowWidth ≤ i → tbufRead (copyRow len s) i = tbufRead s i) ∧
    (copyRow len s).rsrc = s.rsrc

/-- R138, R134 to R136, R53: on prompt hardware a legal OUTPUT_ROW completes: the latch pair, one non-blocking drive waveform
queued, the whole buffer issued and put on the bus byte by byte (in increasing index by decision D18, entry 23), the
resource back. That the drive waveform queues behind those before it is decision D12 (entry 23). -/
def Obligations.OutputRowCompletes : Prop :=
  ∀ (s : State) (driveTime len : Operand) (m : Memory), s.atStart → channelAfter 54 s →
    s.tr = .held → s.xf = .none → s.tbuf = some m → len.toNat ≤ s.params.rowWidth → s.promptFor 59 →
    ∃ t data, exec (.outputRow driveTime len) s = .next t ∧ endedWith .ok t ∧ t.tr = .held ∧ t.xf = .none ∧
      t.tch = .absent ∧ t.tchGen = genAfterPulse s ∧ t.cfg = s.cfg &&& 0xFE ∧ t.panelCfg = some t.cfg ∧
      t.fsm = s.fsm ∧ data.length = s.params.rowWidth ∧
      (∀ i, i < s.params.rowWidth →
        tbufRead t i = data[i]? ∧
        (i < len.toNat → ∀ v, s.rsrc.read i = some v → data[i]? = some v) ∧ (len.toNat ≤ i → data[i]? = some 0)) ∧
      transferTrace t = transferTrace s ++ [.xfIssue data] ++ beatEvents data ++ [.xfEnd true] ∧
      QueuesWave ⟨nextInstance s, driveTime.toNat, 50, false, .queued⟩ s t ∧
      seqTrace t = seqTrace s ++ commitEvents (s.cfg ||| 0x01) ++ commitEvents (s.cfg &&& 0xFE) ++ acquireEvents s ++
        [.tpIssue (nextInstance s) driveTime.toNat 50 false, .xfIssue data, .ret .ok]

/-- R138, R142: with the transfer slot absent, OUTPUT_ROW commits the latch pair, issues the drive waveform, and ends with
ResourceUnavailable; `TBUF` and the slot are untouched. -/
def Obligations.OutputRowWithoutResource : Prop :=
  ∀ (s : State) (driveTime len : Operand), s.atStart → channelAfter 54 s → s.tr = .absent →
    ∃ t, exec (.outputRow driveTime len) s = .next t ∧ endedWith .resourceUnavailable t ∧ SameTransfer s t ∧
      t.cfg = s.cfg &&& 0xFE ∧ t.tch = .absent ∧
      seqTrace t = seqTrace s ++ commitEvents (s.cfg ||| 0x01) ++ commitEvents (s.cfg &&& 0xFE) ++ acquireEvents s ++
        [.tpIssue (nextInstance s) driveTime.toNat 50 false, .ret .resourceUnavailable]

/-- R138, R156: OUTPUT_ROW's acquisition fails: the latch pair stays committed, nothing is copied or sent. -/
def Obligations.OutputRowAcquisitionFails : Prop :=
  ∀ (s : State) (driveTime len : Operand), s.atStart → s.tch = .absent → acqAfter 54 s = false →
    ∃ t, exec (.outputRow driveTime len) s = .next t ∧ endedWith .channelUnavailable t ∧ SameTransfer s t ∧
      t.cfg = s.cfg &&& 0xFE ∧ t.tch = .absent ∧ t.tchGen = s.tchGen ∧
      seqTrace t = seqTrace s ++ commitEvents (s.cfg ||| 0x01) ++ commitEvents (s.cfg &&& 0xFE) ++
        [.tpAcquireFail, .ret .channelUnavailable]

/-- R132, R138, R139: when the transfer is over, an OUTPUT_ROW that waits puts the resource back on both outcomes, and
ends with Ok or TransferError; the buffer and the register stay. A put into a held slot, and nothing else in OUTPUT_ROW, is a
fault of the model (decision D27). -/
def Obligations.OutputRowPutsBack : Prop :=
  (∀ (s : State) (driveTime len : Operand) (ok : Bool),
    actAt (.outputRow driveTime len) s = some .collectTransfer → s.tr = .absent → (interleave s).xf = .ended ok →
    ∃ t, exec (.outputRow driveTime len) s = .next t ∧ endedWith (if ok then .ok else .transferError) t ∧
      t.tr = .held ∧ t.xf = .none ∧ t.fsm = s.fsm ∧ SameConfig s t ∧ SameChannel s t ∧
      (∀ i, tbufRead t i = tbufRead s i) ∧
      seqTrace t = seqTrace s ++ [.ret (if ok then .ok else .transferError)]) ∧
  ∀ (s : State) (driveTime len : Operand) (f : Fault),
    exec (.outputRow driveTime len) s = .fault f ↔
      f = .putIntoHeldSlot ∧ actAt (.outputRow driveTime len) s = some .collectTransfer ∧ s.tr = .held ∧
        ∃ ok, (interleave s).xf = .ended ok

/-- R135, R136: XFR puts every byte on the bus, one a beat, then ends the transfer; after any number of beats it may end it in
failure instead; it touches nothing but the transfer and the bus. Increasing index is decision D18 (entry
23); the end comes after as many beats as bytes were captured, which are `ROW_WIDTH` (entry 24). That the bus stands at the
move's drawn level after the end and after a failure is the model's choice (entry 20): R26 leaves the level between transfers
unspecified, and R136 does not mention `BUS`. -/
def Obligations.XfrSendsBytesInOrder : Prop :=
  ∀ (st rs : Word) (idle : Byte) (data : List Byte) (d : Devices), d.xf = .active data 0 →
    let after (n : Nat) := runMoves st rs (List.replicate n (.xfr idle)) d
    (∀ k, k ≤ data.length →
      after k = { d with
        xf := .active data k, bus := (after k).bus, trace := d.trace ++ (beatEvents data).take k } ∧
      ∀ level, runMoves st rs (List.replicate k (.xfr idle) ++ [.xfrFail level]) d = { d with
        xf := .ended false, bus := level, trace := d.trace ++ (beatEvents data).take k ++ [.xfEnd false] }) ∧
    (∀ k, k < data.length → data[k]? = some (after (k + 1)).bus) ∧
    after (data.length + 1) = { d with
      xf := .ended true, bus := idle, trace := d.trace ++ beatEvents data ++ [.xfEnd true] }

/-- The frame of OUTPUT_ROW (R138): only `latch_enable` of the register changes, `FSM` stays, `RSRC` stays, and a legal one
(R69) changes no byte of `TBUF` at or past `ROW_WIDTH`. -/
def Obligations.OutputRowFrame : Prop :=
  ∀ (s t : State) (driveTime len : Operand), exec (.outputRow driveTime len) s = .next t →
    SameFixed s t ∧ t.fsm = s.fsm ∧
    (∀ f, f ≠ .latchEnable → CfgField.get f t.cfg = CfgField.get f s.cfg) ∧
    (len.toNat ≤ s.params.rowWidth → ∀ i, s.params.rowWidth ≤ i → tbufRead t i = tbufRead s i)

/-! ### All commands (60_exceptions.md, 10_state.md) -/

/-- R13, R126: `FSM` is written only by the normal exit of POWER_ON, POWER_OFF, FRAME_START and FRAME_END; every error exit,
every wait and every other command leaves it. -/
def Obligations.FsmTransitions : Prop :=
  ∀ (i : Instr) (s t : State),
    s.atStart ∨ actAt i s = some .awaitPulse ∨ actAt i s = some .collectTransfer → s.busy = true → exec i s = .next t →
    t.fsm =
      if t.busy = false ∧ t.result = .ok then
        match i with
        | .powerOn => .idle
        | .powerOff => .poweredOff
        | .frameStart => .frameActive
        | .frameEnd => .idle
        | .write => s.fsm
        | .pulse _ _ _ => s.fsm
        | .latchRow => s.fsm
        | .outputRow _ _ => s.fsm
        | .skip => s.fsm
      else s.fsm

/-- R151: which causes each command can end with. -/
def Obligations.CausesPerCommand : Prop :=
  ∀ (i : Instr) (s t : State), s.busy = true → exec i s = .next t → t.busy = false →
    t.result = .ok ∨
      match i with
      | .pulse _ _ true => t.result = .channelUnavailable ∨ t.result = .transmit
      | .pulse _ _ false => t.result = .channelUnavailable
      | .skip => t.result = .channelUnavailable
      | .frameStart => t.result = .channelUnavailable ∨ t.result = .transmit
      | .frameEnd => t.result = .channelUnavailable ∨ t.result = .transmit
      | .outputRow _ _ =>
        t.result = .channelUnavailable ∨ t.result = .transferError ∨ t.result = .resourceUnavailable
      | .write => False
      | .powerOn => False
      | .powerOff => False
      | .latchRow => False

/-- R13, R160: no command reads `FSM`: in every engine state a command does the same to the register, the slots, the
queue, the trace and the result. -/
def Obligations.FsmIsNotRead : Prop :=
  ∀ (i : Instr) (s t : State) (f : Fsm), exec i s = .next t →
    ∃ u, exec i { s with fsm := f } = .next u ∧ u.cfg = t.cfg ∧ u.panelCfg = t.panelCfg ∧ u.tch = t.tch ∧
      u.tchGen = t.tchGen ∧ u.pq = t.pq ∧ u.tpr = t.tpr ∧ u.tr = t.tr ∧ u.xf = t.xf ∧ u.tbuf = t.tbuf ∧
      u.trace = t.trace ∧ u.busy = t.busy ∧ u.result = t.result ∧ u.step = t.step

/-- R30, R48: a command only appends to the trace. -/
def Obligations.CommandsOnlyAppendToTrace : Prop :=
  ∀ (i : Instr) (s t : State), exec i s = .next t → ∃ events, t.trace = s.trace ++ events

/-! ### The host port and reset -/

/-- R28: the fields of `STATUS`, `RESULT` and `CFGRO`, bit by bit. R13 and R150: the numbers of the engine states and of the
causes, as (CODE, SUB). -/
def Obligations.HostRegisterFields : Prop :=
  (Fsm.code .poweredOff = 0 ∧ Fsm.code .idle = 1 ∧ Fsm.code .frameActive = 2) ∧
  (∀ c : Cause, (c.code, c.sub) =
    match c with
    | .ok => (0, 0)
    | .channelUnavailable => (1, 0)
    | .transmit => (1, 1)
    | .transferError => (2, 0)
    | .bufferInitError => (3, 0)
    | .resourceUnavailable => (4, 0)
    | .illegalCommand => (7, 0)) ∧
  ∀ s : State,
    (statusWord s).getLsbD 0 = s.busy ∧ (statusWord s).extractLsb' 1 2 = s.fsm.code ∧
    (statusWord s).getLsbD 3 = decide (s.tr = .held) ∧ (statusWord s).getLsbD 4 = decide (s.tch ≠ .absent) ∧
    (statusWord s).getLsbD 5 = s.initFail ∧ (statusWord s).extractLsb' 6 26 = 0 ∧
    (resultWord s).extractLsb' 0 3 = s.result.code ∧ (resultWord s).extractLsb' 3 1 = s.result.sub ∧
    (resultWord s).extractLsb' 4 28 = 0 ∧
    (cfgroWord s).extractLsb' 0 8 = s.cfg ∧ (cfgroWord s).extractLsb' 8 24 = 0

/-- R28, R40, R44, R45: with `BUSY = 0`, a 32-bit read of a register returns its value and changes nothing of SEQ's; a byte
read of `RSRC[i]` returns the byte written there, and twice the same byte whether written or not (entry 5); a write of a
read-only register changes nothing, and neither does the end of HOST's wait for `BUSY = 0` (entry 13). The other agents may
step before each (R46). While a command waits, a read of `STATUS` or `RESULT` that HOST takes returns the register (R46),
and HOST's `awaitIdle` stays. -/
def Obligations.HostReadsAndIgnoredWrites : Prop :=
  (∀ (s : State) (rest : List HostOp), s.busy = false →
    let took (t : State) (more : List (Nat × Word)) : Prop :=
      SeqStill s t ∧ (∀ j, t.rsrc.read j = s.rsrc.read j) ∧ t.hostq = rest ∧ t.reads = s.reads ++ more
    (∀ offset value, (offset, value) ∈
        [(0x000, 0), (0x004, statusWord s), (0x008, resultWord s), (0x00C, cfgroWord s)] →
      s.hostq = .read offset 4 :: rest → ∃ t, step s = .next t ∧ took t [(offset, value)]) ∧
    (∀ i, i < s.params.rowWidth → s.hostq = .read (0x1000 + i) 1 :: rest →
      ∃ (v : Byte) (t : State), step s = .next t ∧ took t [(0x1000 + i, v.setWidth 32)] ∧
        (∀ b, s.rsrc.read i = some b → v = b) ∧
        ∀ more, rest = .read (0x1000 + i) 1 :: more →
          ∃ u, step t = .next u ∧ u.reads = t.reads ++ [(0x1000 + i, v.setWidth 32)]) ∧
    (∀ offset v, offset ∈ [0x004, 0x008, 0x00C] → s.hostq = .write offset 4 v :: rest →
      ∃ t, step s = .next t ∧ took t []) ∧
    (s.hostq = .awaitIdle :: rest → ∃ t, step s = .next t ∧ took t [])) ∧
  ∀ (s : State) (rest : List HostOp), s.waitsForPulse = true → s.tpr = .none → nextBurst s = [.poll] →
    let held (queue : List HostOp) (more : List (Nat × Word)) : Prop :=
      ∃ t, step s = .next t ∧ t.busy = true ∧ t.hostq = queue ∧ t.reads = s.reads ++ more
    (s.hostq = .read 0x004 4 :: rest → held rest [(0x004, statusWord s)]) ∧
    (s.hostq = .read 0x008 4 :: rest → held rest [(0x008, resultWord s)]) ∧
    (s.hostq = .awaitIdle :: rest → held s.hostq [])

/-- R28, R40, R45: a byte HOST writes to `RSRC[i]` is the byte read there; every other byte, and every piece of SEQ's state,
stays; the other agents may step before it (R46). -/
def Obligations.HostStoresRowByte : Prop :=
  ∀ (s : State) (rest : List HostOp) (i : Nat) (v : Word), s.busy = false → i < s.params.rowWidth →
    s.hostq = .write (0x1000 + i) 1 v :: rest →
    ∃ t, step s = .next t ∧ t.rsrc.read i = some (v.extractLsb' 0 8) ∧
      (∀ j, j ≠ i → t.rsrc.read j = s.rsrc.read j) ∧ (s.rsrc.wf → t.rsrc.wf) ∧ SeqStill s t ∧
      t.hostq = rest ∧ t.reads = s.reads

/-- R41, R44: with `BUSY = 0` an access outside the port's map, or of another width, is refused as a host access, and no other
host read or write is so refused (an illegal word written to `CMD` is refused as one, IllegalWordReportsCode7). R46, U15:
with `BUSY = 1` every access is refused but the 32-bit reads of `STATUS` and `RESULT`. -/
def Obligations.HostAccessRefusals : Prop :=
  ∀ (s : State) (rest : List HostOp) (offset width : Nat) (v : Word),
    (s.hostq = .read offset width :: rest ∨ s.hostq = .write offset width v :: rest) →
      (s.busy = false → (step s = .refused (.hostAccess offset width) ↔
        ¬ (width = 4 ∧ offset ∈ [0x000, 0x004, 0x008, 0x00C]) ∧
        ¬ (width = 1 ∧ 0x1000 ≤ offset ∧ offset < 0x1000 + s.params.rowWidth))) ∧
      (s.busy = true → (step s = .refused (.accessWhileBusy offset width) ↔
        ¬ (s.hostq = .read 0x004 4 :: rest ∨ s.hostq = .read 0x008 4 :: rest)))

/-- R34, R180 and vector V28's successful counterpart: what a successful reset leaves, as the state and as HOST reads it. That
the pulse pin is then at 0 is the spec's decision D11 (R34's basis column), and the queue and its result latch rest on
decision D12 (entry 23). -/
def Obligations.ResetLeavesDefaults : Prop :=
  State.reset.cfg = 0x12 ∧ State.reset.fsm = .poweredOff ∧ State.reset.busy = false ∧ State.reset.tch = .absent ∧
  State.reset.tchGen = 0 ∧ State.reset.pq = [] ∧ State.reset.tpr = .none ∧ State.reset.tpOut = false ∧
  State.reset.tr = .held ∧ State.reset.xf = .none ∧ State.reset.result = .ok ∧ State.reset.initFail = false ∧
  State.reset.panelCfg = none ∧ State.reset.trace = [.reset true] ∧ Config.params.ok ∧
  statusWord State.reset = 0x00000008 ∧ resultWord State.reset = 0 ∧ cfgroWord State.reset = 0x00000012

/-- R180 to R183: a reset from a quiescent state takes the reset values, good or failed as drawn; while a command, waveform
or transfer is in progress it is refused. What is in progress is judged after the moves that the other agents make before
the reset (entry 15). That the pulse pin is then at 0 is the spec's decision D11 (R34's basis column), and the queue and its
result latch rest on decision D12 (entry 23). -/
def Obligations.HostResetOutcomes : Prop :=
  ∀ (s : State) (d : ResetDraw) (rest : List HostOp), s.hostq = .reset d :: rest →
    let q := interleave { s with hostq := [] }
    ((s.busy = true ∨ q.pq ≠ [] ∨ q.xf ≠ .none) → step s = .refused .resetInProgress) ∧
    (s.busy = false → q.pq = [] → q.xf = .none →
      ∃ t, step s = .next t ∧ t.cfg = 0x12 ∧ t.fsm = .poweredOff ∧ t.busy = false ∧ t.tch = .absent ∧ t.tchGen = 0 ∧
        t.pq = [] ∧ t.tpr = .none ∧ t.tpOut = false ∧ t.xf = .none ∧ t.panelCfg = none ∧ t.params = s.params ∧
        t.hostq = rest ∧ t.initFail = !d.initOk ∧ t.trace = [.reset d.initOk] ∧
        (d.initOk = true → t.tr = .held ∧ t.tbuf ≠ none ∧ t.result = .ok ∧ statusWord t = 0x08) ∧
        (d.initOk = false → t.tr = .absent ∧ t.tbuf = none ∧ t.result = .bufferInitError ∧ statusWord t = 0x20 ∧
          resultWord t = 3))

/-! ### Invariants -/

/-- Every invariant holds after reset. -/
def Obligations.ResetMeetsInvariants : Prop :=
  MemoryInv State.reset ∧ ArbiterInv State.reset ∧ PanelInv State.reset ∧ ControlInv State.reset ∧ TimingInv State.reset

/-- Every step keeps the arrays' canonical form and bounds (R23, R25, R31), and the parameters never change (R33). In a state
no run reaches, with an over-long OUTPUT_ROW in the latches, the bound is the model's choice (entry 26). -/
def Obligations.StepKeepsMemoryInv : Prop :=
  ∀ s t : State, step s = .next t → t.params = s.params ∧ (MemoryInv s → MemoryInv t)

/-- R133, R134: every step keeps the transfer slot's discipline, and a transfer in flight carries the bytes of `TBUF`,
all of them, index 0 first by decision D18 (entry 23). -/
def Obligations.StepKeepsArbiterInv : Prop :=
  ∀ s t : State, ArbiterInv s → step s = .next t → ArbiterInv t

/-- R15, R35: every step keeps `PANEL_CFG = CFG`, or no commit yet. -/
def Obligations.StepKeepsPanelInv : Prop :=
  ∀ s t : State, PanelInv s → step s = .next t → PanelInv t

/-- Between steps a command in progress is a legal one (R62) that stands at one of the two `await`s of R146, at the transfer's
with the slot taken (R131). That no step ends elsewhere in a command, nor inside a delay, is the model's step (entries 9 and
10), not a rule of the spec. -/
def Obligations.StepKeepsControlInv : Prop :=
  ∀ s t : State, ControlInv s → step s = .next t → ControlInv t

/-- R21, R37, R91: every step keeps the discipline of the timing channel and its queue, which is first in, first out by
the spec's decision D12 (entry 23). -/
def Obligations.StepKeepsTimingInv : Prop :=
  ∀ s t : State, ControlInv s → TimingInv s → step s = .next t → TimingInv t

/-- R133 (c), R132: under the invariants no step faults: the slot is never put twice, the latches hold a command. -/
def Obligations.StepNeverFaults : Prop :=
  ∀ (s : State) (f : Fault), ControlInv s → ArbiterInv s → step s ≠ .fault f
end

