-- ==== Sys2Proof/Laws/State.lean ====
section
/-! SUPPORT. One lemma per field per shared operation: the fields an operation leaves alone, and those it sets outright. -/

namespace Sys2Proof.Machine

/-! ### interleave -/

@[simp] theorem interleave_params (s : State) : (interleave s).params = s.params := rfl
@[simp] theorem interleave_busy (s : State) : (interleave s).busy = s.busy := rfl
@[simp] theorem interleave_step (s : State) : (interleave s).step = s.step := rfl
@[simp] theorem interleave_act (s : State) : (interleave s).act = s.act := rfl
@[simp] theorem interleave_op (s : State) : (interleave s).op = s.op := rfl
@[simp] theorem interleave_blk (s : State) : (interleave s).blk = s.blk := rfl
@[simp] theorem interleave_a (s : State) : (interleave s).a = s.a := rfl
@[simp] theorem interleave_b (s : State) : (interleave s).b = s.b := rfl
@[simp] theorem interleave_fsm (s : State) : (interleave s).fsm = s.fsm := rfl
@[simp] theorem interleave_cfg (s : State) : (interleave s).cfg = s.cfg := rfl
@[simp] theorem interleave_panelCfg (s : State) : (interleave s).panelCfg = s.panelCfg := rfl
@[simp] theorem interleave_cfgData (s : State) : (interleave s).cfgData = s.cfgData := rfl
@[simp] theorem interleave_cfgClk (s : State) : (interleave s).cfgClk = s.cfgClk := rfl
@[simp] theorem interleave_cfgStr (s : State) : (interleave s).cfgStr = s.cfgStr := rfl
@[simp] theorem interleave_tch (s : State) : (interleave s).tch = s.tch := rfl
@[simp] theorem interleave_tchGen (s : State) : (interleave s).tchGen = s.tchGen := rfl
@[simp] theorem interleave_pulseG (s : State) : (interleave s).pulseG = s.pulseG := rfl
@[simp] theorem interleave_tr (s : State) : (interleave s).tr = s.tr := rfl
@[simp] theorem interleave_tbuf (s : State) : (interleave s).tbuf = s.tbuf := rfl
@[simp] theorem interleave_rsrc (s : State) : (interleave s).rsrc = s.rsrc := rfl
@[simp] theorem interleave_result (s : State) : (interleave s).result = s.result := rfl
@[simp] theorem interleave_initFail (s : State) : (interleave s).initFail = s.initFail := rfl
@[simp] theorem interleave_acqs (s : State) : (interleave s).acqs = s.acqs := rfl
@[simp] theorem interleave_filled (s : State) : (interleave s).filled = s.filled := rfl

/-! ### seqEmit -/

@[simp] theorem seqEmit_params (e : Event) (s : State) : (seqEmit e s).params = s.params := rfl
@[simp] theorem seqEmit_busy (e : Event) (s : State) : (seqEmit e s).busy = s.busy := rfl
@[simp] theorem seqEmit_step (e : Event) (s : State) : (seqEmit e s).step = s.step := rfl
@[simp] theorem seqEmit_act (e : Event) (s : State) : (seqEmit e s).act = s.act := rfl
@[simp] theorem seqEmit_op (e : Event) (s : State) : (seqEmit e s).op = s.op := rfl
@[simp] theorem seqEmit_blk (e : Event) (s : State) : (seqEmit e s).blk = s.blk := rfl
@[simp] theorem seqEmit_a (e : Event) (s : State) : (seqEmit e s).a = s.a := rfl
@[simp] theorem seqEmit_b (e : Event) (s : State) : (seqEmit e s).b = s.b := rfl
@[simp] theorem seqEmit_fsm (e : Event) (s : State) : (seqEmit e s).fsm = s.fsm := rfl
@[simp] theorem seqEmit_cfg (e : Event) (s : State) : (seqEmit e s).cfg = s.cfg := rfl
@[simp] theorem seqEmit_panelCfg (e : Event) (s : State) : (seqEmit e s).panelCfg = s.panelCfg := rfl
@[simp] theorem seqEmit_cfgData (e : Event) (s : State) : (seqEmit e s).cfgData = s.cfgData := rfl
@[simp] theorem seqEmit_cfgClk (e : Event) (s : State) : (seqEmit e s).cfgClk = s.cfgClk := rfl
@[simp] theorem seqEmit_cfgStr (e : Event) (s : State) : (seqEmit e s).cfgStr = s.cfgStr := rfl
@[simp] theorem seqEmit_tch (e : Event) (s : State) : (seqEmit e s).tch = s.tch := rfl
@[simp] theorem seqEmit_tchGen (e : Event) (s : State) : (seqEmit e s).tchGen = s.tchGen := rfl
@[simp] theorem seqEmit_pulseG (e : Event) (s : State) : (seqEmit e s).pulseG = s.pulseG := rfl
@[simp] theorem seqEmit_tr (e : Event) (s : State) : (seqEmit e s).tr = s.tr := rfl
@[simp] theorem seqEmit_tbuf (e : Event) (s : State) : (seqEmit e s).tbuf = s.tbuf := rfl
@[simp] theorem seqEmit_rsrc (e : Event) (s : State) : (seqEmit e s).rsrc = s.rsrc := rfl
@[simp] theorem seqEmit_result (e : Event) (s : State) : (seqEmit e s).result = s.result := rfl
@[simp] theorem seqEmit_initFail (e : Event) (s : State) : (seqEmit e s).initFail = s.initFail := rfl
@[simp] theorem seqEmit_acqs (e : Event) (s : State) : (seqEmit e s).acqs = s.acqs := rfl
@[simp] theorem seqEmit_filled (e : Event) (s : State) : (seqEmit e s).filled = s.filled := rfl

/-! ### raise -/

@[simp] theorem raise_params (c : Cause) (s : State) : (raise c s).params = s.params := rfl
@[simp] theorem raise_step (c : Cause) (s : State) : (raise c s).step = s.step := rfl
@[simp] theorem raise_act (c : Cause) (s : State) : (raise c s).act = s.act := rfl
@[simp] theorem raise_op (c : Cause) (s : State) : (raise c s).op = s.op := rfl
@[simp] theorem raise_blk (c : Cause) (s : State) : (raise c s).blk = s.blk := rfl
@[simp] theorem raise_a (c : Cause) (s : State) : (raise c s).a = s.a := rfl
@[simp] theorem raise_b (c : Cause) (s : State) : (raise c s).b = s.b := rfl
@[simp] theorem raise_fsm (c : Cause) (s : State) : (raise c s).fsm = s.fsm := rfl
@[simp] theorem raise_cfg (c : Cause) (s : State) : (raise c s).cfg = s.cfg := rfl
@[simp] theorem raise_panelCfg (c : Cause) (s : State) : (raise c s).panelCfg = s.panelCfg := rfl
@[simp] theorem raise_cfgData (c : Cause) (s : State) : (raise c s).cfgData = s.cfgData := rfl
@[simp] theorem raise_cfgClk (c : Cause) (s : State) : (raise c s).cfgClk = s.cfgClk := rfl
@[simp] theorem raise_cfgStr (c : Cause) (s : State) : (raise c s).cfgStr = s.cfgStr := rfl
@[simp] theorem raise_tch (c : Cause) (s : State) : (raise c s).tch = s.tch := rfl
@[simp] theorem raise_tchGen (c : Cause) (s : State) : (raise c s).tchGen = s.tchGen := rfl
@[simp] theorem raise_pulseG (c : Cause) (s : State) : (raise c s).pulseG = s.pulseG := rfl
@[simp] theorem raise_tr (c : Cause) (s : State) : (raise c s).tr = s.tr := rfl
@[simp] theorem raise_tbuf (c : Cause) (s : State) : (raise c s).tbuf = s.tbuf := rfl
@[simp] theorem raise_rsrc (c : Cause) (s : State) : (raise c s).rsrc = s.rsrc := rfl
@[simp] theorem raise_initFail (c : Cause) (s : State) : (raise c s).initFail = s.initFail := rfl
@[simp] theorem raise_acqs (c : Cause) (s : State) : (raise c s).acqs = s.acqs := rfl
@[simp] theorem raise_filled (c : Cause) (s : State) : (raise c s).filled = s.filled := rfl

/-! ### returnOk -/

@[simp] theorem returnOk_params (s : State) : (returnOk s).params = s.params := rfl
@[simp] theorem returnOk_step (s : State) : (returnOk s).step = s.step := rfl
@[simp] theorem returnOk_act (s : State) : (returnOk s).act = s.act := rfl
@[simp] theorem returnOk_op (s : State) : (returnOk s).op = s.op := rfl
@[simp] theorem returnOk_blk (s : State) : (returnOk s).blk = s.blk := rfl
@[simp] theorem returnOk_a (s : State) : (returnOk s).a = s.a := rfl
@[simp] theorem returnOk_b (s : State) : (returnOk s).b = s.b := rfl
@[simp] theorem returnOk_fsm (s : State) : (returnOk s).fsm = s.fsm := rfl
@[simp] theorem returnOk_cfg (s : State) : (returnOk s).cfg = s.cfg := rfl
@[simp] theorem returnOk_panelCfg (s : State) : (returnOk s).panelCfg = s.panelCfg := rfl
@[simp] theorem returnOk_cfgData (s : State) : (returnOk s).cfgData = s.cfgData := rfl
@[simp] theorem returnOk_cfgClk (s : State) : (returnOk s).cfgClk = s.cfgClk := rfl
@[simp] theorem returnOk_cfgStr (s : State) : (returnOk s).cfgStr = s.cfgStr := rfl
@[simp] theorem returnOk_tch (s : State) : (returnOk s).tch = s.tch := rfl
@[simp] theorem returnOk_tchGen (s : State) : (returnOk s).tchGen = s.tchGen := rfl
@[simp] theorem returnOk_pulseG (s : State) : (returnOk s).pulseG = s.pulseG := rfl
@[simp] theorem returnOk_tr (s : State) : (returnOk s).tr = s.tr := rfl
@[simp] theorem returnOk_tbuf (s : State) : (returnOk s).tbuf = s.tbuf := rfl
@[simp] theorem returnOk_rsrc (s : State) : (returnOk s).rsrc = s.rsrc := rfl
@[simp] theorem returnOk_initFail (s : State) : (returnOk s).initFail = s.initFail := rfl
@[simp] theorem returnOk_acqs (s : State) : (returnOk s).acqs = s.acqs := rfl
@[simp] theorem returnOk_filled (s : State) : (returnOk s).filled = s.filled := rfl

/-! ### setField -/

@[simp] theorem setField_params (f : CfgField) (b : Bool) (s : State) : (setField f b s).params = s.params := rfl
@[simp] theorem setField_busy (f : CfgField) (b : Bool) (s : State) : (setField f b s).busy = s.busy := rfl
@[simp] theorem setField_step (f : CfgField) (b : Bool) (s : State) : (setField f b s).step = s.step := rfl
@[simp] theorem setField_act (f : CfgField) (b : Bool) (s : State) : (setField f b s).act = s.act := rfl
@[simp] theorem setField_op (f : CfgField) (b : Bool) (s : State) : (setField f b s).op = s.op := rfl
@[simp] theorem setField_blk (f : CfgField) (b : Bool) (s : State) : (setField f b s).blk = s.blk := rfl
@[simp] theorem setField_a (f : CfgField) (b : Bool) (s : State) : (setField f b s).a = s.a := rfl
@[simp] theorem setField_b (f : CfgField) (b : Bool) (s : State) : (setField f b s).b = s.b := rfl
@[simp] theorem setField_fsm (f : CfgField) (b : Bool) (s : State) : (setField f b s).fsm = s.fsm := rfl
@[simp] theorem setField_panelCfg (f : CfgField) (b : Bool) (s : State) : (setField f b s).panelCfg = s.panelCfg := rfl
@[simp] theorem setField_cfgData (f : CfgField) (b : Bool) (s : State) : (setField f b s).cfgData = s.cfgData := rfl
@[simp] theorem setField_cfgClk (f : CfgField) (b : Bool) (s : State) : (setField f b s).cfgClk = s.cfgClk := rfl
@[simp] theorem setField_cfgStr (f : CfgField) (b : Bool) (s : State) : (setField f b s).cfgStr = s.cfgStr := rfl
@[simp] theorem setField_tpOut (f : CfgField) (b : Bool) (s : State) : (setField f b s).tpOut = s.tpOut := rfl
@[simp] theorem setField_tch (f : CfgField) (b : Bool) (s : State) : (setField f b s).tch = s.tch := rfl
@[simp] theorem setField_tchGen (f : CfgField) (b : Bool) (s : State) : (setField f b s).tchGen = s.tchGen := rfl
@[simp] theorem setField_pulseG (f : CfgField) (b : Bool) (s : State) : (setField f b s).pulseG = s.pulseG := rfl
@[simp] theorem setField_pq (f : CfgField) (b : Bool) (s : State) : (setField f b s).pq = s.pq := rfl
@[simp] theorem setField_tpr (f : CfgField) (b : Bool) (s : State) : (setField f b s).tpr = s.tpr := rfl
@[simp] theorem setField_tr (f : CfgField) (b : Bool) (s : State) : (setField f b s).tr = s.tr := rfl
@[simp] theorem setField_tbuf (f : CfgField) (b : Bool) (s : State) : (setField f b s).tbuf = s.tbuf := rfl
@[simp] theorem setField_xf (f : CfgField) (b : Bool) (s : State) : (setField f b s).xf = s.xf := rfl
@[simp] theorem setField_rsrc (f : CfgField) (b : Bool) (s : State) : (setField f b s).rsrc = s.rsrc := rfl
@[simp] theorem setField_bus (f : CfgField) (b : Bool) (s : State) : (setField f b s).bus = s.bus := rfl
@[simp] theorem setField_cyc (f : CfgField) (b : Bool) (s : State) : (setField f b s).cyc = s.cyc := rfl
@[simp] theorem setField_result (f : CfgField) (b : Bool) (s : State) : (setField f b s).result = s.result := rfl
@[simp] theorem setField_initFail (f : CfgField) (b : Bool) (s : State) : (setField f b s).initFail = s.initFail := rfl
@[simp] theorem setField_trace (f : CfgField) (b : Bool) (s : State) : (setField f b s).trace = s.trace := rfl
@[simp] theorem setField_hostq (f : CfgField) (b : Bool) (s : State) : (setField f b s).hostq = s.hostq := rfl
@[simp] theorem setField_reads (f : CfgField) (b : Bool) (s : State) : (setField f b s).reads = s.reads := rfl
@[simp] theorem setField_bursts (f : CfgField) (b : Bool) (s : State) : (setField f b s).bursts = s.bursts := rfl
@[simp] theorem setField_acqs (f : CfgField) (b : Bool) (s : State) : (setField f b s).acqs = s.acqs := rfl
@[simp] theorem setField_drawn (f : CfgField) (b : Bool) (s : State) : (setField f b s).drawn = s.drawn := rfl
@[simp] theorem setField_filled (f : CfgField) (b : Bool) (s : State) : (setField f b s).filled = s.filled := rfl

/-! ### seqEmits -/

@[simp] theorem seqEmits_params (es : List Event) (s : State) : (seqEmits es s).params = s.params := by
  induction es generalizing s with
  | nil => rfl
  | cons e es ih => simp [seqEmits, ih]
@[simp] theorem seqEmits_busy (es : List Event) (s : State) : (seqEmits es s).busy = s.busy := by
  induction es generalizing s with
  | nil => rfl
  | cons e es ih => simp [seqEmits, ih]
@[simp] theorem seqEmits_step (es : List Event) (s : State) : (seqEmits es s).step = s.step := by
  induction es generalizing s with
  | nil => rfl
  | cons e es ih => simp [seqEmits, ih]
@[simp] theorem seqEmits_act (es : List Event) (s : State) : (seqEmits es s).act = s.act := by
  induction es generalizing s with
  | nil => rfl
  | cons e es ih => simp [seqEmits, ih]
@[simp] theorem seqEmits_op (es : List Event) (s : State) : (seqEmits es s).op = s.op := by
  induction es generalizing s with
  | nil => rfl
  | cons e es ih => simp [seqEmits, ih]
@[simp] theorem seqEmits_blk (es : List Event) (s : State) : (seqEmits es s).blk = s.blk := by
  induction es generalizing s with
  | nil => rfl
  | cons e es ih => simp [seqEmits, ih]
@[simp] theorem seqEmits_a (es : List Event) (s : State) : (seqEmits es s).a = s.a := by
  induction es generalizing s with
  | nil => rfl
  | cons e es ih => simp [seqEmits, ih]
@[simp] theorem seqEmits_b (es : List Event) (s : State) : (seqEmits es s).b = s.b := by
  induction es generalizing s with
  | nil => rfl
  | cons e es ih => simp [seqEmits, ih]
@[simp] theorem seqEmits_fsm (es : List Event) (s : State) : (seqEmits es s).fsm = s.fsm := by
  induction es generalizing s with
  | nil => rfl
  | cons e es ih => simp [seqEmits, ih]
@[simp] theorem seqEmits_cfg (es : List Event) (s : State) : (seqEmits es s).cfg = s.cfg := by
  induction es generalizing s with
  | nil => rfl
  | cons e es ih => simp [seqEmits, ih]
@[simp] theorem seqEmits_panelCfg (es : List Event) (s : State) : (seqEmits es s).panelCfg = s.panelCfg := by
  induction es generalizing s with
  | nil => rfl
  | cons e es ih => simp [seqEmits, ih]
@[simp] theorem seqEmits_cfgData (es : List Event) (s : State) : (seqEmits es s).cfgData = s.cfgData := by
  induction es generalizing s with
  | nil => rfl
  | cons e es ih => simp [seqEmits, ih]
@[simp] theorem seqEmits_cfgClk (es : List Event) (s : State) : (seqEmits es s).cfgClk = s.cfgClk := by
  induction es generalizing s with
  | nil => rfl
  | cons e es ih => simp [seqEmits, ih]
@[simp] theorem seqEmits_cfgStr (es : List Event) (s : State) : (seqEmits es s).cfgStr = s.cfgStr := by
  induction es generalizing s with
  | nil => rfl
  | cons e es ih => simp [seqEmits, ih]
@[simp] theorem seqEmits_tch (es : List Event) (s : State) : (seqEmits es s).tch = s.tch := by
  induction es generalizing s with
  | nil => rfl
  | cons e es ih => simp [seqEmits, ih]
@[simp] theorem seqEmits_tchGen (es : List Event) (s : State) : (seqEmits es s).tchGen = s.tchGen := by
  induction es generalizing s with
  | nil => rfl
  | cons e es ih => simp [seqEmits, ih]
@[simp] theorem seqEmits_pulseG (es : List Event) (s : State) : (seqEmits es s).pulseG = s.pulseG := by
  induction es generalizing s with
  | nil => rfl
  | cons e es ih => simp [seqEmits, ih]
@[simp] theorem seqEmits_tr (es : List Event) (s : State) : (seqEmits es s).tr = s.tr := by
  induction es generalizing s with
  | nil => rfl
  | cons e es ih => simp [seqEmits, ih]
@[simp] theorem seqEmits_tbuf (es : List Event) (s : State) : (seqEmits es s).tbuf = s.tbuf := by
  induction es generalizing s with
  | nil => rfl
  | cons e es ih => simp [seqEmits, ih]
@[simp] theorem seqEmits_rsrc (es : List Event) (s : State) : (seqEmits es s).rsrc = s.rsrc := by
  induction es generalizing s with
  | nil => rfl
  | cons e es ih => simp [seqEmits, ih]
@[simp] theorem seqEmits_result (es : List Event) (s : State) : (seqEmits es s).result = s.result := by
  induction es generalizing s with
  | nil => rfl
  | cons e es ih => simp [seqEmits, ih]
@[simp] theorem seqEmits_initFail (es : List Event) (s : State) : (seqEmits es s).initFail = s.initFail := by
  induction es generalizing s with
  | nil => rfl
  | cons e es ih => simp [seqEmits, ih]
@[simp] theorem seqEmits_acqs (es : List Event) (s : State) : (seqEmits es s).acqs = s.acqs := by
  induction es generalizing s with
  | nil => rfl
  | cons e es ih => simp [seqEmits, ih]
@[simp] theorem seqEmits_filled (es : List Event) (s : State) : (seqEmits es s).filled = s.filled := by
  induction es generalizing s with
  | nil => rfl
  | cons e es ih => simp [seqEmits, ih]

/-! ### withoutHost -/

@[simp] theorem withoutHost_params (f : State → State) (s : State) : (withoutHost f s).params = (f { s with hostq := [] }).params := rfl
@[simp] theorem withoutHost_busy (f : State → State) (s : State) : (withoutHost f s).busy = (f { s with hostq := [] }).busy := rfl
@[simp] theorem withoutHost_step (f : State → State) (s : State) : (withoutHost f s).step = (f { s with hostq := [] }).step := rfl
@[simp] theorem withoutHost_act (f : State → State) (s : State) : (withoutHost f s).act = (f { s with hostq := [] }).act := rfl
@[simp] theorem withoutHost_op (f : State → State) (s : State) : (withoutHost f s).op = (f { s with hostq := [] }).op := rfl
@[simp] theorem withoutHost_blk (f : State → State) (s : State) : (withoutHost f s).blk = (f { s with hostq := [] }).blk := rfl
@[simp] theorem withoutHost_a (f : State → State) (s : State) : (withoutHost f s).a = (f { s with hostq := [] }).a := rfl
@[simp] theorem withoutHost_b (f : State → State) (s : State) : (withoutHost f s).b = (f { s with hostq := [] }).b := rfl
@[simp] theorem withoutHost_fsm (f : State → State) (s : State) : (withoutHost f s).fsm = (f { s with hostq := [] }).fsm := rfl
@[simp] theorem withoutHost_cfg (f : State → State) (s : State) : (withoutHost f s).cfg = (f { s with hostq := [] }).cfg := rfl
@[simp] theorem withoutHost_panelCfg (f : State → State) (s : State) : (withoutHost f s).panelCfg = (f { s with hostq := [] }).panelCfg := rfl
@[simp] theorem withoutHost_cfgData (f : State → State) (s : State) : (withoutHost f s).cfgData = (f { s with hostq := [] }).cfgData := rfl
@[simp] theorem withoutHost_cfgClk (f : State → State) (s : State) : (withoutHost f s).cfgClk = (f { s with hostq := [] }).cfgClk := rfl
@[simp] theorem withoutHost_cfgStr (f : State → State) (s : State) : (withoutHost f s).cfgStr = (f { s with hostq := [] }).cfgStr := rfl
@[simp] theorem withoutHost_tpOut (f : State → State) (s : State) : (withoutHost f s).tpOut = (f { s with hostq := [] }).tpOut := rfl
@[simp] theorem withoutHost_tch (f : State → State) (s : State) : (withoutHost f s).tch = (f { s with hostq := [] }).tch := rfl
@[simp] theorem withoutHost_tchGen (f : State → State) (s : State) : (withoutHost f s).tchGen = (f { s with hostq := [] }).tchGen := rfl
@[simp] theorem withoutHost_pulseG (f : State → State) (s : State) : (withoutHost f s).pulseG = (f { s with hostq := [] }).pulseG := rfl
@[simp] theorem withoutHost_pq (f : State → State) (s : State) : (withoutHost f s).pq = (f { s with hostq := [] }).pq := rfl
@[simp] theorem withoutHost_tpr (f : State → State) (s : State) : (withoutHost f s).tpr = (f { s with hostq := [] }).tpr := rfl
@[simp] theorem withoutHost_tr (f : State → State) (s : State) : (withoutHost f s).tr = (f { s with hostq := [] }).tr := rfl
@[simp] theorem withoutHost_tbuf (f : State → State) (s : State) : (withoutHost f s).tbuf = (f { s with hostq := [] }).tbuf := rfl
@[simp] theorem withoutHost_xf (f : State → State) (s : State) : (withoutHost f s).xf = (f { s with hostq := [] }).xf := rfl
@[simp] theorem withoutHost_rsrc (f : State → State) (s : State) : (withoutHost f s).rsrc = (f { s with hostq := [] }).rsrc := rfl
@[simp] theorem withoutHost_bus (f : State → State) (s : State) : (withoutHost f s).bus = (f { s with hostq := [] }).bus := rfl
@[simp] theorem withoutHost_cyc (f : State → State) (s : State) : (withoutHost f s).cyc = (f { s with hostq := [] }).cyc := rfl
@[simp] theorem withoutHost_result (f : State → State) (s : State) : (withoutHost f s).result = (f { s with hostq := [] }).result := rfl
@[simp] theorem withoutHost_initFail (f : State → State) (s : State) : (withoutHost f s).initFail = (f { s with hostq := [] }).initFail := rfl
@[simp] theorem withoutHost_trace (f : State → State) (s : State) : (withoutHost f s).trace = (f { s with hostq := [] }).trace := rfl
@[simp] theorem withoutHost_reads (f : State → State) (s : State) : (withoutHost f s).reads = (f { s with hostq := [] }).reads := rfl
@[simp] theorem withoutHost_bursts (f : State → State) (s : State) : (withoutHost f s).bursts = (f { s with hostq := [] }).bursts := rfl
@[simp] theorem withoutHost_acqs (f : State → State) (s : State) : (withoutHost f s).acqs = (f { s with hostq := [] }).acqs := rfl
@[simp] theorem withoutHost_drawn (f : State → State) (s : State) : (withoutHost f s).drawn = (f { s with hostq := [] }).drawn := rfl
@[simp] theorem withoutHost_filled (f : State → State) (s : State) : (withoutHost f s).filled = (f { s with hostq := [] }).filled := rfl
@[simp] theorem withoutHost_hostq (f : State → State) (s : State) : (withoutHost f s).hostq = s.hostq := rfl

/-! ### pinWrite -/

@[simp] theorem pinWrite_params (p : Pin) (l : Level) (s : State) : (pinWrite p l s).params = s.params := by cases p <;> rfl
@[simp] theorem pinWrite_busy (p : Pin) (l : Level) (s : State) : (pinWrite p l s).busy = s.busy := by cases p <;> rfl
@[simp] theorem pinWrite_step (p : Pin) (l : Level) (s : State) : (pinWrite p l s).step = s.step := by cases p <;> rfl
@[simp] theorem pinWrite_act (p : Pin) (l : Level) (s : State) : (pinWrite p l s).act = s.act := by cases p <;> rfl
@[simp] theorem pinWrite_op (p : Pin) (l : Level) (s : State) : (pinWrite p l s).op = s.op := by cases p <;> rfl
@[simp] theorem pinWrite_blk (p : Pin) (l : Level) (s : State) : (pinWrite p l s).blk = s.blk := by cases p <;> rfl
@[simp] theorem pinWrite_a (p : Pin) (l : Level) (s : State) : (pinWrite p l s).a = s.a := by cases p <;> rfl
@[simp] theorem pinWrite_b (p : Pin) (l : Level) (s : State) : (pinWrite p l s).b = s.b := by cases p <;> rfl
@[simp] theorem pinWrite_fsm (p : Pin) (l : Level) (s : State) : (pinWrite p l s).fsm = s.fsm := by cases p <;> rfl
@[simp] theorem pinWrite_cfg (p : Pin) (l : Level) (s : State) : (pinWrite p l s).cfg = s.cfg := by cases p <;> rfl
@[simp] theorem pinWrite_panelCfg (p : Pin) (l : Level) (s : State) : (pinWrite p l s).panelCfg = s.panelCfg := by cases p <;> rfl
@[simp] theorem pinWrite_tpOut (p : Pin) (l : Level) (s : State) : (pinWrite p l s).tpOut = s.tpOut := by cases p <;> rfl
@[simp] theorem pinWrite_tch (p : Pin) (l : Level) (s : State) : (pinWrite p l s).tch = s.tch := by cases p <;> rfl
@[simp] theorem pinWrite_tchGen (p : Pin) (l : Level) (s : State) : (pinWrite p l s).tchGen = s.tchGen := by cases p <;> rfl
@[simp] theorem pinWrite_pulseG (p : Pin) (l : Level) (s : State) : (pinWrite p l s).pulseG = s.pulseG := by cases p <;> rfl
@[simp] theorem pinWrite_pq (p : Pin) (l : Level) (s : State) : (pinWrite p l s).pq = s.pq := by cases p <;> rfl
@[simp] theorem pinWrite_tpr (p : Pin) (l : Level) (s : State) : (pinWrite p l s).tpr = s.tpr := by cases p <;> rfl
@[simp] theorem pinWrite_tr (p : Pin) (l : Level) (s : State) : (pinWrite p l s).tr = s.tr := by cases p <;> rfl
@[simp] theorem pinWrite_tbuf (p : Pin) (l : Level) (s : State) : (pinWrite p l s).tbuf = s.tbuf := by cases p <;> rfl
@[simp] theorem pinWrite_xf (p : Pin) (l : Level) (s : State) : (pinWrite p l s).xf = s.xf := by cases p <;> rfl
@[simp] theorem pinWrite_rsrc (p : Pin) (l : Level) (s : State) : (pinWrite p l s).rsrc = s.rsrc := by cases p <;> rfl
@[simp] theorem pinWrite_bus (p : Pin) (l : Level) (s : State) : (pinWrite p l s).bus = s.bus := by cases p <;> rfl
@[simp] theorem pinWrite_cyc (p : Pin) (l : Level) (s : State) : (pinWrite p l s).cyc = s.cyc := by cases p <;> rfl
@[simp] theorem pinWrite_result (p : Pin) (l : Level) (s : State) : (pinWrite p l s).result = s.result := by cases p <;> rfl
@[simp] theorem pinWrite_initFail (p : Pin) (l : Level) (s : State) : (pinWrite p l s).initFail = s.initFail := by cases p <;> rfl
@[simp] theorem pinWrite_trace (p : Pin) (l : Level) (s : State) : (pinWrite p l s).trace = s.trace := by cases p <;> rfl
@[simp] theorem pinWrite_hostq (p : Pin) (l : Level) (s : State) : (pinWrite p l s).hostq = s.hostq := by cases p <;> rfl
@[simp] theorem pinWrite_reads (p : Pin) (l : Level) (s : State) : (pinWrite p l s).reads = s.reads := by cases p <;> rfl
@[simp] theorem pinWrite_bursts (p : Pin) (l : Level) (s : State) : (pinWrite p l s).bursts = s.bursts := by cases p <;> rfl
@[simp] theorem pinWrite_acqs (p : Pin) (l : Level) (s : State) : (pinWrite p l s).acqs = s.acqs := by cases p <;> rfl
@[simp] theorem pinWrite_drawn (p : Pin) (l : Level) (s : State) : (pinWrite p l s).drawn = s.drawn := by cases p <;> rfl
@[simp] theorem pinWrite_filled (p : Pin) (l : Level) (s : State) : (pinWrite p l s).filled = s.filled := by cases p <;> rfl

/-! ### pinWrites -/

@[simp] theorem pinWrites_params (ws : List (Pin × Level)) (s : State) : (pinWrites ws s).params = s.params := by
  induction ws generalizing s with
  | nil => rfl
  | cons w ws ih => simp [pinWrites, ih]
@[simp] theorem pinWrites_busy (ws : List (Pin × Level)) (s : State) : (pinWrites ws s).busy = s.busy := by
  induction ws generalizing s with
  | nil => rfl
  | cons w ws ih => simp [pinWrites, ih]
@[simp] theorem pinWrites_step (ws : List (Pin × Level)) (s : State) : (pinWrites ws s).step = s.step := by
  induction ws generalizing s with
  | nil => rfl
  | cons w ws ih => simp [pinWrites, ih]
@[simp] theorem pinWrites_act (ws : List (Pin × Level)) (s : State) : (pinWrites ws s).act = s.act := by
  induction ws generalizing s with
  | nil => rfl
  | cons w ws ih => simp [pinWrites, ih]
@[simp] theorem pinWrites_op (ws : List (Pin × Level)) (s : State) : (pinWrites ws s).op = s.op := by
  induction ws generalizing s with
  | nil => rfl
  | cons w ws ih => simp [pinWrites, ih]
@[simp] theorem pinWrites_blk (ws : List (Pin × Level)) (s : State) : (pinWrites ws s).blk = s.blk := by
  induction ws generalizing s with
  | nil => rfl
  | cons w ws ih => simp [pinWrites, ih]
@[simp] theorem pinWrites_a (ws : List (Pin × Level)) (s : State) : (pinWrites ws s).a = s.a := by
  induction ws generalizing s with
  | nil => rfl
  | cons w ws ih => simp [pinWrites, ih]
@[simp] theorem pinWrites_b (ws : List (Pin × Level)) (s : State) : (pinWrites ws s).b = s.b := by
  induction ws generalizing s with
  | nil => rfl
  | cons w ws ih => simp [pinWrites, ih]
@[simp] theorem pinWrites_fsm (ws : List (Pin × Level)) (s : State) : (pinWrites ws s).fsm = s.fsm := by
  induction ws generalizing s with
  | nil => rfl
  | cons w ws ih => simp [pinWrites, ih]
@[simp] theorem pinWrites_cfg (ws : List (Pin × Level)) (s : State) : (pinWrites ws s).cfg = s.cfg := by
  induction ws generalizing s with
  | nil => rfl
  | cons w ws ih => simp [pinWrites, ih]
@[simp] theorem pinWrites_panelCfg (ws : List (Pin × Level)) (s : State) : (pinWrites ws s).panelCfg = s.panelCfg := by
  induction ws generalizing s with
  | nil => rfl
  | cons w ws ih => simp [pinWrites, ih]
@[simp] theorem pinWrites_tpOut (ws : List (Pin × Level)) (s : State) : (pinWrites ws s).tpOut = s.tpOut := by
  induction ws generalizing s with
  | nil => rfl
  | cons w ws ih => simp [pinWrites, ih]
@[simp] theorem pinWrites_tch (ws : List (Pin × Level)) (s : State) : (pinWrites ws s).tch = s.tch := by
  induction ws generalizing s with
  | nil => rfl
  | cons w ws ih => simp [pinWrites, ih]
@[simp] theorem pinWrites_tchGen (ws : List (Pin × Level)) (s : State) : (pinWrites ws s).tchGen = s.tchGen := by
  induction ws generalizing s with
  | nil => rfl
  | cons w ws ih => simp [pinWrites, ih]
@[simp] theorem pinWrites_pulseG (ws : List (Pin × Level)) (s : State) : (pinWrites ws s).pulseG = s.pulseG := by
  induction ws generalizing s with
  | nil => rfl
  | cons w ws ih => simp [pinWrites, ih]
@[simp] theorem pinWrites_pq (ws : List (Pin × Level)) (s : State) : (pinWrites ws s).pq = s.pq := by
  induction ws generalizing s with
  | nil => rfl
  | cons w ws ih => simp [pinWrites, ih]
@[simp] theorem pinWrites_tpr (ws : List (Pin × Level)) (s : State) : (pinWrites ws s).tpr = s.tpr := by
  induction ws generalizing s with
  | nil => rfl
  | cons w ws ih => simp [pinWrites, ih]
@[simp] theorem pinWrites_tr (ws : List (Pin × Level)) (s : State) : (pinWrites ws s).tr = s.tr := by
  induction ws generalizing s with
  | nil => rfl
  | cons w ws ih => simp [pinWrites, ih]
@[simp] theorem pinWrites_tbuf (ws : List (Pin × Level)) (s : State) : (pinWrites ws s).tbuf = s.tbuf := by
  induction ws generalizing s with
  | nil => rfl
  | cons w ws ih => simp [pinWrites, ih]
@[simp] theorem pinWrites_xf (ws : List (Pin × Level)) (s : State) : (pinWrites ws s).xf = s.xf := by
  induction ws generalizing s with
  | nil => rfl
  | cons w ws ih => simp [pinWrites, ih]
@[simp] theorem pinWrites_rsrc (ws : List (Pin × Level)) (s : State) : (pinWrites ws s).rsrc = s.rsrc := by
  induction ws generalizing s with
  | nil => rfl
  | cons w ws ih => simp [pinWrites, ih]
@[simp] theorem pinWrites_bus (ws : List (Pin × Level)) (s : State) : (pinWrites ws s).bus = s.bus := by
  induction ws generalizing s with
  | nil => rfl
  | cons w ws ih => simp [pinWrites, ih]
@[simp] theorem pinWrites_cyc (ws : List (Pin × Level)) (s : State) : (pinWrites ws s).cyc = s.cyc := by
  induction ws generalizing s with
  | nil => rfl
  | cons w ws ih => simp [pinWrites, ih]
@[simp] theorem pinWrites_result (ws : List (Pin × Level)) (s : State) : (pinWrites ws s).result = s.result := by
  induction ws generalizing s with
  | nil => rfl
  | cons w ws ih => simp [pinWrites, ih]
@[simp] theorem pinWrites_initFail (ws : List (Pin × Level)) (s : State) : (pinWrites ws s).initFail = s.initFail := by
  induction ws generalizing s with
  | nil => rfl
  | cons w ws ih => simp [pinWrites, ih]
@[simp] theorem pinWrites_trace (ws : List (Pin × Level)) (s : State) : (pinWrites ws s).trace = s.trace := by
  induction ws generalizing s with
  | nil => rfl
  | cons w ws ih => simp [pinWrites, ih]
@[simp] theorem pinWrites_hostq (ws : List (Pin × Level)) (s : State) : (pinWrites ws s).hostq = s.hostq := by
  induction ws generalizing s with
  | nil => rfl
  | cons w ws ih => simp [pinWrites, ih]
@[simp] theorem pinWrites_reads (ws : List (Pin × Level)) (s : State) : (pinWrites ws s).reads = s.reads := by
  induction ws generalizing s with
  | nil => rfl
  | cons w ws ih => simp [pinWrites, ih]
@[simp] theorem pinWrites_bursts (ws : List (Pin × Level)) (s : State) : (pinWrites ws s).bursts = s.bursts := by
  induction ws generalizing s with
  | nil => rfl
  | cons w ws ih => simp [pinWrites, ih]
@[simp] theorem pinWrites_acqs (ws : List (Pin × Level)) (s : State) : (pinWrites ws s).acqs = s.acqs := by
  induction ws generalizing s with
  | nil => rfl
  | cons w ws ih => simp [pinWrites, ih]
@[simp] theorem pinWrites_drawn (ws : List (Pin × Level)) (s : State) : (pinWrites ws s).drawn = s.drawn := by
  induction ws generalizing s with
  | nil => rfl
  | cons w ws ih => simp [pinWrites, ih]
@[simp] theorem pinWrites_filled (ws : List (Pin × Level)) (s : State) : (pinWrites ws s).filled = s.filled := by
  induction ws generalizing s with
  | nil => rfl
  | cons w ws ih => simp [pinWrites, ih]

/-! ### driveCommit -/

@[simp] theorem driveCommit_params (s : State) : (driveCommit s).params = s.params := by simp [driveCommit]
@[simp] theorem driveCommit_busy (s : State) : (driveCommit s).busy = s.busy := by simp [driveCommit]
@[simp] theorem driveCommit_step (s : State) : (driveCommit s).step = s.step := by simp [driveCommit]
@[simp] theorem driveCommit_act (s : State) : (driveCommit s).act = s.act := by simp [driveCommit]
@[simp] theorem driveCommit_op (s : State) : (driveCommit s).op = s.op := by simp [driveCommit]
@[simp] theorem driveCommit_blk (s : State) : (driveCommit s).blk = s.blk := by simp [driveCommit]
@[simp] theorem driveCommit_a (s : State) : (driveCommit s).a = s.a := by simp [driveCommit]
@[simp] theorem driveCommit_b (s : State) : (driveCommit s).b = s.b := by simp [driveCommit]
@[simp] theorem driveCommit_fsm (s : State) : (driveCommit s).fsm = s.fsm := by simp [driveCommit]
@[simp] theorem driveCommit_cfg (s : State) : (driveCommit s).cfg = s.cfg := by simp [driveCommit]
@[simp] theorem driveCommit_tpOut (s : State) : (driveCommit s).tpOut = s.tpOut := by simp [driveCommit]
@[simp] theorem driveCommit_tch (s : State) : (driveCommit s).tch = s.tch := by simp [driveCommit]
@[simp] theorem driveCommit_tchGen (s : State) : (driveCommit s).tchGen = s.tchGen := by simp [driveCommit]
@[simp] theorem driveCommit_pulseG (s : State) : (driveCommit s).pulseG = s.pulseG := by simp [driveCommit]
@[simp] theorem driveCommit_pq (s : State) : (driveCommit s).pq = s.pq := by simp [driveCommit]
@[simp] theorem driveCommit_tpr (s : State) : (driveCommit s).tpr = s.tpr := by simp [driveCommit]
@[simp] theorem driveCommit_tr (s : State) : (driveCommit s).tr = s.tr := by simp [driveCommit]
@[simp] theorem driveCommit_tbuf (s : State) : (driveCommit s).tbuf = s.tbuf := by simp [driveCommit]
@[simp] theorem driveCommit_xf (s : State) : (driveCommit s).xf = s.xf := by simp [driveCommit]
@[simp] theorem driveCommit_rsrc (s : State) : (driveCommit s).rsrc = s.rsrc := by simp [driveCommit]
@[simp] theorem driveCommit_bus (s : State) : (driveCommit s).bus = s.bus := by simp [driveCommit]
@[simp] theorem driveCommit_cyc (s : State) : (driveCommit s).cyc = s.cyc := by simp [driveCommit]
@[simp] theorem driveCommit_result (s : State) : (driveCommit s).result = s.result := by simp [driveCommit]
@[simp] theorem driveCommit_initFail (s : State) : (driveCommit s).initFail = s.initFail := by simp [driveCommit]
@[simp] theorem driveCommit_trace (s : State) : (driveCommit s).trace = s.trace := by simp [driveCommit]
@[simp] theorem driveCommit_hostq (s : State) : (driveCommit s).hostq = s.hostq := by simp [driveCommit]
@[simp] theorem driveCommit_reads (s : State) : (driveCommit s).reads = s.reads := by simp [driveCommit]
@[simp] theorem driveCommit_bursts (s : State) : (driveCommit s).bursts = s.bursts := by simp [driveCommit]
@[simp] theorem driveCommit_acqs (s : State) : (driveCommit s).acqs = s.acqs := by simp [driveCommit]
@[simp] theorem driveCommit_drawn (s : State) : (driveCommit s).drawn = s.drawn := by simp [driveCommit]
@[simp] theorem driveCommit_filled (s : State) : (driveCommit s).filled = s.filled := by simp [driveCommit]

/-! ### commit -/

@[simp] theorem commit_params (s : State) : (commit s).params = s.params := by simp [commit]
@[simp] theorem commit_busy (s : State) : (commit s).busy = s.busy := by simp [commit]
@[simp] theorem commit_step (s : State) : (commit s).step = s.step := by simp [commit]
@[simp] theorem commit_act (s : State) : (commit s).act = s.act := by simp [commit]
@[simp] theorem commit_op (s : State) : (commit s).op = s.op := by simp [commit]
@[simp] theorem commit_blk (s : State) : (commit s).blk = s.blk := by simp [commit]
@[simp] theorem commit_a (s : State) : (commit s).a = s.a := by simp [commit]
@[simp] theorem commit_b (s : State) : (commit s).b = s.b := by simp [commit]
@[simp] theorem commit_fsm (s : State) : (commit s).fsm = s.fsm := by simp [commit]
@[simp] theorem commit_cfg (s : State) : (commit s).cfg = s.cfg := by simp [commit]
@[simp] theorem commit_tch (s : State) : (commit s).tch = s.tch := by simp [commit]
@[simp] theorem commit_tchGen (s : State) : (commit s).tchGen = s.tchGen := by simp [commit]
@[simp] theorem commit_pulseG (s : State) : (commit s).pulseG = s.pulseG := by simp [commit]
@[simp] theorem commit_tr (s : State) : (commit s).tr = s.tr := by simp [commit]
@[simp] theorem commit_tbuf (s : State) : (commit s).tbuf = s.tbuf := by simp [commit]
@[simp] theorem commit_rsrc (s : State) : (commit s).rsrc = s.rsrc := by simp [commit]
@[simp] theorem commit_result (s : State) : (commit s).result = s.result := by simp [commit]
@[simp] theorem commit_initFail (s : State) : (commit s).initFail = s.initFail := by simp [commit]
@[simp] theorem commit_hostq (s : State) : (commit s).hostq = s.hostq := by simp [commit]
@[simp] theorem commit_acqs (s : State) : (commit s).acqs = s.acqs := by simp [commit]
@[simp] theorem commit_filled (s : State) : (commit s).filled = s.filled := by simp [commit]

/-! ### beforeAccess -/

@[simp] theorem beforeAccess_params (s : State) : (beforeAccess s).params = s.params := rfl
@[simp] theorem beforeAccess_busy (s : State) : (beforeAccess s).busy = s.busy := rfl
@[simp] theorem beforeAccess_step (s : State) : (beforeAccess s).step = s.step := rfl
@[simp] theorem beforeAccess_act (s : State) : (beforeAccess s).act = s.act := rfl
@[simp] theorem beforeAccess_op (s : State) : (beforeAccess s).op = s.op := rfl
@[simp] theorem beforeAccess_blk (s : State) : (beforeAccess s).blk = s.blk := rfl
@[simp] theorem beforeAccess_a (s : State) : (beforeAccess s).a = s.a := rfl
@[simp] theorem beforeAccess_b (s : State) : (beforeAccess s).b = s.b := rfl
@[simp] theorem beforeAccess_fsm (s : State) : (beforeAccess s).fsm = s.fsm := rfl
@[simp] theorem beforeAccess_cfg (s : State) : (beforeAccess s).cfg = s.cfg := rfl
@[simp] theorem beforeAccess_panelCfg (s : State) : (beforeAccess s).panelCfg = s.panelCfg := rfl
@[simp] theorem beforeAccess_cfgData (s : State) : (beforeAccess s).cfgData = s.cfgData := rfl
@[simp] theorem beforeAccess_cfgClk (s : State) : (beforeAccess s).cfgClk = s.cfgClk := rfl
@[simp] theorem beforeAccess_cfgStr (s : State) : (beforeAccess s).cfgStr = s.cfgStr := rfl
@[simp] theorem beforeAccess_tch (s : State) : (beforeAccess s).tch = s.tch := rfl
@[simp] theorem beforeAccess_tchGen (s : State) : (beforeAccess s).tchGen = s.tchGen := rfl
@[simp] theorem beforeAccess_pulseG (s : State) : (beforeAccess s).pulseG = s.pulseG := rfl
@[simp] theorem beforeAccess_tr (s : State) : (beforeAccess s).tr = s.tr := rfl
@[simp] theorem beforeAccess_tbuf (s : State) : (beforeAccess s).tbuf = s.tbuf := rfl
@[simp] theorem beforeAccess_rsrc (s : State) : (beforeAccess s).rsrc = s.rsrc := rfl
@[simp] theorem beforeAccess_result (s : State) : (beforeAccess s).result = s.result := rfl
@[simp] theorem beforeAccess_initFail (s : State) : (beforeAccess s).initFail = s.initFail := rfl
@[simp] theorem beforeAccess_hostq (s : State) : (beforeAccess s).hostq = s.hostq := rfl
@[simp] theorem beforeAccess_acqs (s : State) : (beforeAccess s).acqs = s.acqs := rfl
@[simp] theorem beforeAccess_filled (s : State) : (beforeAccess s).filled = s.filled := rfl

/-! ### delay -/

@[simp] theorem delay_params (n : Nat) (s : State) : (delay n s).params = s.params := rfl
@[simp] theorem delay_busy (n : Nat) (s : State) : (delay n s).busy = s.busy := rfl
@[simp] theorem delay_step (n : Nat) (s : State) : (delay n s).step = s.step := rfl
@[simp] theorem delay_act (n : Nat) (s : State) : (delay n s).act = s.act := rfl
@[simp] theorem delay_op (n : Nat) (s : State) : (delay n s).op = s.op := rfl
@[simp] theorem delay_blk (n : Nat) (s : State) : (delay n s).blk = s.blk := rfl
@[simp] theorem delay_a (n : Nat) (s : State) : (delay n s).a = s.a := rfl
@[simp] theorem delay_b (n : Nat) (s : State) : (delay n s).b = s.b := rfl
@[simp] theorem delay_fsm (n : Nat) (s : State) : (delay n s).fsm = s.fsm := rfl
@[simp] theorem delay_cfg (n : Nat) (s : State) : (delay n s).cfg = s.cfg := rfl
@[simp] theorem delay_panelCfg (n : Nat) (s : State) : (delay n s).panelCfg = s.panelCfg := rfl
@[simp] theorem delay_cfgData (n : Nat) (s : State) : (delay n s).cfgData = s.cfgData := rfl
@[simp] theorem delay_cfgClk (n : Nat) (s : State) : (delay n s).cfgClk = s.cfgClk := rfl
@[simp] theorem delay_cfgStr (n : Nat) (s : State) : (delay n s).cfgStr = s.cfgStr := rfl
@[simp] theorem delay_tch (n : Nat) (s : State) : (delay n s).tch = s.tch := rfl
@[simp] theorem delay_tchGen (n : Nat) (s : State) : (delay n s).tchGen = s.tchGen := rfl
@[simp] theorem delay_pulseG (n : Nat) (s : State) : (delay n s).pulseG = s.pulseG := rfl
@[simp] theorem delay_tr (n : Nat) (s : State) : (delay n s).tr = s.tr := rfl
@[simp] theorem delay_tbuf (n : Nat) (s : State) : (delay n s).tbuf = s.tbuf := rfl
@[simp] theorem delay_rsrc (n : Nat) (s : State) : (delay n s).rsrc = s.rsrc := rfl
@[simp] theorem delay_result (n : Nat) (s : State) : (delay n s).result = s.result := rfl
@[simp] theorem delay_initFail (n : Nat) (s : State) : (delay n s).initFail = s.initFail := rfl
@[simp] theorem delay_acqs (n : Nat) (s : State) : (delay n s).acqs = s.acqs := rfl
@[simp] theorem delay_filled (n : Nat) (s : State) : (delay n s).filled = s.filled := rfl

/-! ### issueWave -/

@[simp] theorem issueWave_params (g high low : Nat) (blk : Bool) (s : State) : (issueWave g high low blk s).params = s.params := rfl
@[simp] theorem issueWave_busy (g high low : Nat) (blk : Bool) (s : State) : (issueWave g high low blk s).busy = s.busy := rfl
@[simp] theorem issueWave_step (g high low : Nat) (blk : Bool) (s : State) : (issueWave g high low blk s).step = s.step := rfl
@[simp] theorem issueWave_act (g high low : Nat) (blk : Bool) (s : State) : (issueWave g high low blk s).act = s.act := rfl
@[simp] theorem issueWave_op (g high low : Nat) (blk : Bool) (s : State) : (issueWave g high low blk s).op = s.op := rfl
@[simp] theorem issueWave_blk (g high low : Nat) (blk : Bool) (s : State) : (issueWave g high low blk s).blk = s.blk := rfl
@[simp] theorem issueWave_a (g high low : Nat) (blk : Bool) (s : State) : (issueWave g high low blk s).a = s.a := rfl
@[simp] theorem issueWave_b (g high low : Nat) (blk : Bool) (s : State) : (issueWave g high low blk s).b = s.b := rfl
@[simp] theorem issueWave_fsm (g high low : Nat) (blk : Bool) (s : State) : (issueWave g high low blk s).fsm = s.fsm := rfl
@[simp] theorem issueWave_cfg (g high low : Nat) (blk : Bool) (s : State) : (issueWave g high low blk s).cfg = s.cfg := rfl
@[simp] theorem issueWave_panelCfg (g high low : Nat) (blk : Bool) (s : State) : (issueWave g high low blk s).panelCfg = s.panelCfg := rfl
@[simp] theorem issueWave_cfgData (g high low : Nat) (blk : Bool) (s : State) : (issueWave g high low blk s).cfgData = s.cfgData := rfl
@[simp] theorem issueWave_cfgClk (g high low : Nat) (blk : Bool) (s : State) : (issueWave g high low blk s).cfgClk = s.cfgClk := rfl
@[simp] theorem issueWave_cfgStr (g high low : Nat) (blk : Bool) (s : State) : (issueWave g high low blk s).cfgStr = s.cfgStr := rfl
@[simp] theorem issueWave_tchGen (g high low : Nat) (blk : Bool) (s : State) : (issueWave g high low blk s).tchGen = s.tchGen := rfl
@[simp] theorem issueWave_tr (g high low : Nat) (blk : Bool) (s : State) : (issueWave g high low blk s).tr = s.tr := rfl
@[simp] theorem issueWave_tbuf (g high low : Nat) (blk : Bool) (s : State) : (issueWave g high low blk s).tbuf = s.tbuf := rfl
@[simp] theorem issueWave_rsrc (g high low : Nat) (blk : Bool) (s : State) : (issueWave g high low blk s).rsrc = s.rsrc := rfl
@[simp] theorem issueWave_result (g high low : Nat) (blk : Bool) (s : State) : (issueWave g high low blk s).result = s.result := rfl
@[simp] theorem issueWave_initFail (g high low : Nat) (blk : Bool) (s : State) : (issueWave g high low blk s).initFail = s.initFail := rfl
@[simp] theorem issueWave_acqs (g high low : Nat) (blk : Bool) (s : State) : (issueWave g high low blk s).acqs = s.acqs := rfl
@[simp] theorem issueWave_filled (g high low : Nat) (blk : Bool) (s : State) : (issueWave g high low blk s).filled = s.filled := rfl

/-! ### acquired -/

@[simp] theorem acquired_params (s : State) : (acquired s).params = s.params := rfl
@[simp] theorem acquired_busy (s : State) : (acquired s).busy = s.busy := rfl
@[simp] theorem acquired_step (s : State) : (acquired s).step = s.step := rfl
@[simp] theorem acquired_act (s : State) : (acquired s).act = s.act := rfl
@[simp] theorem acquired_op (s : State) : (acquired s).op = s.op := rfl
@[simp] theorem acquired_blk (s : State) : (acquired s).blk = s.blk := rfl
@[simp] theorem acquired_a (s : State) : (acquired s).a = s.a := rfl
@[simp] theorem acquired_b (s : State) : (acquired s).b = s.b := rfl
@[simp] theorem acquired_fsm (s : State) : (acquired s).fsm = s.fsm := rfl
@[simp] theorem acquired_cfg (s : State) : (acquired s).cfg = s.cfg := rfl
@[simp] theorem acquired_panelCfg (s : State) : (acquired s).panelCfg = s.panelCfg := rfl
@[simp] theorem acquired_cfgData (s : State) : (acquired s).cfgData = s.cfgData := rfl
@[simp] theorem acquired_cfgClk (s : State) : (acquired s).cfgClk = s.cfgClk := rfl
@[simp] theorem acquired_cfgStr (s : State) : (acquired s).cfgStr = s.cfgStr := rfl
@[simp] theorem acquired_pulseG (s : State) : (acquired s).pulseG = s.pulseG := rfl
@[simp] theorem acquired_tr (s : State) : (acquired s).tr = s.tr := rfl
@[simp] theorem acquired_tbuf (s : State) : (acquired s).tbuf = s.tbuf := rfl
@[simp] theorem acquired_rsrc (s : State) : (acquired s).rsrc = s.rsrc := rfl
@[simp] theorem acquired_result (s : State) : (acquired s).result = s.result := rfl
@[simp] theorem acquired_initFail (s : State) : (acquired s).initFail = s.initFail := rfl
@[simp] theorem acquired_filled (s : State) : (acquired s).filled = s.filled := rfl

/-! ### acquireFailed -/

@[simp] theorem acquireFailed_params (s : State) : (acquireFailed s).params = s.params := rfl
@[simp] theorem acquireFailed_busy (s : State) : (acquireFailed s).busy = s.busy := rfl
@[simp] theorem acquireFailed_step (s : State) : (acquireFailed s).step = s.step := rfl
@[simp] theorem acquireFailed_act (s : State) : (acquireFailed s).act = s.act := rfl
@[simp] theorem acquireFailed_op (s : State) : (acquireFailed s).op = s.op := rfl
@[simp] theorem acquireFailed_blk (s : State) : (acquireFailed s).blk = s.blk := rfl
@[simp] theorem acquireFailed_a (s : State) : (acquireFailed s).a = s.a := rfl
@[simp] theorem acquireFailed_b (s : State) : (acquireFailed s).b = s.b := rfl
@[simp] theorem acquireFailed_fsm (s : State) : (acquireFailed s).fsm = s.fsm := rfl
@[simp] theorem acquireFailed_cfg (s : State) : (acquireFailed s).cfg = s.cfg := rfl
@[simp] theorem acquireFailed_panelCfg (s : State) : (acquireFailed s).panelCfg = s.panelCfg := rfl
@[simp] theorem acquireFailed_cfgData (s : State) : (acquireFailed s).cfgData = s.cfgData := rfl
@[simp] theorem acquireFailed_cfgClk (s : State) : (acquireFailed s).cfgClk = s.cfgClk := rfl
@[simp] theorem acquireFailed_cfgStr (s : State) : (acquireFailed s).cfgStr = s.cfgStr := rfl
@[simp] theorem acquireFailed_tch (s : State) : (acquireFailed s).tch = s.tch := rfl
@[simp] theorem acquireFailed_tchGen (s : State) : (acquireFailed s).tchGen = s.tchGen := rfl
@[simp] theorem acquireFailed_pulseG (s : State) : (acquireFailed s).pulseG = s.pulseG := rfl
@[simp] theorem acquireFailed_tr (s : State) : (acquireFailed s).tr = s.tr := rfl
@[simp] theorem acquireFailed_tbuf (s : State) : (acquireFailed s).tbuf = s.tbuf := rfl
@[simp] theorem acquireFailed_rsrc (s : State) : (acquireFailed s).rsrc = s.rsrc := rfl
@[simp] theorem acquireFailed_result (s : State) : (acquireFailed s).result = s.result := rfl
@[simp] theorem acquireFailed_initFail (s : State) : (acquireFailed s).initFail = s.initFail := rfl
@[simp] theorem acquireFailed_filled (s : State) : (acquireFailed s).filled = s.filled := rfl

/-! ### copyRow -/

@[simp] theorem copyRow_params (len : Nat) (s : State) : (copyRow len s).params = s.params := rfl
@[simp] theorem copyRow_busy (len : Nat) (s : State) : (copyRow len s).busy = s.busy := rfl
@[simp] theorem copyRow_step (len : Nat) (s : State) : (copyRow len s).step = s.step := rfl
@[simp] theorem copyRow_act (len : Nat) (s : State) : (copyRow len s).act = s.act := rfl
@[simp] theorem copyRow_op (len : Nat) (s : State) : (copyRow len s).op = s.op := rfl
@[simp] theorem copyRow_blk (len : Nat) (s : State) : (copyRow len s).blk = s.blk := rfl
@[simp] theorem copyRow_a (len : Nat) (s : State) : (copyRow len s).a = s.a := rfl
@[simp] theorem copyRow_b (len : Nat) (s : State) : (copyRow len s).b = s.b := rfl
@[simp] theorem copyRow_fsm (len : Nat) (s : State) : (copyRow len s).fsm = s.fsm := rfl
@[simp] theorem copyRow_cfg (len : Nat) (s : State) : (copyRow len s).cfg = s.cfg := rfl
@[simp] theorem copyRow_panelCfg (len : Nat) (s : State) : (copyRow len s).panelCfg = s.panelCfg := rfl
@[simp] theorem copyRow_cfgData (len : Nat) (s : State) : (copyRow len s).cfgData = s.cfgData := rfl
@[simp] theorem copyRow_cfgClk (len : Nat) (s : State) : (copyRow len s).cfgClk = s.cfgClk := rfl
@[simp] theorem copyRow_cfgStr (len : Nat) (s : State) : (copyRow len s).cfgStr = s.cfgStr := rfl
@[simp] theorem copyRow_tpOut (len : Nat) (s : State) : (copyRow len s).tpOut = s.tpOut := rfl
@[simp] theorem copyRow_tch (len : Nat) (s : State) : (copyRow len s).tch = s.tch := rfl
@[simp] theorem copyRow_tchGen (len : Nat) (s : State) : (copyRow len s).tchGen = s.tchGen := rfl
@[simp] theorem copyRow_pulseG (len : Nat) (s : State) : (copyRow len s).pulseG = s.pulseG := rfl
@[simp] theorem copyRow_pq (len : Nat) (s : State) : (copyRow len s).pq = s.pq := rfl
@[simp] theorem copyRow_tpr (len : Nat) (s : State) : (copyRow len s).tpr = s.tpr := rfl
@[simp] theorem copyRow_tr (len : Nat) (s : State) : (copyRow len s).tr = s.tr := rfl
@[simp] theorem copyRow_xf (len : Nat) (s : State) : (copyRow len s).xf = s.xf := rfl
@[simp] theorem copyRow_rsrc (len : Nat) (s : State) : (copyRow len s).rsrc = s.rsrc := rfl
@[simp] theorem copyRow_bus (len : Nat) (s : State) : (copyRow len s).bus = s.bus := rfl
@[simp] theorem copyRow_cyc (len : Nat) (s : State) : (copyRow len s).cyc = s.cyc := rfl
@[simp] theorem copyRow_result (len : Nat) (s : State) : (copyRow len s).result = s.result := rfl
@[simp] theorem copyRow_initFail (len : Nat) (s : State) : (copyRow len s).initFail = s.initFail := rfl
@[simp] theorem copyRow_trace (len : Nat) (s : State) : (copyRow len s).trace = s.trace := rfl
@[simp] theorem copyRow_hostq (len : Nat) (s : State) : (copyRow len s).hostq = s.hostq := rfl
@[simp] theorem copyRow_reads (len : Nat) (s : State) : (copyRow len s).reads = s.reads := rfl
@[simp] theorem copyRow_bursts (len : Nat) (s : State) : (copyRow len s).bursts = s.bursts := rfl
@[simp] theorem copyRow_acqs (len : Nat) (s : State) : (copyRow len s).acqs = s.acqs := rfl
@[simp] theorem copyRow_drawn (len : Nat) (s : State) : (copyRow len s).drawn = s.drawn := rfl
@[simp] theorem copyRow_filled (len : Nat) (s : State) : (copyRow len s).filled = s.filled := rfl

/-! ### issueTransfer -/

@[simp] theorem issueTransfer_params (s : State) : (issueTransfer s).params = s.params := rfl
@[simp] theorem issueTransfer_busy (s : State) : (issueTransfer s).busy = s.busy := rfl
@[simp] theorem issueTransfer_step (s : State) : (issueTransfer s).step = s.step := rfl
@[simp] theorem issueTransfer_act (s : State) : (issueTransfer s).act = s.act := rfl
@[simp] theorem issueTransfer_op (s : State) : (issueTransfer s).op = s.op := rfl
@[simp] theorem issueTransfer_blk (s : State) : (issueTransfer s).blk = s.blk := rfl
@[simp] theorem issueTransfer_a (s : State) : (issueTransfer s).a = s.a := rfl
@[simp] theorem issueTransfer_b (s : State) : (issueTransfer s).b = s.b := rfl
@[simp] theorem issueTransfer_fsm (s : State) : (issueTransfer s).fsm = s.fsm := rfl
@[simp] theorem issueTransfer_cfg (s : State) : (issueTransfer s).cfg = s.cfg := rfl
@[simp] theorem issueTransfer_panelCfg (s : State) : (issueTransfer s).panelCfg = s.panelCfg := rfl
@[simp] theorem issueTransfer_cfgData (s : State) : (issueTransfer s).cfgData = s.cfgData := rfl
@[simp] theorem issueTransfer_cfgClk (s : State) : (issueTransfer s).cfgClk = s.cfgClk := rfl
@[simp] theorem issueTransfer_cfgStr (s : State) : (issueTransfer s).cfgStr = s.cfgStr := rfl
@[simp] theorem issueTransfer_tch (s : State) : (issueTransfer s).tch = s.tch := rfl
@[simp] theorem issueTransfer_tchGen (s : State) : (issueTransfer s).tchGen = s.tchGen := rfl
@[simp] theorem issueTransfer_pulseG (s : State) : (issueTransfer s).pulseG = s.pulseG := rfl
@[simp] theorem issueTransfer_tbuf (s : State) : (issueTransfer s).tbuf = s.tbuf := rfl
@[simp] theorem issueTransfer_rsrc (s : State) : (issueTransfer s).rsrc = s.rsrc := rfl
@[simp] theorem issueTransfer_result (s : State) : (issueTransfer s).result = s.result := rfl
@[simp] theorem issueTransfer_initFail (s : State) : (issueTransfer s).initFail = s.initFail := rfl
@[simp] theorem issueTransfer_acqs (s : State) : (issueTransfer s).acqs = s.acqs := rfl
@[simp] theorem issueTransfer_filled (s : State) : (issueTransfer s).filled = s.filled := rfl

/-! ### putSlot -/

@[simp] theorem putSlot_params (s : State) : (putSlot s).params = s.params := rfl
@[simp] theorem putSlot_busy (s : State) : (putSlot s).busy = s.busy := rfl
@[simp] theorem putSlot_step (s : State) : (putSlot s).step = s.step := rfl
@[simp] theorem putSlot_act (s : State) : (putSlot s).act = s.act := rfl
@[simp] theorem putSlot_op (s : State) : (putSlot s).op = s.op := rfl
@[simp] theorem putSlot_blk (s : State) : (putSlot s).blk = s.blk := rfl
@[simp] theorem putSlot_a (s : State) : (putSlot s).a = s.a := rfl
@[simp] theorem putSlot_b (s : State) : (putSlot s).b = s.b := rfl
@[simp] theorem putSlot_fsm (s : State) : (putSlot s).fsm = s.fsm := rfl
@[simp] theorem putSlot_cfg (s : State) : (putSlot s).cfg = s.cfg := rfl
@[simp] theorem putSlot_panelCfg (s : State) : (putSlot s).panelCfg = s.panelCfg := rfl
@[simp] theorem putSlot_cfgData (s : State) : (putSlot s).cfgData = s.cfgData := rfl
@[simp] theorem putSlot_cfgClk (s : State) : (putSlot s).cfgClk = s.cfgClk := rfl
@[simp] theorem putSlot_cfgStr (s : State) : (putSlot s).cfgStr = s.cfgStr := rfl
@[simp] theorem putSlot_tpOut (s : State) : (putSlot s).tpOut = s.tpOut := rfl
@[simp] theorem putSlot_tch (s : State) : (putSlot s).tch = s.tch := rfl
@[simp] theorem putSlot_tchGen (s : State) : (putSlot s).tchGen = s.tchGen := rfl
@[simp] theorem putSlot_pulseG (s : State) : (putSlot s).pulseG = s.pulseG := rfl
@[simp] theorem putSlot_pq (s : State) : (putSlot s).pq = s.pq := rfl
@[simp] theorem putSlot_tpr (s : State) : (putSlot s).tpr = s.tpr := rfl
@[simp] theorem putSlot_tbuf (s : State) : (putSlot s).tbuf = s.tbuf := rfl
@[simp] theorem putSlot_rsrc (s : State) : (putSlot s).rsrc = s.rsrc := rfl
@[simp] theorem putSlot_bus (s : State) : (putSlot s).bus = s.bus := rfl
@[simp] theorem putSlot_cyc (s : State) : (putSlot s).cyc = s.cyc := rfl
@[simp] theorem putSlot_result (s : State) : (putSlot s).result = s.result := rfl
@[simp] theorem putSlot_initFail (s : State) : (putSlot s).initFail = s.initFail := rfl
@[simp] theorem putSlot_trace (s : State) : (putSlot s).trace = s.trace := rfl
@[simp] theorem putSlot_hostq (s : State) : (putSlot s).hostq = s.hostq := rfl
@[simp] theorem putSlot_reads (s : State) : (putSlot s).reads = s.reads := rfl
@[simp] theorem putSlot_bursts (s : State) : (putSlot s).bursts = s.bursts := rfl
@[simp] theorem putSlot_acqs (s : State) : (putSlot s).acqs = s.acqs := rfl
@[simp] theorem putSlot_drawn (s : State) : (putSlot s).drawn = s.drawn := rfl
@[simp] theorem putSlot_filled (s : State) : (putSlot s).filled = s.filled := rfl

/-! ### reclaim -/

@[simp] theorem reclaim_params (s : State) : (reclaim s).params = s.params := rfl
@[simp] theorem reclaim_busy (s : State) : (reclaim s).busy = s.busy := rfl
@[simp] theorem reclaim_step (s : State) : (reclaim s).step = s.step := rfl
@[simp] theorem reclaim_act (s : State) : (reclaim s).act = s.act := rfl
@[simp] theorem reclaim_op (s : State) : (reclaim s).op = s.op := rfl
@[simp] theorem reclaim_blk (s : State) : (reclaim s).blk = s.blk := rfl
@[simp] theorem reclaim_a (s : State) : (reclaim s).a = s.a := rfl
@[simp] theorem reclaim_b (s : State) : (reclaim s).b = s.b := rfl
@[simp] theorem reclaim_fsm (s : State) : (reclaim s).fsm = s.fsm := rfl
@[simp] theorem reclaim_cfg (s : State) : (reclaim s).cfg = s.cfg := rfl
@[simp] theorem reclaim_panelCfg (s : State) : (reclaim s).panelCfg = s.panelCfg := rfl
@[simp] theorem reclaim_cfgData (s : State) : (reclaim s).cfgData = s.cfgData := rfl
@[simp] theorem reclaim_cfgClk (s : State) : (reclaim s).cfgClk = s.cfgClk := rfl
@[simp] theorem reclaim_cfgStr (s : State) : (reclaim s).cfgStr = s.cfgStr := rfl
@[simp] theorem reclaim_tpOut (s : State) : (reclaim s).tpOut = s.tpOut := rfl
@[simp] theorem reclaim_tchGen (s : State) : (reclaim s).tchGen = s.tchGen := rfl
@[simp] theorem reclaim_pulseG (s : State) : (reclaim s).pulseG = s.pulseG := rfl
@[simp] theorem reclaim_pq (s : State) : (reclaim s).pq = s.pq := rfl
@[simp] theorem reclaim_tr (s : State) : (reclaim s).tr = s.tr := rfl
@[simp] theorem reclaim_tbuf (s : State) : (reclaim s).tbuf = s.tbuf := rfl
@[simp] theorem reclaim_xf (s : State) : (reclaim s).xf = s.xf := rfl
@[simp] theorem reclaim_rsrc (s : State) : (reclaim s).rsrc = s.rsrc := rfl
@[simp] theorem reclaim_bus (s : State) : (reclaim s).bus = s.bus := rfl
@[simp] theorem reclaim_cyc (s : State) : (reclaim s).cyc = s.cyc := rfl
@[simp] theorem reclaim_result (s : State) : (reclaim s).result = s.result := rfl
@[simp] theorem reclaim_initFail (s : State) : (reclaim s).initFail = s.initFail := rfl
@[simp] theorem reclaim_trace (s : State) : (reclaim s).trace = s.trace := rfl
@[simp] theorem reclaim_hostq (s : State) : (reclaim s).hostq = s.hostq := rfl
@[simp] theorem reclaim_reads (s : State) : (reclaim s).reads = s.reads := rfl
@[simp] theorem reclaim_bursts (s : State) : (reclaim s).bursts = s.bursts := rfl
@[simp] theorem reclaim_acqs (s : State) : (reclaim s).acqs = s.acqs := rfl
@[simp] theorem reclaim_drawn (s : State) : (reclaim s).drawn = s.drawn := rfl
@[simp] theorem reclaim_filled (s : State) : (reclaim s).filled = s.filled := rfl

/-! ### dropChannel -/

@[simp] theorem dropChannel_params (s : State) : (dropChannel s).params = s.params := rfl
@[simp] theorem dropChannel_busy (s : State) : (dropChannel s).busy = s.busy := rfl
@[simp] theorem dropChannel_step (s : State) : (dropChannel s).step = s.step := rfl
@[simp] theorem dropChannel_act (s : State) : (dropChannel s).act = s.act := rfl
@[simp] theorem dropChannel_op (s : State) : (dropChannel s).op = s.op := rfl
@[simp] theorem dropChannel_blk (s : State) : (dropChannel s).blk = s.blk := rfl
@[simp] theorem dropChannel_a (s : State) : (dropChannel s).a = s.a := rfl
@[simp] theorem dropChannel_b (s : State) : (dropChannel s).b = s.b := rfl
@[simp] theorem dropChannel_fsm (s : State) : (dropChannel s).fsm = s.fsm := rfl
@[simp] theorem dropChannel_cfg (s : State) : (dropChannel s).cfg = s.cfg := rfl
@[simp] theorem dropChannel_panelCfg (s : State) : (dropChannel s).panelCfg = s.panelCfg := rfl
@[simp] theorem dropChannel_cfgData (s : State) : (dropChannel s).cfgData = s.cfgData := rfl
@[simp] theorem dropChannel_cfgClk (s : State) : (dropChannel s).cfgClk = s.cfgClk := rfl
@[simp] theorem dropChannel_cfgStr (s : State) : (dropChannel s).cfgStr = s.cfgStr := rfl
@[simp] theorem dropChannel_tpOut (s : State) : (dropChannel s).tpOut = s.tpOut := rfl
@[simp] theorem dropChannel_tch (s : State) : (dropChannel s).tch = s.tch := rfl
@[simp] theorem dropChannel_tchGen (s : State) : (dropChannel s).tchGen = s.tchGen := rfl
@[simp] theorem dropChannel_pulseG (s : State) : (dropChannel s).pulseG = s.pulseG := rfl
@[simp] theorem dropChannel_pq (s : State) : (dropChannel s).pq = s.pq := rfl
@[simp] theorem dropChannel_tr (s : State) : (dropChannel s).tr = s.tr := rfl
@[simp] theorem dropChannel_tbuf (s : State) : (dropChannel s).tbuf = s.tbuf := rfl
@[simp] theorem dropChannel_xf (s : State) : (dropChannel s).xf = s.xf := rfl
@[simp] theorem dropChannel_rsrc (s : State) : (dropChannel s).rsrc = s.rsrc := rfl
@[simp] theorem dropChannel_bus (s : State) : (dropChannel s).bus = s.bus := rfl
@[simp] theorem dropChannel_cyc (s : State) : (dropChannel s).cyc = s.cyc := rfl
@[simp] theorem dropChannel_result (s : State) : (dropChannel s).result = s.result := rfl
@[simp] theorem dropChannel_initFail (s : State) : (dropChannel s).initFail = s.initFail := rfl
@[simp] theorem dropChannel_trace (s : State) : (dropChannel s).trace = s.trace := rfl
@[simp] theorem dropChannel_hostq (s : State) : (dropChannel s).hostq = s.hostq := rfl
@[simp] theorem dropChannel_reads (s : State) : (dropChannel s).reads = s.reads := rfl
@[simp] theorem dropChannel_bursts (s : State) : (dropChannel s).bursts = s.bursts := rfl
@[simp] theorem dropChannel_acqs (s : State) : (dropChannel s).acqs = s.acqs := rfl
@[simp] theorem dropChannel_drawn (s : State) : (dropChannel s).drawn = s.drawn := rfl
@[simp] theorem dropChannel_filled (s : State) : (dropChannel s).filled = s.filled := rfl

/-! ### nextAct -/

@[simp] theorem nextAct_params (s : State) : (nextAct s).params = s.params := rfl
@[simp] theorem nextAct_busy (s : State) : (nextAct s).busy = s.busy := rfl
@[simp] theorem nextAct_step (s : State) : (nextAct s).step = s.step := rfl
@[simp] theorem nextAct_op (s : State) : (nextAct s).op = s.op := rfl
@[simp] theorem nextAct_blk (s : State) : (nextAct s).blk = s.blk := rfl
@[simp] theorem nextAct_a (s : State) : (nextAct s).a = s.a := rfl
@[simp] theorem nextAct_b (s : State) : (nextAct s).b = s.b := rfl
@[simp] theorem nextAct_fsm (s : State) : (nextAct s).fsm = s.fsm := rfl
@[simp] theorem nextAct_cfg (s : State) : (nextAct s).cfg = s.cfg := rfl
@[simp] theorem nextAct_panelCfg (s : State) : (nextAct s).panelCfg = s.panelCfg := rfl
@[simp] theorem nextAct_cfgData (s : State) : (nextAct s).cfgData = s.cfgData := rfl
@[simp] theorem nextAct_cfgClk (s : State) : (nextAct s).cfgClk = s.cfgClk := rfl
@[simp] theorem nextAct_cfgStr (s : State) : (nextAct s).cfgStr = s.cfgStr := rfl
@[simp] theorem nextAct_tpOut (s : State) : (nextAct s).tpOut = s.tpOut := rfl
@[simp] theorem nextAct_tch (s : State) : (nextAct s).tch = s.tch := rfl
@[simp] theorem nextAct_tchGen (s : State) : (nextAct s).tchGen = s.tchGen := rfl
@[simp] theorem nextAct_pulseG (s : State) : (nextAct s).pulseG = s.pulseG := rfl
@[simp] theorem nextAct_pq (s : State) : (nextAct s).pq = s.pq := rfl
@[simp] theorem nextAct_tpr (s : State) : (nextAct s).tpr = s.tpr := rfl
@[simp] theorem nextAct_tr (s : State) : (nextAct s).tr = s.tr := rfl
@[simp] theorem nextAct_tbuf (s : State) : (nextAct s).tbuf = s.tbuf := rfl
@[simp] theorem nextAct_xf (s : State) : (nextAct s).xf = s.xf := rfl
@[simp] theorem nextAct_rsrc (s : State) : (nextAct s).rsrc = s.rsrc := rfl
@[simp] theorem nextAct_bus (s : State) : (nextAct s).bus = s.bus := rfl
@[simp] theorem nextAct_cyc (s : State) : (nextAct s).cyc = s.cyc := rfl
@[simp] theorem nextAct_result (s : State) : (nextAct s).result = s.result := rfl
@[simp] theorem nextAct_initFail (s : State) : (nextAct s).initFail = s.initFail := rfl
@[simp] theorem nextAct_trace (s : State) : (nextAct s).trace = s.trace := rfl
@[simp] theorem nextAct_hostq (s : State) : (nextAct s).hostq = s.hostq := rfl
@[simp] theorem nextAct_reads (s : State) : (nextAct s).reads = s.reads := rfl
@[simp] theorem nextAct_bursts (s : State) : (nextAct s).bursts = s.bursts := rfl
@[simp] theorem nextAct_acqs (s : State) : (nextAct s).acqs = s.acqs := rfl
@[simp] theorem nextAct_drawn (s : State) : (nextAct s).drawn = s.drawn := rfl
@[simp] theorem nextAct_filled (s : State) : (nextAct s).filled = s.filled := rfl

/-! ### nextStep -/

@[simp] theorem nextStep_params (s : State) : (nextStep s).params = s.params := rfl
@[simp] theorem nextStep_busy (s : State) : (nextStep s).busy = s.busy := rfl
@[simp] theorem nextStep_op (s : State) : (nextStep s).op = s.op := rfl
@[simp] theorem nextStep_blk (s : State) : (nextStep s).blk = s.blk := rfl
@[simp] theorem nextStep_a (s : State) : (nextStep s).a = s.a := rfl
@[simp] theorem nextStep_b (s : State) : (nextStep s).b = s.b := rfl
@[simp] theorem nextStep_fsm (s : State) : (nextStep s).fsm = s.fsm := rfl
@[simp] theorem nextStep_cfg (s : State) : (nextStep s).cfg = s.cfg := rfl
@[simp] theorem nextStep_panelCfg (s : State) : (nextStep s).panelCfg = s.panelCfg := rfl
@[simp] theorem nextStep_cfgData (s : State) : (nextStep s).cfgData = s.cfgData := rfl
@[simp] theorem nextStep_cfgClk (s : State) : (nextStep s).cfgClk = s.cfgClk := rfl
@[simp] theorem nextStep_cfgStr (s : State) : (nextStep s).cfgStr = s.cfgStr := rfl
@[simp] theorem nextStep_tpOut (s : State) : (nextStep s).tpOut = s.tpOut := rfl
@[simp] theorem nextStep_tch (s : State) : (nextStep s).tch = s.tch := rfl
@[simp] theorem nextStep_tchGen (s : State) : (nextStep s).tchGen = s.tchGen := rfl
@[simp] theorem nextStep_pulseG (s : State) : (nextStep s).pulseG = s.pulseG := rfl
@[simp] theorem nextStep_pq (s : State) : (nextStep s).pq = s.pq := rfl
@[simp] theorem nextStep_tpr (s : State) : (nextStep s).tpr = s.tpr := rfl
@[simp] theorem nextStep_tr (s : State) : (nextStep s).tr = s.tr := rfl
@[simp] theorem nextStep_tbuf (s : State) : (nextStep s).tbuf = s.tbuf := rfl
@[simp] theorem nextStep_xf (s : State) : (nextStep s).xf = s.xf := rfl
@[simp] theorem nextStep_rsrc (s : State) : (nextStep s).rsrc = s.rsrc := rfl
@[simp] theorem nextStep_bus (s : State) : (nextStep s).bus = s.bus := rfl
@[simp] theorem nextStep_cyc (s : State) : (nextStep s).cyc = s.cyc := rfl
@[simp] theorem nextStep_result (s : State) : (nextStep s).result = s.result := rfl
@[simp] theorem nextStep_initFail (s : State) : (nextStep s).initFail = s.initFail := rfl
@[simp] theorem nextStep_trace (s : State) : (nextStep s).trace = s.trace := rfl
@[simp] theorem nextStep_hostq (s : State) : (nextStep s).hostq = s.hostq := rfl
@[simp] theorem nextStep_reads (s : State) : (nextStep s).reads = s.reads := rfl
@[simp] theorem nextStep_bursts (s : State) : (nextStep s).bursts = s.bursts := rfl
@[simp] theorem nextStep_acqs (s : State) : (nextStep s).acqs = s.acqs := rfl
@[simp] theorem nextStep_drawn (s : State) : (nextStep s).drawn = s.drawn := rfl
@[simp] theorem nextStep_filled (s : State) : (nextStep s).filled = s.filled := rfl

/-! ### setFsm -/

@[simp] theorem setFsm_params (f : Fsm) (s : State) : (setFsm f s).params = s.params := rfl
@[simp] theorem setFsm_busy (f : Fsm) (s : State) : (setFsm f s).busy = s.busy := rfl
@[simp] theorem setFsm_step (f : Fsm) (s : State) : (setFsm f s).step = s.step := rfl
@[simp] theorem setFsm_act (f : Fsm) (s : State) : (setFsm f s).act = s.act := rfl
@[simp] theorem setFsm_op (f : Fsm) (s : State) : (setFsm f s).op = s.op := rfl
@[simp] theorem setFsm_blk (f : Fsm) (s : State) : (setFsm f s).blk = s.blk := rfl
@[simp] theorem setFsm_a (f : Fsm) (s : State) : (setFsm f s).a = s.a := rfl
@[simp] theorem setFsm_b (f : Fsm) (s : State) : (setFsm f s).b = s.b := rfl
@[simp] theorem setFsm_cfg (f : Fsm) (s : State) : (setFsm f s).cfg = s.cfg := rfl
@[simp] theorem setFsm_panelCfg (f : Fsm) (s : State) : (setFsm f s).panelCfg = s.panelCfg := rfl
@[simp] theorem setFsm_cfgData (f : Fsm) (s : State) : (setFsm f s).cfgData = s.cfgData := rfl
@[simp] theorem setFsm_cfgClk (f : Fsm) (s : State) : (setFsm f s).cfgClk = s.cfgClk := rfl
@[simp] theorem setFsm_cfgStr (f : Fsm) (s : State) : (setFsm f s).cfgStr = s.cfgStr := rfl
@[simp] theorem setFsm_tpOut (f : Fsm) (s : State) : (setFsm f s).tpOut = s.tpOut := rfl
@[simp] theorem setFsm_tch (f : Fsm) (s : State) : (setFsm f s).tch = s.tch := rfl
@[simp] theorem setFsm_tchGen (f : Fsm) (s : State) : (setFsm f s).tchGen = s.tchGen := rfl
@[simp] theorem setFsm_pulseG (f : Fsm) (s : State) : (setFsm f s).pulseG = s.pulseG := rfl
@[simp] theorem setFsm_pq (f : Fsm) (s : State) : (setFsm f s).pq = s.pq := rfl
@[simp] theorem setFsm_tpr (f : Fsm) (s : State) : (setFsm f s).tpr = s.tpr := rfl
@[simp] theorem setFsm_tr (f : Fsm) (s : State) : (setFsm f s).tr = s.tr := rfl
@[simp] theorem setFsm_tbuf (f : Fsm) (s : State) : (setFsm f s).tbuf = s.tbuf := rfl
@[simp] theorem setFsm_xf (f : Fsm) (s : State) : (setFsm f s).xf = s.xf := rfl
@[simp] theorem setFsm_rsrc (f : Fsm) (s : State) : (setFsm f s).rsrc = s.rsrc := rfl
@[simp] theorem setFsm_bus (f : Fsm) (s : State) : (setFsm f s).bus = s.bus := rfl
@[simp] theorem setFsm_cyc (f : Fsm) (s : State) : (setFsm f s).cyc = s.cyc := rfl
@[simp] theorem setFsm_result (f : Fsm) (s : State) : (setFsm f s).result = s.result := rfl
@[simp] theorem setFsm_initFail (f : Fsm) (s : State) : (setFsm f s).initFail = s.initFail := rfl
@[simp] theorem setFsm_trace (f : Fsm) (s : State) : (setFsm f s).trace = s.trace := rfl
@[simp] theorem setFsm_hostq (f : Fsm) (s : State) : (setFsm f s).hostq = s.hostq := rfl
@[simp] theorem setFsm_reads (f : Fsm) (s : State) : (setFsm f s).reads = s.reads := rfl
@[simp] theorem setFsm_bursts (f : Fsm) (s : State) : (setFsm f s).bursts = s.bursts := rfl
@[simp] theorem setFsm_acqs (f : Fsm) (s : State) : (setFsm f s).acqs = s.acqs := rfl
@[simp] theorem setFsm_drawn (f : Fsm) (s : State) : (setFsm f s).drawn = s.drawn := rfl
@[simp] theorem setFsm_filled (f : Fsm) (s : State) : (setFsm f s).filled = s.filled := rfl

/-! ### accept -/

@[simp] theorem accept_params (w : Word) (s : State) : (accept w s).params = s.params := rfl
@[simp] theorem accept_fsm (w : Word) (s : State) : (accept w s).fsm = s.fsm := rfl
@[simp] theorem accept_cfg (w : Word) (s : State) : (accept w s).cfg = s.cfg := rfl
@[simp] theorem accept_panelCfg (w : Word) (s : State) : (accept w s).panelCfg = s.panelCfg := rfl
@[simp] theorem accept_cfgData (w : Word) (s : State) : (accept w s).cfgData = s.cfgData := rfl
@[simp] theorem accept_cfgClk (w : Word) (s : State) : (accept w s).cfgClk = s.cfgClk := rfl
@[simp] theorem accept_cfgStr (w : Word) (s : State) : (accept w s).cfgStr = s.cfgStr := rfl
@[simp] theorem accept_tch (w : Word) (s : State) : (accept w s).tch = s.tch := rfl
@[simp] theorem accept_tchGen (w : Word) (s : State) : (accept w s).tchGen = s.tchGen := rfl
@[simp] theorem accept_pulseG (w : Word) (s : State) : (accept w s).pulseG = s.pulseG := rfl
@[simp] theorem accept_tr (w : Word) (s : State) : (accept w s).tr = s.tr := rfl
@[simp] theorem accept_tbuf (w : Word) (s : State) : (accept w s).tbuf = s.tbuf := rfl
@[simp] theorem accept_rsrc (w : Word) (s : State) : (accept w s).rsrc = s.rsrc := rfl
@[simp] theorem accept_result (w : Word) (s : State) : (accept w s).result = s.result := rfl
@[simp] theorem accept_initFail (w : Word) (s : State) : (accept w s).initFail = s.initFail := rfl
@[simp] theorem accept_acqs (w : Word) (s : State) : (accept w s).acqs = s.acqs := rfl
@[simp] theorem accept_filled (w : Word) (s : State) : (accept w s).filled = s.filled := rfl

/-! ### rejectIllegal -/

@[simp] theorem rejectIllegal_params (w : Word) (s : State) : (rejectIllegal w s).params = s.params := by simp [rejectIllegal]
@[simp] theorem rejectIllegal_busy (w : Word) (s : State) : (rejectIllegal w s).busy = s.busy := by simp [rejectIllegal]
@[simp] theorem rejectIllegal_step (w : Word) (s : State) : (rejectIllegal w s).step = s.step := by simp [rejectIllegal]
@[simp] theorem rejectIllegal_act (w : Word) (s : State) : (rejectIllegal w s).act = s.act := by simp [rejectIllegal]
@[simp] theorem rejectIllegal_op (w : Word) (s : State) : (rejectIllegal w s).op = s.op := by simp [rejectIllegal]
@[simp] theorem rejectIllegal_blk (w : Word) (s : State) : (rejectIllegal w s).blk = s.blk := by simp [rejectIllegal]
@[simp] theorem rejectIllegal_a (w : Word) (s : State) : (rejectIllegal w s).a = s.a := by simp [rejectIllegal]
@[simp] theorem rejectIllegal_b (w : Word) (s : State) : (rejectIllegal w s).b = s.b := by simp [rejectIllegal]
@[simp] theorem rejectIllegal_fsm (w : Word) (s : State) : (rejectIllegal w s).fsm = s.fsm := by simp [rejectIllegal]
@[simp] theorem rejectIllegal_cfg (w : Word) (s : State) : (rejectIllegal w s).cfg = s.cfg := by simp [rejectIllegal]
@[simp] theorem rejectIllegal_panelCfg (w : Word) (s : State) : (rejectIllegal w s).panelCfg = s.panelCfg := by simp [rejectIllegal]
@[simp] theorem rejectIllegal_cfgData (w : Word) (s : State) : (rejectIllegal w s).cfgData = s.cfgData := by simp [rejectIllegal]
@[simp] theorem rejectIllegal_cfgClk (w : Word) (s : State) : (rejectIllegal w s).cfgClk = s.cfgClk := by simp [rejectIllegal]
@[simp] theorem rejectIllegal_cfgStr (w : Word) (s : State) : (rejectIllegal w s).cfgStr = s.cfgStr := by simp [rejectIllegal]
@[simp] theorem rejectIllegal_tch (w : Word) (s : State) : (rejectIllegal w s).tch = s.tch := by simp [rejectIllegal]
@[simp] theorem rejectIllegal_tchGen (w : Word) (s : State) : (rejectIllegal w s).tchGen = s.tchGen := by simp [rejectIllegal]
@[simp] theorem rejectIllegal_pulseG (w : Word) (s : State) : (rejectIllegal w s).pulseG = s.pulseG := by simp [rejectIllegal]
@[simp] theorem rejectIllegal_tr (w : Word) (s : State) : (rejectIllegal w s).tr = s.tr := by simp [rejectIllegal]
@[simp] theorem rejectIllegal_tbuf (w : Word) (s : State) : (rejectIllegal w s).tbuf = s.tbuf := by simp [rejectIllegal]
@[simp] theorem rejectIllegal_rsrc (w : Word) (s : State) : (rejectIllegal w s).rsrc = s.rsrc := by simp [rejectIllegal]
@[simp] theorem rejectIllegal_initFail (w : Word) (s : State) : (rejectIllegal w s).initFail = s.initFail := by simp [rejectIllegal]
@[simp] theorem rejectIllegal_acqs (w : Word) (s : State) : (rejectIllegal w s).acqs = s.acqs := by simp [rejectIllegal]
@[simp] theorem rejectIllegal_filled (w : Word) (s : State) : (rejectIllegal w s).filled = s.filled := by simp [rejectIllegal]

/-! ### The fields set outright -/

@[simp] theorem raise_result (c : Cause) (s : State) : (raise c s).result = c := rfl
@[simp] theorem raise_busy (c : Cause) (s : State) : (raise c s).busy = false := rfl
@[simp] theorem returnOk_result (s : State) : (returnOk s).result = .ok := rfl
@[simp] theorem returnOk_busy (s : State) : (returnOk s).busy = false := rfl
@[simp] theorem setField_cfg (f : CfgField) (b : Bool) (s : State) : (setField f b s).cfg = f.set b s.cfg := rfl
@[simp] theorem driveCommit_panelCfg (s : State) : (driveCommit s).panelCfg = some s.cfg := rfl
@[simp] theorem commit_panelCfg (s : State) : (commit s).panelCfg = some s.cfg := by simp [commit]
@[simp] theorem issueWave_tch (g high low : Nat) (blk : Bool) (s : State) : (issueWave g high low blk s).tch = .absent := rfl
@[simp] theorem issueWave_pulseG (g high low : Nat) (blk : Bool) (s : State) : (issueWave g high low blk s).pulseG = g := rfl
@[simp] theorem acquired_tch (s : State) : (acquired s).tch = .held (s.tchGen + 1) := rfl
@[simp] theorem acquired_tchGen (s : State) : (acquired s).tchGen = s.tchGen + 1 := rfl
@[simp] theorem acquired_acqs (s : State) : (acquired s).acqs = s.acqs.tail := rfl
@[simp] theorem acquireFailed_acqs (s : State) : (acquireFailed s).acqs = s.acqs.tail := rfl
@[simp] theorem issueTransfer_tr (s : State) : (issueTransfer s).tr = .absent := rfl
@[simp] theorem putSlot_tr (s : State) : (putSlot s).tr = .held := rfl
@[simp] theorem putSlot_xf (s : State) : (putSlot s).xf = .none := rfl
@[simp] theorem reclaim_tpr (s : State) : (reclaim s).tpr = .none := rfl
@[simp] theorem reclaim_tch (s : State) : (reclaim s).tch = .held s.pulseG := rfl
@[simp] theorem dropChannel_tpr (s : State) : (dropChannel s).tpr = .none := rfl
@[simp] theorem nextAct_act (s : State) : (nextAct s).act = s.act + 1 := rfl
@[simp] theorem nextStep_step (s : State) : (nextStep s).step = s.step + 1 := rfl
@[simp] theorem nextStep_act (s : State) : (nextStep s).act = 0 := rfl
@[simp] theorem setFsm_fsm (f : Fsm) (s : State) : (setFsm f s).fsm = f := rfl
@[simp] theorem rejectIllegal_hostq (w : Word) (s : State) : (rejectIllegal w s).hostq = s.hostq := by simp [rejectIllegal]
@[simp] theorem accept_busy (w : Word) (s : State) : (accept w s).busy = true := rfl
@[simp] theorem accept_step (w : Word) (s : State) : (accept w s).step = 0 := rfl
@[simp] theorem accept_act (w : Word) (s : State) : (accept w s).act = 0 := rfl
@[simp] theorem accept_op (w : Word) (s : State) : (accept w s).op = (fields w).op := rfl
@[simp] theorem accept_blk (w : Word) (s : State) : (accept w s).blk = (fields w).blk := rfl
@[simp] theorem accept_a (w : Word) (s : State) : (accept w s).a = (fields w).a := rfl
@[simp] theorem accept_b (w : Word) (s : State) : (accept w s).b = (fields w).b := rfl
@[simp] theorem rejectIllegal_result (w : Word) (s : State) : (rejectIllegal w s).result = .illegalCommand := by simp [rejectIllegal]
@[simp] theorem interleave_bursts (s : State) : (interleave s).bursts = s.bursts.tail := rfl
@[simp] theorem interleave_drawn (s : State) : (interleave s).drawn = s.drawn + 1 := rfl
@[simp] theorem seqEmit_bursts (e : Event) (s : State) : (seqEmit e s).bursts = s.bursts.tail := rfl
@[simp] theorem delay_bursts (n : Nat) (s : State) : (delay n s).bursts = s.bursts.tail := rfl
@[simp] theorem issueWave_bursts (g high low : Nat) (blk : Bool) (s : State) :
    (issueWave g high low blk s).bursts = s.bursts.tail := rfl
@[simp] theorem acquired_bursts (s : State) : (acquired s).bursts = s.bursts.tail := rfl
@[simp] theorem copyRow_tbuf (len : Nat) (s : State) :
    (copyRow len s).tbuf = s.tbuf.map (fun m => fillBelow (rowByte s len) m s.params.rowWidth) := rfl

end Sys2Proof.Machine
end

