-- ==== Sys2Proof/Laws/Agents.lean ====
section
/-! SUPPORT. What the other agents can do between two events of the sequencer: one lemma per part of the state they touch,
first for a run of moves, then for `interleave`. -/

namespace Sys2Proof.Machine

/-- Induction over a run of moves: what every single move keeps, the run keeps. -/
theorem runMoves_induct {P : Devices → Prop} {st rs : Word} (h : ∀ m d, P d → P (moveDevices st rs m d))
    (ms : List Move) (d : Devices) (hd : P d) : P (runMoves st rs ms d) := by
  induction ms generalizing d with
  | nil => exact hd
  | cons m ms ih => exact ih _ (h m d hd)

@[simp] theorem runMoves_nil (st rs : Word) (d : Devices) : runMoves st rs [] d = d := rfl

theorem runMoves_cons (st rs : Word) (m : Move) (ms : List Move) (d : Devices) :
    runMoves st rs (m :: ms) d = runMoves st rs ms (moveDevices st rs m d) := rfl

theorem runMoves_append (st rs : Word) (ms ns : List Move) (d : Devices) :
    runMoves st rs (ms ++ ns) d = runMoves st rs ns (runMoves st rs ms d) := by
  induction ms generalizing d with
  | nil => rfl
  | cons m ms ih => exact ih _

/-! ### The trace -/

theorem segEvents_notSeq (g : Nat) (l : Level) (n : Nat) : (segEvents g l n).filter Event.bySeq = [] := by
  unfold segEvents
  split <;> simp [Event.bySeq]

/-- A move only appends events, and none of SEQ's. -/
theorem moveDevices_trace (st rs : Word) (m : Move) (d : Devices) :
    ∃ es, (moveDevices st rs m d).trace = d.trace ++ es ∧ es.filter Event.bySeq = [] ∧ es.filterMap Event.committed = [] := by
  have hseg : ∀ g l n, (segEvents g l n).filterMap Event.committed = [] := by
    intro g l n; unfold segEvents; split <;> simp [Event.committed]
  unfold moveDevices
  cases m with
  | tpg =>
    simp only [tpgPlay]
    split
    · exact ⟨[], by simp⟩
    · split
      · split
        · exact ⟨_, rfl, segEvents_notSeq _ _ _, hseg _ _ _⟩
        · exact ⟨_, rfl, by simp [Event.bySeq], by simp [Event.committed]⟩
      · exact ⟨_, rfl, segEvents_notSeq _ _ _, hseg _ _ _⟩
      · exact ⟨_, rfl, by simp [Event.bySeq], by simp [Event.committed]⟩
  | tpgFail l =>
    simp only [tpgFail]
    split
    · exact ⟨[], by simp⟩
    · exact ⟨_, rfl, by simp [Event.bySeq], by simp [Event.committed]⟩
  | xfr v =>
    simp only [xfrGo]
    split
    · split
      · exact ⟨_, rfl, by simp [Event.bySeq], by simp [Event.committed]⟩
      · exact ⟨_, rfl, by simp [Event.bySeq], by simp [Event.committed]⟩
    · exact ⟨[], by simp⟩
    · exact ⟨[], by simp⟩
  | xfrFail v =>
    simp only [xfrFail]
    split
    · exact ⟨_, rfl, by simp [Event.bySeq], by simp [Event.committed]⟩
    · exact ⟨[], by simp⟩
    · exact ⟨[], by simp⟩
  | cycle => exact ⟨[], by simp⟩
  | poll =>
    simp only [hostPoll]
    split <;> exact ⟨[], by simp⟩

theorem runMoves_trace (st rs : Word) (ms : List Move) (d : Devices) :
    ∃ es, (runMoves st rs ms d).trace = d.trace ++ es ∧ es.filter Event.bySeq = [] ∧ es.filterMap Event.committed = [] := by
  induction ms generalizing d with
  | nil => exact ⟨[], by simp⟩
  | cons m ms ih =>
    obtain ⟨es, h1, h2, h3⟩ := moveDevices_trace st rs m d
    obtain ⟨fs, k1, k2, k3⟩ := ih (moveDevices st rs m d)
    exact ⟨es ++ fs, by rw [runMoves_cons, k1, h1, List.append_assoc], by simp [h2, k2], by simp [h3, k3]⟩

/-- The other agents append events to the trace, none of them SEQ's. -/
theorem interleave_trace (s : State) :
    ∃ es, (interleave s).trace = s.trace ++ es ∧ es.filter Event.bySeq = [] ∧ es.filterMap Event.committed = [] :=
  runMoves_trace _ _ _ s.devices

@[simp] theorem seqTrace_interleave (s : State) : seqTrace (interleave s) = seqTrace s := by
  obtain ⟨es, h, h1, -⟩ := interleave_trace s
  simp [seqTrace, h, h1]

@[simp] theorem commitTrace_interleave (s : State) : commitTrace (interleave s) = commitTrace s := by
  obtain ⟨es, h, -, h2⟩ := interleave_trace s
  simp [commitTrace, h, h2]

/-! ### The cycle counter -/

theorem moveDevices_cyc (st rs : Word) (m : Move) (d : Devices) : d.cyc ≤ (moveDevices st rs m d).cyc := by
  unfold moveDevices
  cases m with
  | tpg => simp only [tpgPlay]; split <;> (try split) <;> (try split) <;> exact Nat.le_refl _
  | tpgFail l => simp only [tpgFail]; split <;> exact Nat.le_refl _
  | xfr v => simp only [xfrGo]; split <;> (try split) <;> exact Nat.le_refl _
  | xfrFail v => simp only [xfrFail]; split <;> exact Nat.le_refl _
  | cycle => exact Nat.le_succ _
  | poll => simp only [hostPoll]; split <;> exact Nat.le_refl _

/-- `CYC` never goes back (10_state.md R27). -/
theorem interleave_cyc (s : State) : s.cyc ≤ (interleave s).cyc :=
  runMoves_induct (P := fun d => s.cyc ≤ d.cyc) (fun m d h => Nat.le_trans h (moveDevices_cyc _ _ m d)) _ s.devices
    (Nat.le_refl _)

/-! ### The transfer -/

theorem moveDevices_xf_none (st rs : Word) (m : Move) (d : Devices) (h : d.xf = .none) :
    (moveDevices st rs m d).xf = .none ∧ (moveDevices st rs m d).bus = d.bus := by
  unfold moveDevices
  cases m with
  | tpg => simp only [tpgPlay]; split <;> (try split) <;> (try split) <;> simp [h]
  | tpgFail l => simp only [tpgFail]; split <;> simp [h]
  | xfr v => simp [xfrGo, h]
  | xfrFail v => simp [xfrFail, h]
  | cycle => simp [h]
  | poll => simp only [hostPoll]; split <;> simp [h]

/-- With no transfer in flight none begins, and the bus lines keep their level. -/
theorem interleave_xf_none (s : State) (h : s.xf = .none) : (interleave s).xf = .none ∧ (interleave s).bus = s.bus :=
  runMoves_induct (P := fun d => d.xf = .none ∧ d.bus = s.bus)
    (fun m d hd => by
      obtain ⟨h1, h2⟩ := moveDevices_xf_none (statusWord s) (resultWord s) m d hd.1
      exact ⟨h1, h2.trans hd.2⟩) _ s.devices ⟨h, rfl⟩

theorem moveDevices_xf_ended (st rs : Word) (m : Move) (d : Devices) (ok : Bool) (h : d.xf = .ended ok) :
    (moveDevices st rs m d).xf = .ended ok := by
  unfold moveDevices
  cases m with
  | tpg => simp only [tpgPlay]; split <;> (try split) <;> (try split) <;> simp [h]
  | tpgFail l => simp only [tpgFail]; split <;> simp [h]
  | xfr v => simp [xfrGo, h]
  | xfrFail v => simp [xfrFail, h]
  | cycle => simp [h]
  | poll => simp only [hostPoll]; split <;> simp [h]

/-- A transfer that is over stays over, with its outcome, until SEQ takes it. -/
theorem interleave_xf_ended (s : State) (ok : Bool) (h : s.xf = .ended ok) : (interleave s).xf = .ended ok :=
  runMoves_induct (P := fun d => d.xf = .ended ok) (fun m d hd => moveDevices_xf_ended _ _ m d ok hd) _ s.devices h

/-- A transfer in flight goes on with the same bytes, or is over. -/
def transferGoesOn (data : List Byte) (x : Transfer) : Prop :=
  (∃ k, x = .active data k ∧ k ≤ data.length) ∨ ∃ ok, x = .ended ok

theorem moveDevices_xf_active (st rs : Word) (m : Move) (d : Devices) (data : List Byte)
    (h : transferGoesOn data d.xf) : transferGoesOn data (moveDevices st rs m d).xf := by
  unfold moveDevices
  cases m with
  | tpg => simp only [tpgPlay]; split <;> (try split) <;> (try split) <;> exact h
  | tpgFail l => simp only [tpgFail]; split <;> exact h
  | xfr v =>
    simp only [xfrGo]
    rcases h with ⟨k, hk, hle⟩ | ⟨ok, hok⟩
    · rw [hk]
      simp only
      split
      · rename_i b hb
        have : k < data.length := by
          by_contra hc
          rw [List.getElem?_eq_none (by omega)] at hb
          cases hb
        exact .inl ⟨k + 1, rfl, this⟩
      · exact .inr ⟨true, rfl⟩
    · rw [hok]
      exact .inr ⟨ok, hok⟩
  | xfrFail v =>
    simp only [xfrFail]
    rcases h with ⟨k, hk, hle⟩ | ⟨ok, hok⟩
    · rw [hk]
      exact .inr ⟨false, rfl⟩
    · rw [hok]
      exact .inr ⟨ok, hok⟩
  | cycle => exact h
  | poll => simp only [hostPoll]; split <;> exact h

theorem interleave_xf_active (s : State) (data : List Byte) (h : transferGoesOn data s.xf) :
    transferGoesOn data (interleave s).xf :=
  runMoves_induct (P := fun d => transferGoesOn data d.xf) (fun m d hd => moveDevices_xf_active _ _ m d data hd) _
    s.devices h

/-- With no transfer in flight, the other agents add no event of a transfer. -/
theorem moveDevices_noTransfer (st rs : Word) (m : Move) (d : Devices) (h : d.xf = .none) :
    (moveDevices st rs m d).trace.filter Event.byTransfer = d.trace.filter Event.byTransfer := by
  have hseg : ∀ g l n, (segEvents g l n).filter Event.byTransfer = [] := by
    intro g l n; unfold segEvents; split <;> simp [Event.byTransfer]
  unfold moveDevices
  cases m with
  | tpg => simp only [tpgPlay]; split <;> (try split) <;> (try split) <;> simp [hseg, Event.byTransfer]
  | tpgFail l => simp only [tpgFail]; split <;> simp [Event.byTransfer]
  | xfr v => simp [xfrGo, h]
  | xfrFail v => simp [xfrFail, h]
  | cycle => rfl
  | poll => simp only [hostPoll]; split <;> rfl

/-- No transfer is in flight, and the transfers' events so far are `es`. -/
def State.noTransfer (es : List Event) (s : State) : Prop := s.xf = .none ∧ transferTrace s = es

/-- Both parts pass unchanged through an operation that touches neither. -/
theorem State.noTransfer.of_eq {es : List Event} {s t : State} (h : s.noTransfer es) (hx : t.xf = s.xf)
    (ht : t.trace = s.trace) : t.noTransfer es := ⟨hx.trans h.1, by rw [← h.2, transferTrace, ht, transferTrace]⟩

theorem State.noTransfer.interleave {es : List Event} {s : State} (h : s.noTransfer es) :
    (Machine.interleave s).noTransfer es :=
  runMoves_induct (P := fun d => d.xf = .none ∧ d.trace.filter Event.byTransfer = es)
    (fun m d hd => ⟨(moveDevices_xf_none _ _ m d hd.1).1, (moveDevices_noTransfer _ _ m d hd.1).trans hd.2⟩) _ s.devices h

/-- An event of SEQ that is no transfer's issue. -/
theorem State.noTransfer.seqEmit {es : List Event} {s : State} (e : Event) (he : e.byTransfer = false)
    (h : s.noTransfer es) : (Machine.seqEmit e s).noTransfer es := by
  refine ⟨h.interleave.1, ?_⟩
  rw [← h.interleave.2]
  simp [transferTrace, Machine.seqEmit, he]

/-! ### The waveform queue -/

/-- What one move does to the queue and the latch: nothing; the head's phase advances; the head leaves. -/
theorem moveDevices_pq (st rs : Word) (m : Move) (d : Devices) :
    ((moveDevices st rs m d).pq = d.pq ∧ (moveDevices st rs m d).tpr = d.tpr) ∨
    (∃ w rest p, d.pq = w :: rest ∧ (moveDevices st rs m d).pq = { w with phase := p } :: rest ∧
      (moveDevices st rs m d).tpr = d.tpr) ∨
    (∃ w rest r, d.pq = w :: rest ∧ (moveDevices st rs m d).pq = rest ∧ r ≠ PulseResult.none ∧
      (moveDevices st rs m d).tpr = if w.blk then r else d.tpr) := by
  unfold moveDevices
  cases m with
  | tpg =>
    simp only [tpgPlay]
    split
    · exact .inl ⟨rfl, rfl⟩
    · rename_i w rest hpq
      split
      · split
        · exact .inr (.inl ⟨w, rest, .low, hpq, rfl, rfl⟩)
        · exact .inr (.inl ⟨w, rest, .high, hpq, rfl, rfl⟩)
      · exact .inr (.inl ⟨w, rest, .low, hpq, rfl, rfl⟩)
      · exact .inr (.inr ⟨w, rest, .ended, hpq, rfl, by simp, rfl⟩)
  | tpgFail l =>
    simp only [tpgFail]
    split
    · exact .inl ⟨rfl, rfl⟩
    · rename_i w rest hpq
      exact .inr (.inr ⟨w, rest, .failed, hpq, rfl, by simp, rfl⟩)
  | xfr v => simp only [xfrGo]; split <;> (try split) <;> exact .inl ⟨rfl, rfl⟩
  | xfrFail v => simp only [xfrFail]; split <;> exact .inl ⟨rfl, rfl⟩
  | cycle => exact .inl ⟨rfl, rfl⟩
  | poll => simp only [hostPoll]; split <;> exact .inl ⟨rfl, rfl⟩

/-- Induction over what the other agents do to the queue and the latch: a property kept when the head's phase changes and
when the head leaves is kept by `interleave`. -/
theorem interleave_queue {P : List Wave → PulseResult → Prop} (s : State)
    (hphase : ∀ w rest r p, P (w :: rest) r → P ({ w with phase := p } :: rest) r)
    (hleave : ∀ w rest r r', r' ≠ PulseResult.none → P (w :: rest) r → P rest (if w.blk then r' else r))
    (h : P s.pq s.tpr) : P (interleave s).pq (interleave s).tpr :=
  runMoves_induct (P := fun d => P d.pq d.tpr)
    (fun m d hd => by
      rcases moveDevices_pq (statusWord s) (resultWord s) m d with ⟨h1, h2⟩ | ⟨w, rest, p, h0, h1, h2⟩ |
        ⟨w, rest, r, h0, h1, hr, h2⟩
      · rw [h1, h2]; exact hd
      · rw [h1, h2]; rw [h0] at hd; exact hphase w rest _ p hd
      · rw [h1, h2]; rw [h0] at hd; exact hleave w rest _ r hr hd) _ s.devices h

/-! ### HOST's pending accesses -/

theorem moveDevices_hostq (st rs : Word) (m : Move) (d : Devices) (op : HostOp) (rest : List HostOp)
    (hop : ∀ o n, op ≠ .read o n) (h : d.hostq = op :: rest) : (moveDevices st rs m d).hostq = op :: rest := by
  unfold moveDevices
  cases m with
  | tpg => simp only [tpgPlay]; split <;> (try split) <;> (try split) <;> exact h
  | tpgFail l => simp only [tpgFail]; split <;> exact h
  | xfr v => simp only [xfrGo]; split <;> (try split) <;> exact h
  | xfrFail v => simp only [xfrFail]; split <;> exact h
  | cycle => exact h
  | poll =>
    simp only [hostPoll]
    split
    · rename_i hq; rw [h] at hq; simp only [List.cons.injEq] at hq; exact absurd hq.1 (hop _ _)
    · rename_i hq; rw [h] at hq; simp only [List.cons.injEq] at hq; exact absurd hq.1 (hop _ _)
    · exact h

/-- A pending access other than a read waits. -/
theorem interleave_hostq (s : State) (op : HostOp) (rest : List HostOp) (hop : ∀ o n, op ≠ .read o n)
    (h : s.hostq = op :: rest) : (interleave s).hostq = op :: rest :=
  runMoves_induct (P := fun d => d.hostq = op :: rest) (fun m d hd => moveDevices_hostq _ _ m d op rest hop hd) _
    s.devices h

/-! ### What HOST's polls take and add -/

/-- From `d` to `e`, HOST took polls from the front of its list, and each returned its register. -/
def polledTo (st rs : Word) (d e : Devices) : Prop :=
  ∃ polls : List Poll, d.hostq = polls.map Poll.access ++ e.hostq ∧ e.reads = d.reads ++ polls.map (Poll.answer st rs)

theorem polledTo_refl (st rs : Word) (d e : Devices) (h : e.hostq = d.hostq) (hr : e.reads = d.reads) :
    polledTo st rs d e := ⟨[], by simp [h], by simp [hr]⟩

theorem moveDevices_polled (st rs : Word) (m : Move) (d : Devices) : polledTo st rs d (moveDevices st rs m d) := by
  unfold moveDevices
  cases m with
  | tpg => simp only [tpgPlay]; split <;> (try split) <;> (try split) <;> exact polledTo_refl _ _ _ _ rfl rfl
  | tpgFail l => simp only [tpgFail]; split <;> exact polledTo_refl _ _ _ _ rfl rfl
  | xfr v => simp only [xfrGo]; split <;> (try split) <;> exact polledTo_refl _ _ _ _ rfl rfl
  | xfrFail v => simp only [xfrFail]; split <;> exact polledTo_refl _ _ _ _ rfl rfl
  | cycle => exact polledTo_refl _ _ _ _ rfl rfl
  | poll =>
    simp only [hostPoll]
    split
    · rename_i h; exact ⟨[.status], h, rfl⟩
    · rename_i h; exact ⟨[.result], h, rfl⟩
    · exact polledTo_refl _ _ _ _ rfl rfl

/-- Of HOST's lists the other agents' moves change only this: polls are taken from the front, and each returns its
register. -/
theorem interleave_polled (s : State) : polledTo (statusWord s) (resultWord s) s.devices (interleave s).devices :=
  runMoves_induct (P := fun d => polledTo (statusWord s) (resultWord s) s.devices d)
    (fun m d ⟨ps, h1, h2⟩ => by
      obtain ⟨qs, h3, h4⟩ := moveDevices_polled (statusWord s) (resultWord s) m d
      exact ⟨ps ++ qs, by rw [h1, h3]; simp, by rw [h4, h2]; simp⟩)
    _ s.devices (polledTo_refl _ _ _ _ rfl rfl)

/-! ### Only the other agents -/

/-- The part of the devices that a claim about "only the other agents" speaks of. -/
def Devices.core (d : Devices) : List Wave × PulseResult × Level × Transfer × Byte := (d.pq, d.tpr, d.tpOut, d.xf, d.bus)

theorem moveDevices_core (st rs st' rs' : Word) (m : Move) (d e : Devices) (h : d.core = e.core) :
    (moveDevices st rs m d).core = (moveDevices st' rs' m e).core := by
  simp only [Devices.core, Prod.mk.injEq] at h
  obtain ⟨h1, h2, h3, h4, h5⟩ := h
  unfold moveDevices Devices.core
  cases m with
  | tpg =>
    simp only [tpgPlay, h1]
    split
    · simp [h1, h2, h3, h4, h5]
    · split <;> (try split) <;> simp [h2, h4, h5]
  | tpgFail l =>
    simp only [tpgFail, h1]
    split <;> simp [h1, h2, h3, h4, h5]
  | xfr v =>
    simp only [xfrGo, h4]
    split
    · split <;> simp [h1, h2, h3]
    · simp [h1, h2, h3, h4, h5]
    · simp [h1, h2, h3, h4, h5]
  | xfrFail v =>
    simp only [xfrFail, h4]
    split <;> simp [h1, h2, h3, h4, h5]
  | cycle => simp [h1, h2, h3, h4, h5]
  | poll =>
    have hp : ∀ (a b : Word) (x : Devices), (hostPoll a b x).pq = x.pq ∧ (hostPoll a b x).tpr = x.tpr ∧
        (hostPoll a b x).tpOut = x.tpOut ∧ (hostPoll a b x).xf = x.xf ∧ (hostPoll a b x).bus = x.bus := by
      intro a b x; unfold hostPoll; split <;> exact ⟨rfl, rfl, rfl, rfl, rfl⟩
    obtain ⟨a1, a2, a3, a4, a5⟩ := hp st rs d
    obtain ⟨b1, b2, b3, b4, b5⟩ := hp st' rs' e
    simp [a1, a2, a3, a4, a5, b1, b2, b3, b4, b5, h1, h2, h3, h4, h5]

theorem runMoves_core (st rs st' rs' : Word) (ms : List Move) (d e : Devices) (h : d.core = e.core) :
    (runMoves st rs ms d).core = (runMoves st' rs' ms e).core := by
  induction ms generalizing d e with
  | nil => exact h
  | cons m ms ih => exact ih _ _ (moveDevices_core st rs st' rs' m d e h)

theorem agentsOnly_iff (s t : State) :
    AgentsOnly s t ↔ ∃ ms, ∀ st rs, t.devices.core = (runMoves st rs ms s.devices).core := by
  simp [AgentsOnly, Devices.core, State.devices]

/-- The devices of `s` and `t` agree: everything the other agents own is the same. -/
theorem AgentsOnly.of_core {s t : State} (h : t.devices.core = s.devices.core) : AgentsOnly s t :=
  (agentsOnly_iff s t).2 ⟨[], fun _ _ => h⟩

theorem AgentsOnly.refl (s : State) : AgentsOnly s s := .of_core rfl

theorem AgentsOnly.trans {s t u : State} (h1 : AgentsOnly s t) (h2 : AgentsOnly t u) : AgentsOnly s u := by
  rw [agentsOnly_iff] at *
  obtain ⟨ms, h1⟩ := h1
  obtain ⟨ns, h2⟩ := h2
  refine ⟨ms ++ ns, fun st rs => ?_⟩
  rw [runMoves_append, h2 st rs]
  exact runMoves_core _ _ _ _ _ _ _ (h1 st rs)

theorem agentsOnly_interleave (s : State) : AgentsOnly s (interleave s) :=
  (agentsOnly_iff _ _).2 ⟨nextBurst s, fun st rs => runMoves_core _ _ st rs _ _ _ rfl⟩

/-- What TPG's own steps read and write. -/
def Devices.tpg (d : Devices) : List Wave × PulseResult × Level := (d.pq, d.tpr, d.tpOut)

theorem moveDevices_tpg (st rs st' rs' : Word) (m : Move) (d e : Devices) (h : d.tpg = e.tpg) :
    (moveDevices st rs m d).tpg = (moveDevices st' rs' m e).tpg := by
  simp only [Devices.tpg, Prod.mk.injEq] at h
  obtain ⟨h1, h2, h3⟩ := h
  have keep : ∀ x : Devices, (∀ v, (xfrGo v x).tpg = x.tpg ∧ (xfrFail v x).tpg = x.tpg) ∧
      ∀ a b, (hostPoll a b x).tpg = x.tpg := by
    intro x
    refine ⟨fun v => ⟨?_, ?_⟩, fun a b => ?_⟩
    · unfold xfrGo; split <;> (try split) <;> rfl
    · unfold xfrFail; split <;> rfl
    · unfold hostPoll; split <;> rfl
  have hde : d.tpg = e.tpg := by simp [Devices.tpg, h1, h2, h3]
  cases m with
  | tpg =>
    simp only [moveDevices, tpgPlay, Devices.tpg, h1]
    split
    · simp [h1, h2, h3]
    · split <;> (try split) <;> simp [h2]
  | tpgFail l =>
    simp only [moveDevices, tpgFail, Devices.tpg, h1]
    split <;> simp [h1, h2, h3]
  | xfr v => simpa only [moveDevices, ((keep _).1 v).1] using hde
  | xfrFail v => simpa only [moveDevices, ((keep _).1 v).2] using hde
  | cycle => exact hde
  | poll => simpa only [moveDevices, (keep _).2] using hde

theorem runMoves_tpg (st rs st' rs' : Word) (ms : List Move) (d e : Devices) (h : d.tpg = e.tpg) :
    (runMoves st rs ms d).tpg = (runMoves st' rs' ms e).tpg := by
  induction ms generalizing d e with
  | nil => exact h
  | cons m ms ih => exact ih _ _ (moveDevices_tpg st rs st' rs' m d e h)

theorem tpgOnly_iff (s t : State) :
    TpgOnly s t ↔ ∃ ms, ∀ st rs, t.devices.tpg = (runMoves st rs ms s.devices).tpg := by
  simp [TpgOnly, Devices.tpg, State.devices]

/-- The queue, the latch and the pin of `s` and `t` agree. -/
theorem TpgOnly.of_tpg {s t : State} (h : t.devices.tpg = s.devices.tpg) : TpgOnly s t :=
  (tpgOnly_iff s t).2 ⟨[], fun _ _ => h⟩

theorem TpgOnly.trans {s t u : State} (h1 : TpgOnly s t) (h2 : TpgOnly t u) : TpgOnly s u := by
  rw [tpgOnly_iff] at *
  obtain ⟨ms, h1⟩ := h1
  obtain ⟨ns, h2⟩ := h2
  refine ⟨ms ++ ns, fun st rs => ?_⟩
  rw [runMoves_append, h2 st rs]
  exact runMoves_tpg _ _ _ _ _ _ _ (h1 st rs)

theorem AgentsOnly.tpgOnly {s t : State} (h : AgentsOnly s t) : TpgOnly s t := by
  obtain ⟨ms, h⟩ := h
  exact ⟨ms, fun st rs => ⟨(h st rs).1, (h st rs).2.1, (h st rs).2.2.1⟩⟩

theorem agentsOnly_seqEmit (e : Event) (s : State) : AgentsOnly s (seqEmit e s) :=
  (agentsOnly_interleave s).trans (.of_core rfl)

end Sys2Proof.Machine
end

