-- ==== Sys2Proof/Laws/Decode.lean ====
section
/-! SUPPORT. The laws of the command word: its fields and the word determine each other, and what a word that decodes must
look like. -/

namespace Sys2Proof

/-- The fields of an assembled word are the fields it was assembled from (30_encoding.md R60). -/
@[simp] theorem fields_word (f : Fields) : fields f.word = f := by
  obtain ⟨op, blk, z, a, b⟩ := f
  simp only [fields, Fields.word, Fields.mk.injEq]
  refine ⟨?_, ?_, ?_, ?_, ?_⟩ <;> apply BitVec.eq_of_getLsbD_eq <;> intro i hi <;>
    simp only [BitVec.getLsbD_append, BitVec.getLsbD_extractLsb', hi, decide_true, Bool.true_and]
  · rw [if_neg (by omega), if_neg (by omega), if_neg (by omega), if_neg (by omega)]; congr 1; omega
  · rw [if_neg (by omega), if_neg (by omega), if_neg (by omega), if_pos (by omega)]; congr 1; omega
  · rw [if_neg (by omega), if_neg (by omega), if_pos (by omega)]; congr 1; omega
  · rw [if_neg (by omega), if_pos (by omega)]; congr 1; omega
  · rw [if_pos (by omega)]; congr 1; omega

/-- Every bit of a word belongs to one of its fields (R60). -/
@[simp] theorem word_fields (w : Word) : (fields w).word = w := by
  apply BitVec.eq_of_getLsbD_eq
  intro i hi
  simp only [fields, Fields.word, BitVec.getLsbD_append, BitVec.getLsbD_extractLsb']
  by_cases h1 : i < 12
  · simp [h1]
  · by_cases h2 : i < 24
    · rw [if_neg h1, if_pos (by omega)]
      simp [show i - 12 < 12 by omega, show 12 + (i - 12) = i by omega]
    · by_cases h3 : i < 27
      · rw [if_neg h1, if_neg (by omega), if_pos (by omega)]
        simp [show i - 12 - 12 < 3 by omega, show 24 + (i - 12 - 12) = i by omega]
      · by_cases h4 : i < 28
        · rw [if_neg h1, if_neg (by omega), if_neg (by omega), if_pos (by omega)]
          simp [show i = 27 by omega]
        · rw [if_neg h1, if_neg (by omega), if_neg (by omega), if_neg (by omega)]
          simp [show i - 12 - 12 - 3 - 1 < 4 by omega, show 28 + (i - 12 - 12 - 3 - 1) = i by omega]

theorem plain_ok {i j : Instr} {f : Fields} (h : plain i f = .ok j) : j = i ∧ f.blk = 0 ∧ f.a = 0 ∧ f.b = 0 := by
  unfold plain at h
  split at h
  · cases h
  · split at h
    · cases h
    · cases h
      simp_all

/-- A word that decodes has the fields of the command it decodes to, every one of them (R61, R69). -/
theorem decode_ok {w : Word} {i : Instr} (h : decode w = .ok i) : i.fields = fields w := by
  have hblk : ∀ x : BitVec 1, BitVec.ofBool (x == 1) = x := by decide
  unfold decode at h
  simp only at h
  split at h
  · cases h
  · rename_i hz
    have hz : (fields w).z = 0 := by simpa using hz
    generalize fields w = f at *
    obtain ⟨op, blk, z, a, b⟩ := f
    simp only at hz
    subst hz
    unfold decodeFields at h
    split at h
    all_goals rename_i hop; simp only at hop
    case h_2 =>
      cases h
      have hop : op = 2 := BitVec.eq_of_toNat_eq hop
      simp only [Instr.fields, hop, Fields.mk.injEq, true_and, and_true]
      exact hblk blk
    case h_7 =>
      split at h
      · cases h
      · rename_i hb
        cases h
        have hop : op = 7 := BitVec.eq_of_toNat_eq hop
        simp only [Decidable.not_not] at hb
        simp [Instr.fields, hop, hb]
    case h_10 => cases h
    all_goals
      obtain ⟨rfl, h1, h2, h3⟩ := plain_ok h
      simp only at h1 h2 h3
      subst h1 h2 h3
      simp only [Instr.fields, Fields.mk.injEq, and_true]
      exact (BitVec.eq_of_toNat_eq hop).symm

/-- A word's fields decide what it decodes to: `Z = 0` and the fields' row of the table. -/
theorem decode_word (f : Fields) : decode f.word = if f.z ≠ 0 then .error (.reservedZ f.z) else decodeFields f := by
  simp [decode]

/-- A property of every assembled word is a property of every word. -/
theorem word_split {P : Word → Prop} (h : ∀ f : Fields, P f.word) (w : Word) : P w := by
  rw [← word_fields w]
  exact h _

theorem word_inj (f g : Fields) : f.word = g.word ↔ f = g :=
  ⟨fun h => by rw [← fields_word f, h, fields_word], congrArg Fields.word⟩

/-- Masking a word masks each of its fields. -/
theorem and_word (f g : Fields) :
    f.word &&& g.word = Fields.word ⟨f.op &&& g.op, f.blk &&& g.blk, f.z &&& g.z, f.a &&& g.a, f.b &&& g.b⟩ := by
  apply BitVec.eq_of_getLsbD_eq
  intro i hi
  simp only [Fields.word, BitVec.getLsbD_and, BitVec.getLsbD_append]
  repeat' split
  all_goals rfl

/-- A row of the table selects a word field by field (R61). -/
theorem selects_word (f mask pattern : Fields) (name : String) :
    (OpcodeRow.mk name pattern.word mask.word).selects f.word = true ↔
      f.op &&& mask.op = pattern.op ∧ f.blk &&& mask.blk = pattern.blk ∧ f.z &&& mask.z = pattern.z ∧
        f.a &&& mask.a = pattern.a ∧ f.b &&& mask.b = pattern.b := by
  obtain ⟨op, blk, z, a, b⟩ := pattern
  simp only [OpcodeRow.selects, beq_iff_eq, and_word, word_inj, Fields.mk.injEq]

end Sys2Proof
end

