-- ==== Sys2Proof/Laws/Memory.lean ====
section
/-! SUPPORT. The laws of the byte arrays: a read after a write, the canonical form, and what a fill leaves. -/

namespace Sys2Proof.Machine

@[simp] theorem Memory.read_nil (i : Nat) : Memory.read [] i = none := rfl

@[simp] theorem Memory.read_write_same (m : Memory) (i : Nat) (v : Byte) : (m.write i v).read i = some v := by
  induction m with
  | nil => simp [Memory.write, Memory.read]
  | cons c m ih =>
    simp only [Memory.write]
    split
    · simp [Memory.read]
    · split
      · simp [Memory.read]
      · simp only [Memory.read]
        rw [if_neg (by omega), ih]

theorem Memory.read_write_other (m : Memory) {i j : Nat} (v : Byte) (h : j ≠ i) : (m.write i v).read j = m.read j := by
  induction m with
  | nil => simp [Memory.write, Memory.read, Ne.symm h]
  | cons c m ih =>
    simp only [Memory.write]
    split
    · simp [Memory.read, Ne.symm h]
    · split
      · simp only [Memory.read]
        rw [if_neg (Ne.symm h), if_neg (by omega)]
      · simp only [Memory.read, ih]

theorem Memory.mem_write {m : Memory} {i : Nat} {v : Byte} {c : Host.Cell} (h : c ∈ m.write i v) :
    c = (i, v) ∨ c ∈ m := by
  induction m with
  | nil => simpa [Memory.write] using h
  | cons d m ih =>
    simp only [Memory.write] at h
    split at h
    · simpa using h
    · split at h
      · rcases List.mem_cons.1 h with h | h
        · exact .inl h
        · exact .inr (List.mem_cons_of_mem _ h)
      · rcases List.mem_cons.1 h with h | h
        · exact .inr (h ▸ List.mem_cons_self)
        · exact (ih h).imp_right (List.mem_cons_of_mem _)

/-- A store keeps the canonical form. -/
theorem Memory.wf_write {m : Memory} (i : Nat) (v : Byte) (h : m.wf) : (m.write i v).wf := by
  induction m with
  | nil => simp [Memory.write, Memory.wf]
  | cons c m ih =>
    simp only [Memory.wf, List.map_cons, List.pairwise_cons, List.mem_map, forall_exists_index, and_imp] at h
    obtain ⟨h1, h2⟩ := h
    simp only [Memory.write]
    split
    · rename_i hi
      simp only [Memory.wf, List.map_cons, List.pairwise_cons, List.mem_cons, List.mem_map]
      refine ⟨?_, fun a ha => ?_, h2⟩
      · rintro a (rfl | ⟨x, hx, rfl⟩)
        · exact hi
        · exact Nat.lt_trans hi (h1 _ x hx rfl)
      · obtain ⟨x, hx, rfl⟩ := ha
        exact h1 _ x hx rfl
    · split
      · rename_i hi
        simp only [Memory.wf, List.map_cons, List.pairwise_cons, List.mem_map]
        refine ⟨?_, h2⟩
        rintro a ⟨x, hx, rfl⟩
        exact hi ▸ h1 _ x hx rfl
      · rename_i hlt hne
        simp only [Memory.wf, List.map_cons, List.pairwise_cons, List.mem_map]
        refine ⟨?_, ih h2⟩
        rintro a ⟨x, hx, rfl⟩
        rcases Memory.mem_write hx with rfl | hx
        · exact Nat.lt_of_le_of_ne (Nat.le_of_not_lt hlt) (fun h => hne h.symm)
        · exact h1 _ x hx rfl

theorem Memory.within_write {m : Memory} {n i : Nat} (v : Byte) (hi : i < n) (h : m.within n) :
    (m.write i v).within n := fun c hc => by
  rcases Memory.mem_write hc with rfl | hc
  · exact hi
  · exact h c hc

/-- What a fill leaves: the filled bytes below `n`, the old ones from `n` up. -/
theorem fillBelow_read (v : Nat → Byte) (m : Memory) (n i : Nat) :
    (fillBelow v m n).read i = if i < n then some (v i) else m.read i := by
  induction n with
  | zero => simp [fillBelow]
  | succ n ih =>
    have hstep : fillBelow v m (n + 1) = (fillBelow v m n).write n (v n) := by
      simp [fillBelow, List.range_succ]
    rw [hstep]
    by_cases h : i = n
    · subst h
      simp
    · rw [Memory.read_write_other _ _ h, ih]
      by_cases hi : i < n
      · rw [if_pos hi, if_pos (by omega)]
      · rw [if_neg hi, if_neg (by omega)]

theorem fillBelow_wf (v : Nat → Byte) {m : Memory} (n : Nat) (h : m.wf) : (fillBelow v m n).wf := by
  unfold fillBelow
  induction List.range n generalizing m with
  | nil => exact h
  | cons i is ih => exact ih (Memory.wf_write i (v i) h)

theorem fillBelow_within (v : Nat → Byte) {m : Memory} (n : Nat) (h : m.within n) : (fillBelow v m n).within n := by
  have key : ∀ (is : List Nat) (m : Memory), (∀ i ∈ is, i < n) → m.within n →
      (is.foldl (fun m i => m.write i (v i)) m).within n := by
    intro is
    induction is with
    | nil => exact fun m _ h => h
    | cons i is ih =>
      intro m hi h
      exact ih _ (fun j hj => hi j (List.mem_cons_of_mem _ hj))
        (Memory.within_write (v i) (hi i List.mem_cons_self) h)
  exact key _ m (fun i hi => List.mem_range.1 hi) h

/-- Two canonical contents that read alike are the same list. -/
theorem Memory.ext_of_read {m n : Memory} (hm : m.wf) (hn : n.wf) (h : ∀ i, m.read i = n.read i) : m = n := by
  have hnone : ∀ (m : Memory) (i : Nat), (∀ c ∈ m, i < c.1) → m.read i = none := by
    intro m i
    induction m with
    | nil => exact fun _ => rfl
    | cons c m ih =>
      intro hlt
      simp only [Memory.read]
      rw [if_neg (by have := hlt c List.mem_cons_self; omega), ih fun d hd => hlt d (List.mem_cons_of_mem _ hd)]
  have hrise : ∀ {c : Host.Cell} {m : Memory}, Memory.wf (c :: m) → ∀ d ∈ m, c.1 < d.1 := by
    intro c m hw d hd
    simp only [Memory.wf, List.map_cons, List.pairwise_cons] at hw
    exact hw.1 _ (List.mem_map_of_mem hd)
  induction m generalizing n with
  | nil =>
    cases n with
    | nil => rfl
    | cons c n => have := h c.1; simp [Memory.read] at this
  | cons c m ih =>
    cases n with
    | nil => have := h c.1; simp [Memory.read] at this
    | cons d n =>
      have hcd : c.1 = d.1 := by
        rcases Nat.lt_trichotomy c.1 d.1 with hl | he | hl
        · have := h c.1
          rw [hnone (d :: n) c.1] at this
          · simp [Memory.read] at this
          · intro e he
            rcases List.mem_cons.1 he with rfl | he
            · exact hl
            · exact Nat.lt_trans hl (hrise hn e he)
        · exact he
        · have := h d.1
          rw [hnone (c :: m) d.1] at this
          · simp [Memory.read] at this
          · intro e he
            rcases List.mem_cons.1 he with rfl | he
            · exact hl
            · exact Nat.lt_trans hl (hrise hm e he)
      have hv : c.2 = d.2 := by
        have := h c.1
        simpa [Memory.read, hcd] using this
      have : m = n := by
        refine ih ?_ ?_ fun i => ?_
        · simp only [Memory.wf, List.map_cons, List.pairwise_cons] at hm; exact hm.2
        · simp only [Memory.wf, List.map_cons, List.pairwise_cons] at hn; exact hn.2
        · by_cases hi : i = c.1
          · subst hi
            rw [hnone m c.1 (hrise hm), hnone n c.1 (fun e he => hcd ▸ hrise hn e he)]
          · have := h i
            simp only [Memory.read] at this
            rwa [if_neg (Ne.symm hi), if_neg (fun hh => hi (hcd.trans hh).symm)] at this
      rw [Prod.ext hcd hv, this]

end Sys2Proof.Machine
end

