-- ==== Sys2Proof/Laws/Ops.lean ====
section
/-! SUPPORT. What each shared operation does: the events it adds, the commits it makes, the registers it sets, and the one
induction over the run of a command. -/

namespace Sys2Proof.Machine

/-! ### SEQ's events -/

theorem seqTrace_seqEmit (e : Event) (s : State) (h : e.bySeq = true) : seqTrace (seqEmit e s) = seqTrace s ++ [e] := by
  have : seqTrace (seqEmit e s) = seqTrace (interleave s) ++ [e] := by simp [seqTrace, seqEmit, h]
  rw [this, seqTrace_interleave]

@[simp] theorem seqTrace_raise (c : Cause) (s : State) : seqTrace (raise c s) = seqTrace s ++ [.ret c] :=
  seqTrace_seqEmit (.ret c) s rfl

@[simp] theorem seqTrace_returnOk (s : State) : seqTrace (returnOk s) = seqTrace s ++ [.ret .ok] :=
  seqTrace_seqEmit (.ret .ok) s rfl

@[simp] theorem seqTrace_setField (f : CfgField) (b : Bool) (s : State) : seqTrace (setField f b s) = seqTrace s := rfl

theorem seqTrace_seqEmits (es : List Event) (s : State) (h : ∀ e ∈ es, e.bySeq = true) :
    seqTrace (seqEmits es s) = seqTrace s ++ es := by
  induction es generalizing s with
  | nil => simp [seqEmits]
  | cons e es ih =>
    rw [seqEmits, ih _ (fun x hx => h x (List.mem_cons_of_mem _ hx)), seqTrace_seqEmit _ _ (h e List.mem_cons_self)]
    simp

@[simp] theorem seqTrace_withoutHost (f : State → State) (s : State) :
    seqTrace (withoutHost f s) = seqTrace (f { s with hostq := [] }) := rfl

@[simp] theorem seqTrace_driveCommit (s : State) : seqTrace (driveCommit s) = seqTrace s := by simp [seqTrace]

theorem commitEvents_bySeq (v : Byte) : ∀ e ∈ commitEvents v, e.bySeq = true := by
  simp only [commitEvents, List.mem_append, List.mem_map, List.mem_singleton]
  rintro e (⟨w, -, rfl⟩ | rfl) <;> rfl

@[simp] theorem seqTrace_commit (s : State) : seqTrace (commit s) = seqTrace s ++ commitEvents s.cfg := by
  rw [commit, seqTrace_withoutHost, seqTrace_seqEmits _ _ (commitEvents_bySeq _)]
  have : seqTrace { driveCommit s with hostq := [] } = seqTrace (driveCommit s) := rfl
  rw [this, seqTrace_driveCommit]

@[simp] theorem seqTrace_beforeAccess (s : State) : seqTrace (beforeAccess s) = seqTrace s := by
  have : seqTrace (beforeAccess s) = seqTrace (interleave { s with hostq := [] }) := rfl
  rw [this, seqTrace_interleave]
  rfl

/-- What holds whatever HOST has pending, and is kept when lines and panel are driven and when SEQ emits, a commit keeps. -/
theorem commit_induct {P : State → Prop} {s : State} (hq : ∀ s q, P s → P { s with hostq := q })
    (hd : P s → P (driveCommit s)) (he : ∀ e ∈ commitEvents s.cfg, ∀ s, P s → P (seqEmit e s)) (h : P s) : P (commit s) := by
  have hes : ∀ es : List Event, (∀ e ∈ es, ∀ s, P s → P (seqEmit e s)) → ∀ s, P s → P (seqEmits es s) := by
    intro es
    induction es with
    | nil => exact fun _ _ h => h
    | cons e es ih =>
      exact fun hes s h => ih (fun x hx => hes x (List.mem_cons_of_mem _ hx)) _ (hes e List.mem_cons_self s h)
  unfold commit withoutHost
  generalize hu : seqEmits (commitEvents s.cfg) { driveCommit s with hostq := [] } = u
  have : P u := hu ▸ hes _ he _ (hq _ _ (hd h))
  exact hq u _ this

@[simp] theorem seqTrace_delay (n : Nat) (s : State) : seqTrace (delay n s) = seqTrace s ++ [.delay n] :=
  seqTrace_seqEmit (.delay n) s rfl

@[simp] theorem seqTrace_issueWave (g high low : Nat) (blk : Bool) (s : State) :
    seqTrace (issueWave g high low blk s) = seqTrace s ++ [.tpIssue g high low blk] :=
  seqTrace_seqEmit (.tpIssue g high low blk) s rfl

@[simp] theorem seqTrace_acquired (s : State) : seqTrace (acquired s) = seqTrace s ++ [.tpAcquire (s.tchGen + 1)] := by
  rw [acquired, seqTrace_seqEmit _ _ rfl]; rfl

@[simp] theorem seqTrace_acquireFailed (s : State) : seqTrace (acquireFailed s) = seqTrace s ++ [.tpAcquireFail] := by
  rw [acquireFailed, seqTrace_seqEmit _ _ rfl]; rfl

@[simp] theorem seqTrace_copyRow (len : Nat) (s : State) : seqTrace (copyRow len s) = seqTrace s := rfl

@[simp] theorem seqTrace_issueTransfer (s : State) :
    seqTrace (issueTransfer s) = seqTrace s ++ [.xfIssue (rowData (interleave s))] :=
  seqTrace_seqEmit (.xfIssue (rowData (interleave s))) s rfl

@[simp] theorem seqTrace_putSlot (s : State) : seqTrace (putSlot s) = seqTrace s := rfl
@[simp] theorem seqTrace_reclaim (s : State) : seqTrace (reclaim s) = seqTrace s := rfl
@[simp] theorem seqTrace_dropChannel (s : State) : seqTrace (dropChannel s) = seqTrace s := rfl
@[simp] theorem seqTrace_nextAct (s : State) : seqTrace (nextAct s) = seqTrace s := rfl
@[simp] theorem seqTrace_nextStep (s : State) : seqTrace (nextStep s) = seqTrace s := rfl
@[simp] theorem seqTrace_setFsm (f : Fsm) (s : State) : seqTrace (setFsm f s) = seqTrace s := rfl

@[simp] theorem seqTrace_accept (w : Word) (s : State) : seqTrace (accept w s) = seqTrace s ++ [.cmd w] := by
  rw [accept, seqTrace_seqEmit _ _ rfl]; rfl

@[simp] theorem seqTrace_rejectIllegal (w : Word) (s : State) :
    seqTrace (rejectIllegal w s) = seqTrace s ++ [.cmd w, .ret .illegalCommand] := by
  have : seqTrace (rejectIllegal w s) = seqTrace (seqEmits [.cmd w, .ret .illegalCommand] { s with hostq := [] }) := by
    simp only [seqTrace, rejectIllegal, withoutHost_trace]
  rw [this, seqTrace_seqEmits _ _ (by simp [Event.bySeq])]
  rfl

/-! ### The commit trace -/

/-- The commit trace is read off SEQ's events. -/
theorem commitTrace_eq (s : State) : commitTrace s = (seqTrace s).filterMap Event.committed := by
  unfold commitTrace seqTrace
  induction s.trace with
  | nil => rfl
  | cons e es ih =>
    rw [List.filter_cons, List.filterMap_cons]
    cases e <;> simp only [Event.bySeq, Event.committed, if_true, List.filterMap_cons, ih] <;> rfl

@[simp] theorem committed_commitEvents (v : Byte) : (commitEvents v).filterMap Event.committed = [v] := by
  simp [commitEvents, Event.committed, List.filterMap_append, List.filterMap_map, Function.comp_def]

@[simp] theorem commitTrace_commit (s : State) : commitTrace (commit s) = commitTrace s ++ [s.cfg] := by
  simp [commitTrace_eq]

/-! ### The configuration lines after a commit (10_state.md R17) -/

@[simp] theorem pinWrites_append (vs ws : List (Pin × Level)) (s : State) :
    pinWrites (vs ++ ws) s = pinWrites ws (pinWrites vs s) := by
  induction vs generalizing s with
  | nil => rfl
  | cons v vs ih => exact ih _

theorem commitPins_split (v : Byte) : ∃ ws,
    commitPins v = ws ++ [(.cfgData, v.getLsbD 0), (.cfgClk, false), (.cfgClk, true), (.cfgStr, true)] :=
  ⟨(commitPins v).take 22, by simp [commitPins, serialOrder, CfgField.get, CfgField.bit]⟩

/-- Whatever the lines were, a commit leaves strobe and clock high and data at the last field's level. -/
theorem commit_lines (s : State) :
    (commit s).cfgStr = true ∧ (commit s).cfgClk = true ∧ (commit s).cfgData = s.cfg.getLsbD 0 := by
  obtain ⟨ws, h⟩ := commitPins_split s.cfg
  have e1 : (commit s).cfgStr = (pinWrites (commitPins s.cfg) s).cfgStr := by simp [commit, driveCommit]
  have e2 : (commit s).cfgClk = (pinWrites (commitPins s.cfg) s).cfgClk := by simp [commit, driveCommit]
  have e3 : (commit s).cfgData = (pinWrites (commitPins s.cfg) s).cfgData := by simp [commit, driveCommit]
  rw [e1, e2, e3, h, pinWrites_append]
  simp [pinWrites, pinWrite]

@[simp] theorem commit_cfgStr (s : State) : (commit s).cfgStr = true := (commit_lines s).1
@[simp] theorem commit_cfgClk (s : State) : (commit s).cfgClk = true := (commit_lines s).2.1
@[simp] theorem commit_cfgData (s : State) : (commit s).cfgData = s.cfg.getLsbD 0 := (commit_lines s).2.2

/-! ### How many draws an operation takes from the script -/

@[simp] theorem seqEmits_bursts (es : List Event) (s : State) : (seqEmits es s).bursts = s.bursts.drop es.length := by
  induction es generalizing s with
  | nil => rfl
  | cons e es ih => simp [seqEmits, ih]

theorem commitEvents_length (v : Byte) : (commitEvents v).length = 27 := by simp [commitEvents, commitPins, serialOrder]

@[simp] theorem commit_bursts (s : State) : (commit s).bursts = s.bursts.drop 27 := by
  simp [commit, commitEvents_length]

@[simp] theorem seqEmit_drawn (e : Event) (s : State) : (seqEmit e s).drawn = s.drawn + 1 := rfl
@[simp] theorem delay_drawn (n : Nat) (s : State) : (delay n s).drawn = s.drawn + 1 := rfl
@[simp] theorem issueWave_drawn (g high low : Nat) (blk : Bool) (s : State) :
    (issueWave g high low blk s).drawn = s.drawn + 1 := rfl

@[simp] theorem seqEmits_drawn (es : List Event) (s : State) : (seqEmits es s).drawn = s.drawn + es.length := by
  induction es generalizing s with
  | nil => rfl
  | cons e es ih => simp [seqEmits, ih, Nat.add_assoc, Nat.add_comm 1]

@[simp] theorem commit_drawn (s : State) : (commit s).drawn = s.drawn + 27 := by
  simp [commit, commitEvents_length]

@[simp] theorem beforeAccess_bursts (s : State) : (beforeAccess s).bursts = s.bursts.tail := rfl
@[simp] theorem beforeAccess_drawn (s : State) : (beforeAccess s).drawn = s.drawn + 1 := rfl

/-! ### HOST takes nothing -/

/-- With nothing pending HOST reads nothing. -/
theorem interleave_reads (s : State) (h : s.hostq = []) : (interleave s).hostq = [] ∧ (interleave s).reads = s.reads := by
  obtain ⟨polls, h1, h2⟩ := interleave_polled s
  have h3 : polls = [] ∧ (interleave s).devices.hostq = [] := by simpa [State.devices, h] using h1
  refine ⟨h3.2, ?_⟩
  have : (interleave s).devices.reads = s.devices.reads := by simp [h2, h3.1]
  exact this

@[simp] theorem beforeAccess_reads (s : State) : (beforeAccess s).reads = s.reads :=
  (interleave_reads { s with hostq := [] } rfl).2

@[simp] theorem commit_reads (s : State) : (commit s).reads = s.reads := by
  have : ∀ (es : List Event) (s : State), s.hostq = [] → (seqEmits es s).reads = s.reads := by
    intro es
    induction es with
    | nil => exact fun _ _ => rfl
    | cons e es ih =>
      intro s h
      obtain ⟨h1, h2⟩ := interleave_reads s h
      rw [seqEmits, ih _ (show (seqEmit e s).hostq = [] from h1)]
      exact h2
  rw [commit, withoutHost_reads, this _ _ rfl]
  simp

/-! ### The pulse procedure, case by case (41_timing_pulse.md R92 to R97) -/

theorem beginPulse_held {s : State} {g : Nat} (h : s.tch = .held g) (high low : Nat) (blk : Bool) :
    beginPulse high low blk s = .done (issueWave g high low blk s) := by simp [beginPulse, h]

theorem beginPulse_acquired {s : State} (h : s.tch = .absent) (hok : nextAcq s = true) (high low : Nat) (blk : Bool) :
    beginPulse high low blk s = .done (issueWave (s.tchGen + 1) high low blk (acquired s)) := by
  simp [beginPulse, h, hok]

theorem beginPulse_failed {s : State} (h : s.tch = .absent) (hok : nextAcq s = false) (high low : Nat) (blk : Bool) :
    beginPulse high low blk s = .error .channelUnavailable (acquireFailed s) := by simp [beginPulse, h, hok]

/-! ### The cycle counter -/

theorem commit_cyc (s : State) : s.cyc ≤ (commit s).cyc :=
  commit_induct (P := fun t => s.cyc ≤ t.cyc) (fun _ _ h => h) (fun _ => by simp)
    (fun _ _ t h => Nat.le_trans h (interleave_cyc t)) (Nat.le_refl _)

theorem returnOk_cyc (s : State) : s.cyc ≤ (returnOk s).cyc := interleave_cyc s

theorem raise_cyc (c : Cause) (s : State) : s.cyc ≤ (raise c s).cyc := interleave_cyc s

/-- A delay is a lower bound (42_power_sequencing.md R110). -/
theorem delay_cyc (n : Nat) (s : State) : s.cyc + n ≤ (delay n s).cyc := Nat.le_max_right _ _

/-! ### Only the other agents -/

theorem agentsOnly_commit (s : State) : AgentsOnly s (commit s) :=
  commit_induct (P := AgentsOnly s) (fun _ _ h => h.trans (.of_core rfl))
    (fun h => h.trans (.of_core (by simp [Devices.core, State.devices]))) (fun e _ t h => h.trans (agentsOnly_seqEmit e t))
    (.refl s)

theorem agentsOnly_beforeAccess (s : State) : AgentsOnly s (beforeAccess s) := by
  have h : AgentsOnly s { s with hostq := [] } := .of_core rfl
  exact (h.trans (agentsOnly_interleave _)).trans (.of_core rfl)

theorem agentsOnly_delay (n : Nat) (s : State) : AgentsOnly s (delay n s) :=
  (agentsOnly_interleave s).trans (.of_core rfl)

theorem agentsOnly_raise (c : Cause) (s : State) : AgentsOnly s (raise c s) :=
  (agentsOnly_interleave s).trans (.of_core rfl)

theorem agentsOnly_returnOk (s : State) : AgentsOnly s (returnOk s) :=
  (agentsOnly_interleave s).trans (.of_core rfl)

theorem agentsOnly_acquired (s : State) : AgentsOnly s (acquired s) := by
  unfold acquired
  exact AgentsOnly.trans (.of_core rfl) (agentsOnly_seqEmit _ _)

theorem agentsOnly_acquireFailed (s : State) : AgentsOnly s (acquireFailed s) := by
  unfold acquireFailed
  exact AgentsOnly.trans (.of_core rfl) (agentsOnly_seqEmit _ _)

theorem agentsOnly_setField (f : CfgField) (b : Bool) (s : State) : AgentsOnly s (setField f b s) := .of_core rfl
theorem agentsOnly_nextAct (s : State) : AgentsOnly s (nextAct s) := .of_core rfl
theorem agentsOnly_nextStep (s : State) : AgentsOnly s (nextStep s) := .of_core rfl
theorem agentsOnly_setFsm (f : Fsm) (s : State) : AgentsOnly s (setFsm f s) := .of_core rfl

/-- A group of field updates ends in a commit: one update and its commit. -/
theorem agentsOnly_setCommit (f : CfgField) (b : Bool) (s : State) :
    AgentsOnly s (nextAct (commit (nextAct (setField f b s)))) :=
  (((agentsOnly_setField f b s).trans (agentsOnly_nextAct _)).trans (agentsOnly_commit _)).trans (agentsOnly_nextAct _)

/-- An issue queues its waveform (41_timing_pulse.md R95). -/
theorem queuesWave_issueWave (g high low : Nat) (blk : Bool) (s : State) :
    QueuesWave ⟨g, high, low, blk, .queued⟩ s (issueWave g high low blk s) := by
  refine ⟨interleave s, (agentsOnly_interleave s).tpgOnly, .of_tpg ?_⟩
  unfold issueWave
  generalize interleave s = u
  rfl

theorem QueuesWave.before {w : Wave} {s t u : State} (h : TpgOnly s t) (k : QueuesWave w t u) : QueuesWave w s u := by
  obtain ⟨v, h1, h2⟩ := k
  exact ⟨v, h.trans h1, h2⟩

theorem QueuesWave.after {w : Wave} {s t u : State} (h : QueuesWave w s t) (k : TpgOnly t u) : QueuesWave w s u := by
  obtain ⟨v, h1, h2⟩ := h
  exact ⟨v, h1, h2.trans k⟩

/-! ### Transfers -/

theorem State.noTransfer.commit {es : List Event} {s : State} (h : s.noTransfer es) :
    (Machine.commit s).noTransfer es := by
  refine commit_induct (P := fun t => t.noTransfer es) (fun _ _ h => h.of_eq rfl rfl)
    (fun h => h.of_eq (by simp) (by simp)) (fun e he t h => h.seqEmit e ?_) h
  simp only [commitEvents, List.mem_append, List.mem_map, List.mem_singleton] at he
  rcases he with ⟨w, -, rfl⟩ | rfl <;> rfl

theorem State.noTransfer.setField {es : List Event} {s : State} (f : CfgField) (b : Bool) (h : s.noTransfer es) :
    (Machine.setField f b s).noTransfer es := h.of_eq rfl rfl
theorem State.noTransfer.nextAct {es : List Event} {s : State} (h : s.noTransfer es) :
    (Machine.nextAct s).noTransfer es := h.of_eq rfl rfl
theorem State.noTransfer.nextStep {es : List Event} {s : State} (h : s.noTransfer es) :
    (Machine.nextStep s).noTransfer es := h.of_eq rfl rfl

theorem State.noTransfer.issueWave {es : List Event} {s : State} (g high low : Nat) (blk : Bool)
    (h : s.noTransfer es) : (Machine.issueWave g high low blk s).noTransfer es :=
  .of_eq (h.seqEmit (.tpIssue g high low blk) rfl) rfl rfl

theorem State.noTransfer.acquired {es : List Event} {s : State} (h : s.noTransfer es) :
    (Machine.acquired s).noTransfer es := by
  unfold Machine.acquired
  exact State.noTransfer.seqEmit (.tpAcquire (s.tchGen + 1)) rfl (h.of_eq rfl rfl)

/-! ### The run of a command -/

/-- The state an action ends in, however it ends. -/
def ActResult.state : ActResult → State
  | .done s => s
  | .error _ s => s
  | .hold s => s

@[simp] theorem ActResult.state_done (s : State) : (ActResult.done s).state = s := rfl
@[simp] theorem ActResult.state_error (c : Cause) (s : State) : (ActResult.error c s).state = s := rfl
@[simp] theorem ActResult.state_hold (s : State) : (ActResult.hold s).state = s := rfl

theorem runActs_induct {P : State → Prop} {acts : List Act} (hact : ∀ a ∈ acts, ∀ s, P s → P (doAct a s).state)
    (hnext : ∀ s, P s → P (nextAct s)) (s : State) (hs : P s) : P (runActs acts s).state := by
  induction acts generalizing s with
  | nil => exact hs
  | cons a acts ih =>
    have ha := hact a List.mem_cons_self s hs
    simp only [runActs]
    split
    · rename_i t ht
      rw [ht] at ha
      exact ih (fun b hb => hact b (List.mem_cons_of_mem _ hb)) _ (hnext t ha)
    · rename_i c t ht
      rw [ht] at ha
      exact ha
    · rename_i t ht
      rw [ht] at ha
      exact ha

/-- What every action, the cursor and both exits keep, a run of micro-steps keeps. -/
theorem runSteps_induct {P : State → Prop} {steps : List MicroStep}
    (hact : ∀ a ∈ steps.flatten, ∀ s, P s → P (doAct a s).state) (hnext : ∀ s, P s → P (nextAct s))
    (hstep : ∀ s, P s → P (nextStep s)) (hraise : ∀ c s, P s → P (raise c s)) (hret : ∀ s, P s → P (returnOk s))
    (s : State) (hs : P s) : P (runSteps steps s) := by
  induction steps generalizing s with
  | nil => exact hret s hs
  | cons m steps ih =>
    have hm : P (runActs (m.drop s.act) s).state := by
      refine runActs_induct (fun a ha => hact a ?_) hnext s hs
      simp only [List.flatten_cons, List.mem_append]
      exact .inl (List.mem_of_mem_drop ha)
    simp only [runSteps]
    split
    · rename_i t ht
      rw [ht] at hm
      refine ih (fun a ha => hact a ?_) _ (hstep t hm)
      simp only [List.flatten_cons, List.mem_append]
      exact .inr ha
    · rename_i c t ht
      rw [ht] at hm
      exact hraise c t hm
    · rename_i t ht
      rw [ht] at hm
      exact hm

/-- What every action of a command, the cursor and both exits keep, the command keeps, from wherever it stands. -/
theorem runCommand_induct {P : State → Prop} {steps : List MicroStep}
    (hact : ∀ a ∈ steps.flatten, ∀ s, P s → P (doAct a s).state) (hnext : ∀ s, P s → P (nextAct s))
    (hstep : ∀ s, P s → P (nextStep s)) (hraise : ∀ c s, P s → P (raise c s)) (hret : ∀ s, P s → P (returnOk s))
    (s : State) (hs : P s) : P (runCommand steps s) := by
  refine runSteps_induct (fun a ha => hact a ?_) hnext hstep hraise hret s hs
  rw [List.mem_flatten] at *
  obtain ⟨m, hm, ha⟩ := ha
  exact ⟨m, List.mem_of_mem_drop hm, ha⟩

/-- Every command's meaning is the run of its micro-steps; OUTPUT_ROW alone has an assertion before it. -/
theorem exec_next {i : Instr} {s t : State} (h : exec i s = .next t) : t = runCommand (microSteps i) s := by
  cases i <;> simp only [exec, execWrite, execPulse, execPowerOn, execPowerOff, execFrameStart, execLatchRow, execSkip,
    execFrameEnd, execOutputRow] at h
  case outputRow d l =>
    split at h
    · cases h
    · cases h; rfl
  all_goals cases h; rfl

/-- A command's meaning answers a next state, unless the assertion at the put fails. -/
theorem exec_eq_next {i : Instr} {s : State} (h : putsIntoHeld s = false) :
    exec i s = .next (runCommand (microSteps i) s) := by
  cases i <;> simp [exec, execWrite, execPulse, execPowerOn, execPowerOff, execFrameStart, execLatchRow, execSkip,
    execFrameEnd, execOutputRow, microSteps, h]

/-- At a command's start the assertion does not speak. -/
theorem putsIntoHeld_atStart {s : State} (h : s.atStart) : putsIntoHeld s = false := by
  simp [putsIntoHeld, h.1]

/-- From its start a command's meaning is the run of all its micro-steps. -/
theorem exec_atStart {i : Instr} {s : State} (h : s.atStart) : exec i s = .next (runSteps (microSteps i) s) := by
  rw [exec_eq_next (putsIntoHeld_atStart h), runCommand, h.1, List.drop_zero]

end Sys2Proof.Machine
end

