-- ==== Sys2Proof/Laws/PerInstr.lean ====
section
/-! SUPPORT. The statements made once per command: the encoder's word against the table of 30_encoding.md R61. -/

namespace Sys2Proof.Laws.TableRow

/-- R61: the table's row of the command's mnemonic selects the word the encoder writes for it, whatever its operands. -/
def Statement (i : Instr) : Prop := ∃ r ∈ opcodeTable, r.mnemonic = i.mnemonic ∧ r.selects (encode i) = true

theorem write : Statement .write := ⟨⟨"WRITE", 0x10000000, 0xFFFFFFFF⟩, by decide, rfl, by decide⟩

theorem pulse (high low : Operand) (blocking : Bool) : Statement (.pulse high low blocking) := by
  refine ⟨⟨"PULSE", Fields.word ⟨2, 0, 0, 0, 0⟩, Fields.word ⟨15, 0, 7, 0, 0⟩⟩, by decide, rfl, ?_⟩
  simp [encode, selects_word, Instr.fields]

theorem powerOn : Statement .powerOn := ⟨⟨"POWER_ON", 0x30000000, 0xFFFFFFFF⟩, by decide, rfl, by decide⟩

theorem powerOff : Statement .powerOff := ⟨⟨"POWER_OFF", 0x40000000, 0xFFFFFFFF⟩, by decide, rfl, by decide⟩

theorem frameStart : Statement .frameStart := ⟨⟨"FRAME_START", 0x50000000, 0xFFFFFFFF⟩, by decide, rfl, by decide⟩

theorem latchRow : Statement .latchRow := ⟨⟨"LATCH_ROW", 0x60000000, 0xFFFFFFFF⟩, by decide, rfl, by decide⟩

theorem outputRow (driveTime len : Operand) : Statement (.outputRow driveTime len) := by
  refine ⟨⟨"OUTPUT_ROW", Fields.word ⟨7, 0, 0, 0, 0⟩, Fields.word ⟨15, 1, 7, 0, 0⟩⟩, by decide, rfl, ?_⟩
  simp [encode, selects_word, Instr.fields]

theorem skip : Statement .skip := ⟨⟨"SKIP", 0x80000000, 0xFFFFFFFF⟩, by decide, rfl, by decide⟩

theorem frameEnd : Statement .frameEnd := ⟨⟨"FRAME_END", 0x90000000, 0xFFFFFFFF⟩, by decide, rfl, by decide⟩

end Sys2Proof.Laws.TableRow
end

