-- ==== Sys2Proof/Laws/Prompt.lean ====
section
/-! SUPPORT. Prompt hardware: what a run of moves without failures does to the queue, the latch and the transfer, and how a
script that is prompt for some number of events is used up. -/

namespace Sys2Proof.Machine

/-! ### One move without a failure -/

/-- The queue's work after one move: a play step takes one off, every other move none. -/
theorem moveDevices_work (st rs : Word) (m : Move) (d : Devices) (hm : Move.calm m = true) :
    tpgWork (moveDevices st rs m d).pq = tpgWork d.pq - if Move.isTpg m then 1 else 0 := by
  cases m <;> simp only [Move.calm, Bool.false_eq_true] at hm
  case tpg =>
    simp only [moveDevices, tpgPlay, Move.isTpg, if_true]
    split
    · rename_i h; simp [h, tpgWork]
    · rename_i w rest h
      obtain ⟨g, high, low, blk, phase⟩ := w
      cases phase
      · by_cases hh : high = 0 <;> simp [h, hh, tpgWork, Wave.work]
      · simp [h, tpgWork, Wave.work]
      · simp [h, tpgWork, Wave.work]
  case xfr v => simp only [moveDevices, xfrGo, Move.isTpg]; split <;> (try split) <;> simp
  case cycle => simp [moveDevices, Move.isTpg]
  case poll => simp only [moveDevices, hostPoll, Move.isTpg]; split <;> simp

/-- A queue with no work left is empty. -/
theorem tpgWork_eq_zero {pq : List Wave} (h : tpgWork pq = 0) : pq = [] := by
  cases pq with
  | nil => rfl
  | cons w rest =>
    have : 0 < w.work := by unfold Wave.work; split <;> (try split) <;> omega
    simp [tpgWork] at h
    omega

/-- A blocking waveform's end has been latched, or is still to come. -/
def endsWell (d : Devices) : Prop := d.tpr = .ended ∨ d.tpr = .none ∧ ∃ w ∈ d.pq, w.blk = true

theorem moveDevices_endsWell (st rs : Word) (m : Move) (d : Devices) (hm : Move.calm m = true) (h : endsWell d) :
    endsWell (moveDevices st rs m d) := by
  cases m <;> simp only [Move.calm, Bool.false_eq_true] at hm
  case tpg =>
    simp only [moveDevices, tpgPlay]
    split
    · exact h
    · rename_i w rest hpq
      have go : ∀ p : Phase, ∀ e : Devices, e.tpr = d.tpr → e.pq = { w with phase := p } :: rest → endsWell e := by
        intro p e h1 h2
        rcases h with h | ⟨h, x, hx, hb⟩
        · exact .inl (h1.trans h)
        · refine .inr ⟨h1.trans h, ?_⟩
          rw [hpq] at hx
          rcases List.mem_cons.1 hx with rfl | hx
          · exact ⟨{ x with phase := p }, by simp [h2], hb⟩
          · exact ⟨x, by simp [h2, hx], hb⟩
      split
      · split
        · exact go .low _ rfl rfl
        · exact go .high _ rfl rfl
      · exact go .low _ rfl rfl
      · by_cases hb : w.blk = true
        · exact .inl (by simp [hb])
        · rcases h with h | ⟨h, x, hx, hxb⟩
          · exact .inl (by simp [hb, h])
          · refine .inr ⟨by simp [hb, h], x, ?_, hxb⟩
            rw [hpq] at hx
            rcases List.mem_cons.1 hx with rfl | hx
            · exact absurd hxb hb
            · exact hx
  case xfr v => simp only [moveDevices, xfrGo]; split <;> (try split) <;> exact h
  case cycle => exact h
  case poll => simp only [moveDevices, hostPoll]; split <;> exact h

theorem moveDevices_notFailed (st rs : Word) (m : Move) (d : Devices) (hm : Move.calm m = true) (h : d.tpr ≠ .failed) :
    (moveDevices st rs m d).tpr ≠ .failed := by
  cases m <;> simp only [Move.calm, Bool.false_eq_true] at hm
  case tpg =>
    simp only [moveDevices, tpgPlay]
    split
    · exact h
    · split <;> (try split) <;> (try simp only) <;> simp [h]
  case xfr v => simp only [moveDevices, xfrGo]; split <;> (try split) <;> exact h
  case cycle => exact h
  case poll => simp only [moveDevices, hostPoll]; split <;> exact h

/-- The steps the bus engine still needs. -/
def xfrWork : Transfer → Nat
  | .active data sent => data.length - sent + 1
  | .none => 0
  | .ended _ => 0

/-- The transfer is under way or over, without a failure. -/
def sendsWell (x : Transfer) : Prop := (∃ data sent, x = .active data sent) ∨ x = .ended true

theorem moveDevices_sends (st rs : Word) (m : Move) (d : Devices) (hm : Move.calm m = true) (h : sendsWell d.xf) :
    sendsWell (moveDevices st rs m d).xf ∧
      xfrWork (moveDevices st rs m d).xf ≤ xfrWork d.xf - if Move.isXfr m then 1 else 0 := by
  cases m <;> simp only [Move.calm, Bool.false_eq_true] at hm
  case tpg =>
    simp only [moveDevices, tpgPlay, Move.isXfr]
    split <;> (try split) <;> (try split) <;> exact ⟨h, Nat.le_refl _⟩
  case xfr v =>
    rcases h with ⟨data, sent, h⟩ | h
    · simp only [moveDevices, xfrGo, h, Move.isXfr]
      split
      · rename_i b hb
        have : sent < data.length := by
          by_contra hc
          rw [List.getElem?_eq_none (by omega)] at hb
          cases hb
        exact ⟨.inl ⟨_, _, rfl⟩, by simp only [xfrWork, if_true]; omega⟩
      · exact ⟨.inr rfl, by simp [xfrWork]⟩
    · simp only [moveDevices, xfrGo, h, Move.isXfr]
      exact ⟨.inr rfl, by simp [xfrWork]⟩
  case cycle => exact ⟨h, Nat.le_refl _⟩
  case poll => simp only [moveDevices, hostPoll, Move.isXfr]; split <;> exact ⟨h, Nat.le_refl _⟩

/-! ### A prompt burst -/

theorem runMoves_work (st rs : Word) (ms : List Move) (d : Devices) (hm : ms.all Move.calm = true) :
    tpgWork (runMoves st rs ms d).pq = tpgWork d.pq - ms.countP Move.isTpg := by
  induction ms generalizing d with
  | nil => rfl
  | cons m ms ih =>
    simp only [List.all_cons, Bool.and_eq_true] at hm
    rw [runMoves_cons, ih _ hm.2, moveDevices_work _ _ _ _ hm.1, List.countP_cons]
    omega

theorem runMoves_endsWell (st rs : Word) (ms : List Move) (d : Devices) (hm : ms.all Move.calm = true)
    (h : endsWell d) : endsWell (runMoves st rs ms d) := by
  induction ms generalizing d with
  | nil => exact h
  | cons m ms ih =>
    simp only [List.all_cons, Bool.and_eq_true] at hm
    exact ih _ hm.2 (moveDevices_endsWell st rs m d hm.1 h)

theorem runMoves_notFailed (st rs : Word) (ms : List Move) (d : Devices) (hm : ms.all Move.calm = true)
    (h : d.tpr ≠ .failed) : (runMoves st rs ms d).tpr ≠ .failed := by
  induction ms generalizing d with
  | nil => exact h
  | cons m ms ih =>
    simp only [List.all_cons, Bool.and_eq_true] at hm
    exact ih _ hm.2 (moveDevices_notFailed st rs m d hm.1 h)

theorem runMoves_sends (st rs : Word) (ms : List Move) (d : Devices) (hm : ms.all Move.calm = true)
    (h : sendsWell d.xf) :
    sendsWell (runMoves st rs ms d).xf ∧ xfrWork (runMoves st rs ms d).xf ≤ xfrWork d.xf - ms.countP Move.isXfr := by
  induction ms generalizing d with
  | nil => exact ⟨h, Nat.le_refl _⟩
  | cons m ms ih =>
    simp only [List.all_cons, Bool.and_eq_true] at hm
    obtain ⟨h1, h2⟩ := moveDevices_sends st rs m d hm.1 h
    obtain ⟨h3, h4⟩ := ih _ hm.2 h1
    rw [runMoves_cons]
    refine ⟨h3, ?_⟩
    rw [List.countP_cons]
    omega

/-- The script is prompt for `k` more events: `n` bounds the work in the queue, `m` the work of a transfer. -/
structure Ready (k n m : Nat) (s : State) : Prop where
  len : k ≤ s.bursts.length
  prompt : ∀ moves ∈ s.bursts.take k, promptBurst n m moves = true
  work : tpgWork s.pq ≤ n

theorem State.promptFor.ready {s : State} {k : Nat} (h : s.promptFor k) :
    Ready k (tpgWork s.pq + 3) (s.params.rowWidth + 1) s :=
  ⟨h.1, h.2, by omega⟩

/-- The next burst of a prompt script. -/
theorem Ready.next {k n m : Nat} {s : State} (h : Ready (k + 1) n m s) : promptBurst n m (nextBurst s) = true := by
  have hl := h.len
  have hp := h.prompt
  unfold nextBurst
  cases hb : s.bursts with
  | nil => simp [hb] at hl
  | cons b bs => exact hp b (by simp [hb])

/-- One event's burst: the queue is played out, and the script is prompt for one event less. -/
theorem Ready.interleave {k n m : Nat} {s : State} (h : Ready (k + 1) n m s) :
    (interleave s).pq = [] ∧ Ready k n m (interleave s) := by
  have hn := h.next
  simp only [promptBurst, Bool.and_eq_true, decide_eq_true_eq] at hn
  have hw : tpgWork (Machine.interleave s).pq = 0 := by
    have hr : tpgWork (Machine.interleave s).pq = tpgWork s.pq - (nextBurst s).countP Move.isTpg :=
      runMoves_work (statusWord s) (resultWord s) (nextBurst s) s.devices hn.1.1
    have := h.work
    omega
  refine ⟨tpgWork_eq_zero hw, ?_, ?_, by omega⟩
  · have := h.len
    simp only [interleave_bursts, List.length_tail]
    omega
  · intro moves hmv
    refine h.prompt moves ?_
    simp only [interleave_bursts] at hmv
    cases hb : s.bursts with
    | nil => simp [hb] at hmv
    | cons b bs =>
      rw [hb] at hmv
      exact List.mem_cons_of_mem _ (by simpa using hmv)

/-- A prompt burst ends the blocking waveform that is waited for. -/
theorem Ready.ended {k n m : Nat} {s : State} (h : Ready (k + 1) n m s) (he : endsWell s.devices) :
    (Machine.interleave s).tpr = .ended := by
  have hn := h.next
  simp only [promptBurst, Bool.and_eq_true] at hn
  have h1 : endsWell (Machine.interleave s).devices :=
    runMoves_endsWell (statusWord s) (resultWord s) (nextBurst s) s.devices hn.1.1 he
  rcases h1 with h1 | ⟨-, w, hw, -⟩
  · exact h1
  · have : (Machine.interleave s).devices.pq = [] := h.interleave.1
    rw [this] at hw
    cases hw

/-- A prompt burst ends the transfer that is waited for, without a failure. -/
theorem Ready.sent {k n m : Nat} {s : State} (h : Ready (k + 1) n m s) (hs : sendsWell s.xf) (hm : xfrWork s.xf ≤ m) :
    (Machine.interleave s).xf = .ended true := by
  have hn := h.next
  simp only [promptBurst, Bool.and_eq_true, decide_eq_true_eq] at hn
  obtain ⟨h1, h2⟩ := runMoves_sends (statusWord s) (resultWord s) (nextBurst s) s.devices hn.1.1 hs
  have h3 : xfrWork (Machine.interleave s).xf = 0 := by
    have h4 : xfrWork (Machine.interleave s).xf ≤ xfrWork s.xf - (nextBurst s).countP Move.isXfr := h2
    omega
  have h5 : sendsWell (Machine.interleave s).xf := h1
  rcases h5 with ⟨data, sent, h5⟩ | h5
  · rw [h5] at h3
    simp [xfrWork] at h3
  · exact h5

/-- The head of a queue of one stays at the head, whatever its phase, or has been played out. -/
theorem runMoves_one (st rs : Word) (ms : List Move) (d : Devices) (w : Wave) (hm : ms.all Move.calm = true)
    (h : (∃ p, d.pq = [{ w with phase := p }]) ∨ d.pq = []) :
    (∃ p, (runMoves st rs ms d).pq = [{ w with phase := p }]) ∨ (runMoves st rs ms d).pq = [] := by
  induction ms generalizing d with
  | nil => exact h
  | cons m ms ih =>
    simp only [List.all_cons, Bool.and_eq_true] at hm
    refine ih _ hm.2 ?_
    rcases moveDevices_pq st rs m d with ⟨h1, -⟩ | ⟨x, rest, p, h0, h1, -⟩ | ⟨x, rest, r, h0, h1, -⟩
    · rw [h1]; exact h
    · rcases h with ⟨q, h⟩ | h
      · rw [h] at h0
        cases h0
        exact .inl ⟨p, h1⟩
      · rw [h] at h0; cases h0
    · rcases h with ⟨q, h⟩ | h
      · rw [h] at h0
        cases h0
        exact .inr h1
      · rw [h] at h0; cases h0

/-- Moves that fail the one waveform in the queue, a blocking one: the queue is empty after them and the failure is
latched. -/
theorem interleave_fails {s : State} {w : Wave} {n : Nat} (hq : s.pq = [w]) (hb : w.blk = true) (hn : n ≤ w.work)
    (hf : failsBurst n (nextBurst s)) : (interleave s).pq = [] ∧ (interleave s).tpr = .failed := by
  obtain ⟨before, level, after, hms, hc, hlt⟩ := hf
  have hw : tpgWork (runMoves (statusWord s) (resultWord s) before s.devices).pq ≠ 0 := by
    rw [runMoves_work _ _ _ _ hc]
    have : tpgWork s.devices.pq = w.work := by simp [State.devices, hq, tpgWork]
    omega
  rcases runMoves_one (statusWord s) (resultWord s) before s.devices w hc (.inl ⟨w.phase, hq⟩) with ⟨p, h⟩ | h
  · have quiet : ∀ (ms : List Move) (d : Devices), d.pq = [] ∧ d.tpr = .failed →
        (runMoves (statusWord s) (resultWord s) ms d).pq = [] ∧
          (runMoves (statusWord s) (resultWord s) ms d).tpr = .failed := fun ms d h =>
      runMoves_induct (P := fun d => d.pq = [] ∧ d.tpr = .failed) (fun m d h => by
        rcases moveDevices_pq (statusWord s) (resultWord s) m d with ⟨h1, h2⟩ | ⟨x, rest, p, h0, -⟩ | ⟨x, rest, r, h0, -⟩
        · exact ⟨h1.trans h.1, h2.trans h.2⟩
        · rw [h.1] at h0; cases h0
        · rw [h.1] at h0; cases h0) ms d h
    have e : (interleave s).devices.pq = [] ∧ (interleave s).devices.tpr = .failed := by
      have : ∀ f : Devices → Prop, f (runMoves (statusWord s) (resultWord s) (nextBurst s) s.devices) →
          f (interleave s).devices := fun _ h => h
      refine this (fun d => d.pq = [] ∧ d.tpr = .failed) ?_
      simp only [hms, runMoves_append, runMoves_cons]
      refine quiet _ _ ?_
      simp only [moveDevices, tpgFail, h, hb, if_true]
      exact ⟨trivial, trivial⟩
    exact e
  · rw [h] at hw
    simp [tpgWork] at hw

/-- How far a transfer of `data` is, by the bus engine and by the transfers' events after `es`: so many beats, or all of them
and the end. -/
def sentSoFar (es : List Event) (data : List Byte) (d : Devices) : Prop :=
  (∃ k, d.xf = .active data k ∧ k ≤ data.length ∧
    d.trace.filter Event.byTransfer = es ++ (beatEvents data).take k) ∨
  d.xf = .ended true ∧ d.trace.filter Event.byTransfer = es ++ beatEvents data ++ [.xfEnd true]

theorem beatEvents_take (data : List Byte) (k : Nat) (v : Byte) (h : data[k]? = some v) :
    (beatEvents data).take (k + 1) = (beatEvents data).take k ++ [.xfBeat k v] := by
  rw [List.take_add_one]
  simp [beatEvents, h]

theorem moveDevices_sentSoFar (st rs : Word) (m : Move) (d : Devices) (es : List Event) (data : List Byte)
    (hm : Move.calm m = true) (h : sentSoFar es data d) : sentSoFar es data (moveDevices st rs m d) := by
  have other : ∀ e : Devices, e.xf = d.xf → e.trace.filter Event.byTransfer = d.trace.filter Event.byTransfer →
      sentSoFar es data e := by
    intro e h1 h2
    unfold sentSoFar at h ⊢
    rw [h1, h2]
    exact h
  have hseg : ∀ g l n, (segEvents g l n).filter Event.byTransfer = [] := by
    intro g l n; unfold segEvents; split <;> simp [Event.byTransfer]
  cases m <;> simp only [Move.calm, Bool.false_eq_true] at hm
  case tpg =>
    refine other _ ?_ ?_
    · simp only [moveDevices, tpgPlay]
      split <;> (try split) <;> (try split) <;> rfl
    · simp only [moveDevices, tpgPlay]
      split <;> (try split) <;> (try split) <;> simp [hseg, Event.byTransfer]
  case xfr v =>
    rcases h with ⟨k, h1, h2, h3⟩ | ⟨h1, h2⟩
    · simp only [moveDevices, xfrGo, h1]
      split
      · rename_i b hb
        have hk : k < data.length := by
          by_contra hc
          rw [List.getElem?_eq_none (by omega)] at hb
          cases hb
        refine .inl ⟨k + 1, rfl, hk, ?_⟩
        rw [beatEvents_take data k b hb]
        simp [h3, Event.byTransfer]
      · rename_i hb
        have hk : data.length ≤ k := List.getElem?_eq_none_iff.1 hb
        refine .inr ⟨rfl, ?_⟩
        have : (beatEvents data).take k = beatEvents data := List.take_of_length_le (by simpa [beatEvents] using hk)
        simp [h3, this, Event.byTransfer]
    · simp only [moveDevices, xfrGo, h1]
      exact .inr ⟨h1, h2⟩
  case cycle => exact other _ rfl rfl
  case poll =>
    refine other _ ?_ ?_
    · simp only [moveDevices, hostPoll]; split <;> rfl
    · simp only [moveDevices, hostPoll]; split <;> rfl

theorem runMoves_sentSoFar (st rs : Word) (ms : List Move) (d : Devices) (es : List Event) (data : List Byte)
    (hm : ms.all Move.calm = true) (h : sentSoFar es data d) : sentSoFar es data (runMoves st rs ms d) := by
  induction ms generalizing d with
  | nil => exact h
  | cons m ms ih =>
    simp only [List.all_cons, Bool.and_eq_true] at hm
    exact ih _ hm.2 (moveDevices_sentSoFar st rs m d es data hm.1 h)

/-- A prompt burst puts every byte of a transfer just issued on the bus, then ends it: the transfers' events. -/
theorem Ready.beats {k n m : Nat} {s : State} (h : Ready (k + 1) n m s) {data : List Byte} (hx : s.xf = .active data 0)
    (hm : data.length + 1 ≤ m) :
    transferTrace (Machine.interleave s) = transferTrace s ++ beatEvents data ++ [.xfEnd true] := by
  have hn := h.next
  simp only [promptBurst, Bool.and_eq_true] at hn
  have h1 : sentSoFar (transferTrace s) data (Machine.interleave s).devices :=
    runMoves_sentSoFar (statusWord s) (resultWord s) (nextBurst s) s.devices _ _ hn.1.1
      (.inl ⟨0, hx, Nat.zero_le _, by simp [transferTrace, State.devices]⟩)
  rcases h1 with ⟨j, h1, -⟩ | ⟨-, h1⟩
  · have h2 := h.sent (.inl ⟨_, _, hx⟩) (by rw [hx]; simpa [xfrWork] using hm)
    have h3 : (Machine.interleave s).xf = .active data j := h1
    rw [h2] at h3
    cases h3
  · exact h1

/-- With the queue empty, the latch keeps its value. -/
theorem interleave_quiet {s : State} (h : s.pq = []) : (interleave s).pq = [] ∧ (interleave s).tpr = s.tpr :=
  interleave_queue (P := fun pq r => pq = [] ∧ r = s.tpr) s (fun _ _ _ _ h => absurd h.1 (by simp))
    (fun _ _ _ _ _ h => absurd h.1 (by simp)) ⟨h, rfl⟩

/-- No failure is latched by a prompt burst. -/
theorem Ready.notFailed {k n m : Nat} {s : State} (h : Ready (k + 1) n m s) (hf : s.tpr ≠ .failed) :
    (Machine.interleave s).tpr ≠ .failed := by
  have hn := h.next
  simp only [promptBurst, Bool.and_eq_true] at hn
  exact runMoves_notFailed (statusWord s) (resultWord s) (nextBurst s) s.devices hn.1.1 hf

/-- The script, the queue and its work bound pass unchanged through an operation that draws no burst. -/
theorem Ready.of_eq {k n m : Nat} {s t : State} (h : Ready k n m s) (hb : t.bursts = s.bursts) (hq : t.pq = s.pq) :
    Ready k n m t :=
  ⟨hb ▸ h.len, hb ▸ h.prompt, hq ▸ h.work⟩

/-- A script prompt for `k` events is prompt for fewer. -/
theorem Ready.mono {k j n m : Nat} {s : State} (h : Ready k n m s) (hj : j ≤ k) : Ready j n m s :=
  ⟨Nat.le_trans hj h.len, fun x hx => h.prompt x (List.take_subset_take_left _ hj hx), h.work⟩

/-! ### Operations on prompt hardware -/

theorem Ready.seqEmit {k n m : Nat} {s : State} (e : Event) (h : Ready (k + 1) n m s) (hf : s.tpr ≠ .failed) :
    Ready k n m (seqEmit e s) ∧ (seqEmit e s).pq = [] ∧ (seqEmit e s).tpr ≠ .failed :=
  ⟨h.interleave.2.of_eq rfl rfl, h.interleave.1, h.notFailed hf⟩

/-- Events in a row use up one burst each; the queue is empty after the last. -/
theorem Ready.seqEmits {k n m : Nat} (es : List Event) (e : Event) {s : State} (h : Ready (k + es.length + 1) n m s)
    (hf : s.tpr ≠ .failed) : Ready k n m (Machine.seqEmits (es ++ [e]) s) ∧ (Machine.seqEmits (es ++ [e]) s).pq = [] ∧
      (Machine.seqEmits (es ++ [e]) s).tpr ≠ .failed := by
  induction es generalizing s with
  | nil => exact Ready.seqEmit e h hf
  | cons x es ih =>
    obtain ⟨h1, -, h2⟩ := Ready.seqEmit (k := k + es.length + 1) x h hf
    exact ih h1 h2

/-- A commit takes 27 bursts; the queue is empty after it. -/
theorem Ready.commit {k n m : Nat} {s : State} (h : Ready (k + 27) n m s) (hf : s.tpr ≠ .failed) :
    Ready k n m (commit s) ∧ (commit s).pq = [] ∧ (commit s).tpr ≠ .failed := by
  have hl : ((commitPins s.cfg).map (fun w => Event.pin w.1 w.2)).length = 26 := by
    simp [commitPins, serialOrder]
  have h0 : Ready (k + ((commitPins s.cfg).map (fun w => Event.pin w.1 w.2)).length + 1) n m
      { driveCommit s with hostq := [] } := by
    rw [hl]
    exact h.of_eq (by simp) (by simp)
  obtain ⟨h1, h2, h3⟩ := Ready.seqEmits _ (.cfg s.cfg) h0 (by simpa using hf)
  unfold Machine.commit withoutHost commitEvents
  generalize Machine.seqEmits _ _ = u at h1 h2 h3
  exact ⟨h1.of_eq rfl rfl, h2, h3⟩

theorem Ready.delay {k n m : Nat} {s : State} (j : Nat) (h : Ready (k + 1) n m s) (hf : s.tpr ≠ .failed) :
    Ready k n m (delay j s) ∧ (delay j s).tpr ≠ .failed :=
  ⟨h.interleave.2.of_eq rfl rfl, h.notFailed hf⟩

theorem Ready.acquired {k n m : Nat} {s : State} (h : Ready (k + 1) n m s) (hf : s.tpr ≠ .failed) :
    Ready k n m (acquired s) ∧ (acquired s).tpr ≠ .failed := by
  have h0 : Ready (k + 1) n m
      { s with acqs := s.acqs.tail, drawn := s.drawn + 1, tchGen := s.tchGen + 1, tch := .held (s.tchGen + 1) } :=
    h.of_eq rfl rfl
  exact ⟨(h0.seqEmit (.tpAcquire (s.tchGen + 1)) hf).1, (h0.seqEmit (.tpAcquire (s.tchGen + 1)) hf).2.2⟩

theorem Ready.issueWave {k n m : Nat} {s : State} (g high low : Nat) (blk : Bool) (hn : 3 ≤ n)
    (h : Ready (k + 1) n m s) (hf : s.tpr ≠ .failed) :
    Ready k n m (Machine.issueWave g high low blk s) ∧
      (Machine.issueWave g high low blk s).pq = [⟨g, high, low, blk, .queued⟩] ∧ (Machine.issueWave g high low blk s).tpr ≠ .failed := by
  obtain ⟨h1, h2⟩ := h.interleave
  have hq : (Machine.issueWave g high low blk s).pq = [⟨g, high, low, blk, .queued⟩] := by
    have : (Machine.issueWave g high low blk s).pq = (Machine.interleave s).pq ++ [⟨g, high, low, blk, .queued⟩] := rfl
    rw [this, h1]
    rfl
  refine ⟨⟨h2.len, h2.prompt, ?_⟩, hq, h.notFailed hf⟩
  rw [hq]
  simp only [tpgWork, Wave.work, List.map_cons, List.map_nil, List.sum_cons, List.sum_nil]
  split <;> omega

/-- A blocking pulse on prompt hardware: the wait is lifted in time, by success. -/
theorem Ready.awaitPulse {k n m : Nat} {s : State} (g high low : Nat) (hn : 3 ≤ n) (h : Ready (k + 2) n m s)
    (hf : s.tpr ≠ .failed) :
    Machine.awaitPulse (nextAct (Machine.issueWave g high low true s)) =
        .done (reclaim (Machine.interleave (nextAct (Machine.issueWave g high low true s)))) ∧
      (Machine.interleave (nextAct (Machine.issueWave g high low true s))).pq = [] ∧
      Ready k n m (reclaim (Machine.interleave (nextAct (Machine.issueWave g high low true s)))) := by
  obtain ⟨h1, h2, h3⟩ := Ready.issueWave (k := k + 1) g high low true hn h hf
  have h4 : Ready (k + 1) n m (nextAct (Machine.issueWave g high low true s)) := h1.of_eq rfl rfl
  have he : endsWell (nextAct (Machine.issueWave g high low true s)).devices := by
    have hq : (nextAct (Machine.issueWave g high low true s)).devices.pq = [⟨g, high, low, true, .queued⟩] := h2
    cases ht : (nextAct (Machine.issueWave g high low true s)).tpr with
    | ended => exact .inl ht
    | none => exact .inr ⟨ht, _, by rw [hq]; exact List.mem_cons_self, rfl⟩
    | failed => exact absurd ht h3
  refine ⟨?_, h4.interleave.1, h4.interleave.2.of_eq rfl rfl⟩
  have := h4.ended he
  unfold Machine.awaitPulse
  rw [this]

/-! ### A whole blocking pulse -/

/-- On prompt hardware a blocking pulse on the held channel is done: the channel is held again, nothing is queued, and two
bursts are used up. -/
theorem Ready.pulse_held {k n m g high low : Nat} {s : State} (hg : s.tch = .held g) (hn : 3 ≤ n)
    (h : Ready (k + 2) n m s) (hf : s.tpr ≠ .failed) :
    ∃ t, runActs (pulseActs high low true) s = .done t ∧ t.tch = .held g ∧ t.tpr = .none ∧ t.pq = [] ∧ Ready k n m t ∧
      t.tchGen = s.tchGen ∧ seqTrace t = seqTrace s ++ [.tpIssue g high low true] ∧ t.cfg = s.cfg ∧
      t.panelCfg = s.panelCfg ∧ t.params = s.params ∧ t.fsm = s.fsm ∧ t.bursts = s.bursts.drop 2 := by
  obtain ⟨h1, h2, h3⟩ := Ready.awaitPulse g high low hn h hf
  refine ⟨nextAct (reclaim (Machine.interleave (nextAct (Machine.issueWave g high low true s)))), ?_, ?_⟩
  · simp [pulseActs, runActs, doAct, beginPulse_held hg, h1]
  · have h4 := h3.of_eq (t := nextAct (reclaim (Machine.interleave (nextAct (Machine.issueWave g high low true s))))) rfl rfl
    simp [h2, h4, ← List.drop_one]

/-- The same from any channel state that gives the pulse a channel; an absent one costs one burst more. -/
theorem Ready.pulse {k n m high low : Nat} {s : State} (hg : s.tch ≠ .absent ∨ nextAcq s = true) (hn : 3 ≤ n)
    (h : Ready (k + 2 + (acquireEvents s).length) n m s) (hf : s.tpr ≠ .failed) :
    ∃ t, runActs (pulseActs high low true) s = .done t ∧ t.tch = .held (nextInstance s) ∧ t.tpr = .none ∧ t.pq = [] ∧
      Ready k n m t ∧ t.tchGen = genAfterPulse s ∧
      seqTrace t = seqTrace s ++ acquireEvents s ++ [.tpIssue (nextInstance s) high low true] ∧ t.cfg = s.cfg ∧
      t.panelCfg = s.panelCfg ∧ t.params = s.params ∧ t.fsm = s.fsm ∧
      t.bursts = s.bursts.drop (2 + (acquireEvents s).length) := by
  cases ht : s.tch with
  | held g =>
    simp only [acquireEvents, ht, List.length_nil] at h
    simpa [nextInstance, genAfterPulse, acquireEvents, ht] using Ready.pulse_held (high := high) (low := low) ht hn h hf
  | absent =>
    simp only [acquireEvents, ht, List.length_singleton] at h
    have hq := hg.resolve_left (by simp [ht])
    obtain ⟨a1, a2⟩ := Ready.acquired (k := k + 2) h hf
    have hc : (Machine.acquired s).tch = .held (s.tchGen + 1) := by simp
    have hr : runActs (pulseActs high low true) s = runActs (pulseActs high low true) (Machine.acquired s) := by
      simp [pulseActs, runActs, doAct, beginPulse_held hc, beginPulse_acquired ht hq]
    rw [hr]
    simpa [nextInstance, genAfterPulse, acquireEvents, ht, ← List.drop_one, Nat.add_comm] using
      Ready.pulse_held (high := high) (low := low) hc hn a1 a2

/-- A blocking pulse on the held channel whose waveform fails before the look: the Transmit error, the channel dropped. -/
theorem Ready.pulse_held_fails {n m w g high low : Nat} {s : State} {moves : List Move} (hg : s.tch = .held g) (hn : 3 ≤ n)
    (h : Ready 1 n m s) (hf : s.tpr ≠ .failed) (hb : s.bursts[1]? = some moves) (hm : failsBurst w moves)
    (hw : w ≤ if high = 0 then 2 else 3) :
    ∃ t, runActs (pulseActs high low true) s = .error .transmit t ∧ t.tch = .absent ∧ t.tpr = .none ∧ t.pq = [] ∧
      t.tchGen = s.tchGen ∧ seqTrace t = seqTrace s ++ [.tpIssue g high low true] ∧ SameConfig s t ∧ t.fsm = s.fsm := by
  obtain ⟨-, h2, -⟩ := Ready.issueWave (k := 0) g high low true hn h hf
  have hnext : nextBurst (nextAct (Machine.issueWave g high low true s)) = moves := by
    have ht : (nextAct (Machine.issueWave g high low true s)).bursts = s.bursts.tail := by simp
    unfold nextBurst
    rw [ht]
    match hs : s.bursts with
    | [] => simp [hs] at hb
    | [_] => simp [hs] at hb
    | _ :: c :: _ =>
      simp only [hs, List.getElem?_cons_succ, List.getElem?_cons_zero, Option.some.injEq] at hb
      simp [hb]
  obtain ⟨k1, k2⟩ := interleave_fails (s := nextAct (Machine.issueWave g high low true s)) h2 rfl hw (by rw [hnext]; exact hm)
  refine ⟨dropChannel (Machine.interleave (nextAct (Machine.issueWave g high low true s))), ?_, ?_⟩
  · simp [pulseActs, runActs, doAct, beginPulse_held hg, Machine.awaitPulse, k2]
  · simp only [dropChannel_pq, k1]
    simp [SameConfig]

/-- The same from any channel state that gives the pulse a channel. -/
theorem Ready.pulse_fails {n m w high low : Nat} {s : State} {moves : List Move} (hg : s.tch ≠ .absent ∨ nextAcq s = true)
    (hn : 3 ≤ n) (h : Ready (1 + (acquireEvents s).length) n m s) (hf : s.tpr ≠ .failed)
    (hb : s.bursts[1 + (acquireEvents s).length]? = some moves) (hm : failsBurst w moves)
    (hw : w ≤ if high = 0 then 2 else 3) :
    ∃ t, runActs (pulseActs high low true) s = .error .transmit t ∧ t.tch = .absent ∧ t.tpr = .none ∧ t.pq = [] ∧
      t.tchGen = genAfterPulse s ∧
      seqTrace t = seqTrace s ++ acquireEvents s ++ [.tpIssue (nextInstance s) high low true] ∧ SameConfig s t ∧
      t.fsm = s.fsm := by
  cases ht : s.tch with
  | held g =>
    simp only [acquireEvents, ht, List.length_nil] at h hb
    simpa [nextInstance, genAfterPulse, acquireEvents, ht] using
      Ready.pulse_held_fails (high := high) (low := low) ht hn h hf hb hm hw
  | absent =>
    simp only [acquireEvents, ht, List.length_singleton] at h hb
    have hq := hg.resolve_left (by simp [ht])
    obtain ⟨a1, a2⟩ := Ready.acquired (k := 1) h hf
    have hc : (Machine.acquired s).tch = .held (s.tchGen + 1) := by simp
    have hr : runActs (pulseActs high low true) s = runActs (pulseActs high low true) (Machine.acquired s) := by
      simp [pulseActs, runActs, doAct, beginPulse_held hc, beginPulse_acquired ht hq]
    rw [hr]
    simpa [nextInstance, genAfterPulse, acquireEvents, ht, SameConfig] using
      Ready.pulse_held_fails (high := high) (low := low) hc hn a1 a2
        (by rw [acquired_bursts, ← List.drop_one]; simpa using hb) hm hw

end Sys2Proof.Machine
end

