-- ==== Sys2Proof/Laws/Step.lean ====
section
/-! SUPPORT. What a step can do, said once; and what a command leaves where it stands when a hold is not lifted. -/

namespace Sys2Proof.Machine

/-- A host access that lies in the port's map is a register or a byte of RSRC. -/
theorem hostTarget_rsrc {p : Params} {offset width i : Nat} (h : hostTarget p offset width = some (.rsrc i)) :
    width = 1 ∧ offset = 0x1000 + i ∧ i < p.rowWidth := by
  unfold hostTarget at h
  split at h
  · repeat' split at h
    all_goals simp at h
  · split at h
    · rename_i hw
      simp only [Option.some.injEq, HostTarget.rsrc.injEq] at h
      omega
    · cases h

/-- While the other agents step before an access of HOST, SEQ does nothing. -/
theorem seqStill_beforeAccess (s : State) (rest : List HostOp) : SeqStill s (beforeAccess { s with hostq := rest }) := by
  have h : AgentsOnly s { s with hostq := rest } := .of_core rfl
  refine ⟨h.trans (agentsOnly_beforeAccess _), ?_⟩
  simp [SameConfig, SameChannel, SameTransfer, tbufRead]
  rfl

/-- Everything a step that answers `next` can have done. -/
inductive StepTo (s : State) : State → Prop
  /-- the command in progress went on -/
  | resumed {i : Instr} {t : State} (hb : s.busy = true) (hi : s.current = some i) (hx : exec i s = .next t) : StepTo s t
  /-- nothing is pending: the other agents stepped -/
  | idle (hb : s.busy = false) (hq : s.hostq = []) : StepTo s (interleave s)
  /-- a command was accepted and ran -/
  | accepted {w : Word} {rest : List HostOp} {i : Instr} {t : State} (hb : s.busy = false) (hf : s.initFail = false)
      (hq : s.hostq = .write 0 4 w :: rest) (hd : decode w = .ok i) (hw : i.wellFormed s.params = true)
      (hx : exec i (accept w { s with hostq := rest }) = .next t) : StepTo s t
  /-- a write that has no effect, or the end of HOST's wait -/
  | ignored {rest : List HostOp} (hb : s.busy = false) : StepTo s (beforeAccess { s with hostq := rest })
  /-- a byte of RSRC was written -/
  | stored {rest : List HostOp} {i : Nat} {v : Byte} (hb : s.busy = false) (hi : i < s.params.rowWidth) :
      StepTo s { beforeAccess { s with hostq := rest } with rsrc := s.rsrc.write i v }
  /-- a read -/
  | read {rest : List HostOp} {reads : List (Nat × Word)} (hb : s.busy = false) :
      StepTo s { beforeAccess { s with hostq := rest } with reads := reads }
  /-- a reset from a quiescent state -/
  | reset {d : ResetDraw} {rest : List HostOp} {reads : List (Nat × Word)} {bursts : List (List Move)}
      {acqs : List Bool} {drawn filled : Nat} (hb : s.busy = false) :
      StepTo s { State.afterReset s.params d with
        hostq := rest, reads := reads, bursts := bursts, acqs := acqs, drawn := drawn, filled := filled }

/-- Every step that answers `next` did one of the things `StepTo` lists. -/
theorem step_next {s t : State} (h : step s = .next t) : StepTo s t := by
  unfold step advance at h
  split at h
  · rename_i hb
    split at h
    · cases h
    · unfold resume at h
      split at h
      · rename_i i hi
        exact .resumed hb hi h
      · cases h
  · rename_i hb
    have hb : s.busy = false := by simpa using hb
    split at h
    · rename_i hq
      cases h
      exact .idle hb hq
    · rename_i op rest hq
      cases op with
      | read offset width =>
        simp only [hostStep, hostRead] at h
        split at h
        · cases h; exact .read hb
        · cases h
      | awaitIdle => cases h; exact .ignored hb
      | reset d =>
        simp only [hostStep, hostReset] at h
        split at h
        · cases h; exact .reset hb
        · cases h
      | write offset width v =>
        simp only [hostStep, hostWrite] at h
        split at h
        · rename_i ht
          have ho : offset = 0 ∧ width = 4 := by
            unfold hostTarget at ht
            split at ht
            · split at ht
              · omega
              · repeat' split at ht
                all_goals simp at ht
            · split at ht <;> simp at ht
          obtain ⟨rfl, rfl⟩ := ho
          split at h
          · cases h; exact .ignored hb
          · rename_i hf
            have hf : s.initFail = false := by simpa using hf
            unfold submitCommand at h
            split at h
            · rename_i i hd
              split at h
              · rename_i hw
                exact .accepted hb hf hq hd hw h
              · cases h
            · cases h
        · cases h; exact .ignored hb
        · cases h; exact .ignored hb
        · cases h; exact .ignored hb
        · rename_i i ht
          cases h
          exact .stored hb (hostTarget_rsrc ht).2.2
        · cases h

/-! ### Where a hold leaves a command -/

theorem doAct_cursor (a : Act) (s : State) :
    (doAct a s).state.busy = s.busy ∧ (doAct a s).state.step = s.step ∧ (doAct a s).state.act = s.act := by
  cases a <;> simp only [doAct, ActResult.state_done]
  case beginPulse => unfold beginPulse; split <;> (try split) <;> simp
  case awaitPulse => unfold awaitPulse; split <;> simp
  case checkSlot => unfold checkSlot; split <;> simp
  case collectTransfer => unfold collectTransfer; split <;> simp
  all_goals simp

/-- Only the two waits hold (45_command_classes.md R146). -/
theorem doAct_hold {a : Act} {s t : State} (h : doAct a s = .hold t) : a = .awaitPulse ∨ a = .collectTransfer := by
  cases a <;> simp only [doAct, reduceCtorEq] at h
  case beginPulse => unfold beginPulse at h; split at h <;> (try split at h) <;> simp at h
  case awaitPulse => exact .inl rfl
  case checkSlot => unfold checkSlot at h; split at h <;> simp at h
  case collectTransfer => exact .inr rfl

/-- A micro-step that is held stands at the action that held. -/
theorem runActs_hold {acts : List Act} {s t : State} (h : runActs acts s = .hold t) :
    t.busy = s.busy ∧ t.step = s.step ∧ ∃ k a, t.act = s.act + k ∧ acts[k]? = some a ∧ (a = .awaitPulse ∨ a = .collectTransfer) := by
  induction acts generalizing s with
  | nil => cases h
  | cons a acts ih =>
    have hc := doAct_cursor a s
    simp only [runActs] at h
    split at h
    · rename_i u hu
      rw [hu] at hc
      simp only [ActResult.state_done] at hc
      obtain ⟨h1, h2, k, b, h3, h4, h5⟩ := ih h
      refine ⟨?_, ?_, k + 1, b, ?_, h4, h5⟩
      · simpa [hc] using h1
      · simpa [hc] using h2
      · have : (nextAct u).act = s.act + 1 := by simp [nextAct, hc]
        omega
    · cases h
    · rename_i u hu
      rw [hu] at hc
      cases h
      simp only [ActResult.state_hold] at hc
      exact ⟨hc.1, hc.2.1, 0, a, by simp [hc], rfl, doAct_hold hu⟩

theorem runActs_cursor (acts : List Act) (s : State) :
    (runActs acts s).state.busy = s.busy ∧ (runActs acts s).state.step = s.step := by
  refine runActs_induct (P := fun t => t.busy = s.busy ∧ t.step = s.step) (fun a _ t h => ?_) (fun t h => ?_) s ⟨rfl, rfl⟩
  · have := doAct_cursor a t
    exact ⟨this.1.trans h.1, this.2.1.trans h.2⟩
  · simpa using h

/-- A command ends, or it is held where it stands. -/
theorem runSteps_ends {steps : List MicroStep} {s : State} (hb : s.busy = true) :
    (runSteps steps s).busy = false ∨
      (runSteps steps s).busy = true ∧ ∃ k m a, (runSteps steps s).step = s.step + k ∧ steps[k]? = some m ∧
        m[(runSteps steps s).act]? = some a ∧ (a = .awaitPulse ∨ a = .collectTransfer) := by
  induction steps generalizing s with
  | nil => exact .inl rfl
  | cons m steps ih =>
    simp only [runSteps]
    have hc := runActs_cursor (m.drop s.act) s
    cases hr : runActs (m.drop s.act) s with
    | done t =>
      rw [hr] at hc
      simp only [ActResult.state_done] at hc
      rcases ih (s := nextStep t) (by simp [hc, hb]) with h | ⟨h1, k, m', a, h2, h3, h4, h5⟩
      · exact .inl h
      · refine .inr ⟨h1, k + 1, m', a, ?_, h3, h4, h5⟩
        have : (nextStep t).step = s.step + 1 := by simp [nextStep, hc]
        simp only [h2, this]
        omega
    | error c t => exact .inl rfl
    | hold t =>
      obtain ⟨h1, h2, k, a, h3, h4, h5⟩ := runActs_hold hr
      refine .inr ⟨h1.trans hb, 0, m, a, h2, rfl, ?_, h5⟩
      rw [List.getElem?_drop] at h4
      simpa [h3] using h4

/-- A command of `exec` ends, or it stands at one of its two kinds of wait. -/
theorem exec_ends {i : Instr} {s t : State} (hb : s.busy = true) (h : exec i s = .next t) :
    t.busy = false ∨ t.busy = true ∧ (actAt i t = some .awaitPulse ∨ actAt i t = some .collectTransfer) := by
  rw [exec_next h, runCommand]
  rcases runSteps_ends (steps := (microSteps i).drop s.step) hb with h | ⟨h1, k, m, a, h2, h3, h4, h5⟩
  · exact .inl h
  · refine .inr ⟨h1, ?_⟩
    rw [List.getElem?_drop] at h3
    have : actAt i (runSteps ((microSteps i).drop s.step) s) = some a := by simp [actAt, h2, h3, h4]
    rcases h5 with rfl | rfl
    · exact .inl this
    · exact .inr this

/-! ### What the whole run of a command keeps -/

/-- What every action, and every bookkeeping step between actions, keeps, `exec` keeps. -/
theorem exec_induct {P : State → Prop} {i : Instr} {s t : State} (h : exec i s = .next t)
    (hact : ∀ a ∈ (microSteps i).flatten, ∀ s, P s → P (doAct a s).state) (hnext : ∀ s, P s → P (nextAct s))
    (hstep : ∀ s, P s → P (nextStep s)) (hraise : ∀ c s, P s → P (raise c s)) (hret : ∀ s, P s → P (returnOk s))
    (hs : P s) : P t := by
  rw [exec_next h]
  exact runCommand_induct hact hnext hstep hraise hret s hs

/-- What no command writes: the parameters, the latches, `INIT_FAIL`, RSRC. -/
def FixedData (s t : State) : Prop :=
  t.params = s.params ∧ t.op = s.op ∧ t.blk = s.blk ∧ t.a = s.a ∧ t.b = s.b ∧ t.initFail = s.initFail ∧ t.rsrc = s.rsrc

theorem FixedData.trans {s t u : State} (h : FixedData s t) (k : FixedData t u) : FixedData s u := by
  simp only [FixedData] at *
  simp_all

theorem doAct_fixed (a : Act) (s : State) : FixedData s (doAct a s).state := by
  cases a <;> simp only [doAct, ActResult.state_done]
  case beginPulse =>
    unfold beginPulse
    split
    · simp [FixedData]
    · split <;> simp [FixedData]
  case awaitPulse => unfold awaitPulse; split <;> simp [FixedData]
  case checkSlot => unfold checkSlot; split <;> simp [FixedData]
  case collectTransfer => unfold collectTransfer; split <;> simp [FixedData]
  all_goals simp [FixedData]

theorem exec_fixed {i : Instr} {s t : State} (h : exec i s = .next t) : FixedData s t := by
  refine exec_induct (P := fun t => FixedData s t) h (fun a _ t h => h.trans (doAct_fixed a t)) ?_ ?_ ?_ ?_
    (by simp [FixedData])
  all_goals
    intros
    refine FixedData.trans ‹_› ?_
    simp [FixedData]

theorem FixedData.current {s t : State} (h : FixedData s t) : t.current = s.current := by
  obtain ⟨-, h2, h3, h4, h5, -⟩ := h
  simp [State.current, h2, h3, h4, h5]

/-! ### Acceptance -/

/-- The latches hold the accepted command (30_encoding.md R62). -/
theorem accept_current {w : Word} {s : State} {i : Instr} (h : decode w = .ok i) : (accept w s).current = some i := by
  have hz : (fields w).z = 0 := by
    rw [← decode_ok h]
    cases i <;> rfl
  have e : Fields.word ⟨(fields w).op, (fields w).blk, 0, (fields w).a, (fields w).b⟩ = w := by
    rw [← hz]
    exact word_fields w
  simp only [State.current, accept, seqEmit_op, seqEmit_blk, seqEmit_a, seqEmit_b]
  rw [e, h]
  rfl

theorem accept_cyc (w : Word) (s : State) : s.cyc ≤ (accept w s).cyc := by
  unfold accept
  refine Nat.le_trans (Nat.le_of_eq ?_) (interleave_cyc _)
  rfl

/-- Of HOST's lists acceptance changes only this: polls are taken, and each returns its register as acceptance leaves
it. -/
theorem accept_polled (w : Word) (s : State) :
    polledTo (statusWord (accept w s)) (resultWord (accept w s)) s.devices (accept w s).devices := by
  obtain ⟨polls, h1, h2⟩ := interleave_polled
    { s with
      op := (fields w).op, blk := (fields w).blk, a := (fields w).a, b := (fields w).b
      busy := true, step := 0, act := 0 }
  exact ⟨polls, h1, h2⟩

theorem accept_xf_none (w : Word) {s : State} (h : s.xf = .none) : (accept w s).xf = .none := by
  unfold accept seqEmit
  refine (interleave_xf_none _ ?_).1
  exact h

/-! ### Micro-steps in two parts -/

theorem runActs_append (as bs : List Act) (s : State) : runActs (as ++ bs) s =
    match runActs as s with
    | .done t => runActs bs t
    | .error c t => .error c t
    | .hold t => .hold t := by
  induction as generalizing s with
  | nil => rfl
  | cons a as ih =>
    simp only [List.cons_append, runActs]
    cases doAct a s <;> simp [ih]

end Sys2Proof.Machine
end

