-- ==== Sys2Proof/Laws/Timing.lean ====
section
/-! SUPPORT. The timing channel between actions: what holds while no blocking pulse is out, what holds while one is, which of
the two each action needs and leaves, and that the micro-steps keep them in pairs (41_timing_pulse.md R91, R97). -/

namespace Sys2Proof.Machine

/-! ### The two situations -/

/-- No blocking waveform is out. -/
def NonePending (s : State) : Prop :=
  (∀ w ∈ s.pq.tail, w.phase = .queued) ∧ (s.tpr = .none ∧ ∀ w ∈ s.pq, w.blk = false) ∧ (∀ w ∈ s.pq, w.g ≤ s.tchGen) ∧
    (∀ g, s.tch = .held g → g ≤ s.tchGen ∧ ∀ w ∈ s.pq, w.g ≠ g)

/-- A blocking waveform is out, the last one queued, or its result is latched and nothing is queued. -/
def PulsePending (s : State) : Prop :=
  (∀ w ∈ s.pq.tail, w.phase = .queued) ∧
    (s.tch = .absent ∧
      ((s.tpr = .none ∧ ∃ ws w, s.pq = ws ++ [w] ∧ w.blk = true ∧ w.g = s.pulseG ∧ ∀ x ∈ ws, x.blk = false) ∨
        (s.tpr ≠ .none ∧ s.pq = []))) ∧
    (∀ w ∈ s.pq, w.g ≤ s.tchGen) ∧ s.pulseG ≤ s.tchGen

theorem timingInv_iff (s : State) :
    TimingInv s ↔ if s.waitsForPulse = true then PulsePending s else NonePending s := by
  unfold TimingInv
  by_cases h : s.waitsForPulse = true
  · simp only [h, if_true, PulsePending]
    constructor
    · rintro ⟨h1, h2, h3, h4, h5, h6⟩
      exact ⟨h1, h3 trivial, h4, h5 trivial⟩
    · rintro ⟨h1, h3, h4, h5⟩
      refine ⟨h1, by simp, fun _ => h3, h4, fun _ => h5, ?_⟩
      intro g hg
      rw [h3.1] at hg
      cases hg
  · simp only [h, NonePending]
    simp

theorem NonePending.of_eq {s t : State} (h : NonePending s) (h1 : t.pq = s.pq) (h2 : t.tpr = s.tpr)
    (h3 : t.tchGen = s.tchGen) (h4 : t.tch = s.tch) : NonePending t := by
  simp only [NonePending, h1, h2, h3, h4] at *
  exact h

theorem PulsePending.of_eq {s t : State} (h : PulsePending s) (h1 : t.pq = s.pq) (h2 : t.tpr = s.tpr)
    (h3 : t.tchGen = s.tchGen) (h4 : t.tch = s.tch) (h5 : t.pulseG = s.pulseG) : PulsePending t := by
  simp only [PulsePending, h1, h2, h3, h4, h5] at *
  exact h

/-! ### The other agents keep both -/

theorem NonePending.interleave {s : State} (h : NonePending s) : NonePending (interleave s) := by
  obtain ⟨h1, ⟨h2, h3⟩, h4, h5⟩ := h
  have := interleave_queue (P := fun pq r => (∀ w ∈ pq.tail, w.phase = .queued) ∧ r = .none ∧
    (∀ w ∈ pq, w.blk = false) ∧ (∀ w ∈ pq, w.g ≤ s.tchGen) ∧ (∀ g, s.tch = .held g → ∀ w ∈ pq, w.g ≠ g)) s ?_ ?_
    ⟨h1, h2, h3, h4, fun g hg => (h5 g hg).2⟩
  · obtain ⟨k1, k2, k3, k4, k5⟩ := this
    exact ⟨k1, ⟨k2, k3⟩, k4, fun g hg => ⟨(h5 g hg).1, k5 g hg⟩⟩
  · rintro w rest r p ⟨k1, k2, k3, k4, k5⟩
    refine ⟨k1, k2, ?_, ?_, ?_⟩
    · simpa using k3
    · simpa using k4
    · intro g hg
      simpa using k5 g hg
  · rintro w rest r r' hr ⟨k1, k2, k3, k4, k5⟩
    have hb := k3 w List.mem_cons_self
    exact ⟨fun x hx => k1 x (List.mem_of_mem_tail hx), by simp [hb, k2], fun x hx => k3 x (List.mem_cons_of_mem _ hx),
      fun x hx => k4 x (List.mem_cons_of_mem _ hx), fun g hg x hx => k5 g hg x (List.mem_cons_of_mem _ hx)⟩

theorem PulsePending.interleave {s : State} (h : PulsePending s) : PulsePending (interleave s) := by
  obtain ⟨h1, ⟨h2, h3⟩, h4, h5⟩ := h
  have := interleave_queue (P := fun pq r => (∀ w ∈ pq.tail, w.phase = .queued) ∧
    ((r = .none ∧ ∃ ws w, pq = ws ++ [w] ∧ w.blk = true ∧ w.g = s.pulseG ∧ ∀ x ∈ ws, x.blk = false) ∨
      (r ≠ .none ∧ pq = [])) ∧ (∀ w ∈ pq, w.g ≤ s.tchGen)) s ?_ ?_ ⟨h1, h3, h4⟩
  · obtain ⟨k1, k2, k3⟩ := this
    exact ⟨k1, ⟨h2, k2⟩, k3, h5⟩
  · rintro w rest r p ⟨k1, k2, k3⟩
    refine ⟨k1, ?_, by simpa using k3⟩
    rcases k2 with ⟨k2, ws, x, e, e2, e3, e4⟩ | ⟨-, k2⟩
    · left
      cases ws with
      | nil =>
        simp at e
        exact ⟨k2, [], { w with phase := p }, by simp [e.2], by simp [e.1, e2], by simp [e.1, e3], by simp⟩
      | cons y ws =>
        simp at e
        refine ⟨k2, { w with phase := p } :: ws, x, by simp [e.2], e2, e3, ?_⟩
        simp at e4 ⊢
        exact ⟨by rw [e.1]; exact e4.1, e4.2⟩
    · cases k2
  · rintro w rest r r' hr ⟨k1, k2, k3⟩
    refine ⟨fun x hx => k1 x (List.mem_of_mem_tail hx), ?_, fun x hx => k3 x (List.mem_cons_of_mem _ hx)⟩
    rcases k2 with ⟨k2, ws, x, e, e2, e3, e4⟩ | ⟨-, k2⟩
    · cases ws with
      | nil =>
        simp at e
        right
        simp [e.1, e2, hr, e.2]
      | cons y ws =>
        simp at e
        left
        have hy := e4 y List.mem_cons_self
        exact ⟨by simp [e.1, hy, k2], ws, x, e.2, e2, e3, fun z hz => e4 z (List.mem_cons_of_mem _ hz)⟩
    · cases k2

theorem NonePending.seqEmit {s : State} (e : Event) (h : NonePending s) : NonePending (seqEmit e s) :=
  h.interleave.of_eq rfl rfl rfl rfl

/-! ### The actions -/

theorem issueWave_pq (g high low : Nat) (blk : Bool) (s : State) :
    (issueWave g high low blk s).pq = (interleave s).pq ++ [⟨g, high, low, blk, .queued⟩] := rfl

theorem issueWave_tail {g high low : Nat} {blk : Bool} {s : State} (h : ∀ w ∈ (interleave s).pq.tail, w.phase = .queued) :
    ∀ w ∈ (issueWave g high low blk s).pq.tail, w.phase = .queued := by
  rw [issueWave_pq]
  intro w hw
  cases hp : (interleave s).pq with
  | nil => simp [hp] at hw
  | cons y ys =>
    simp [hp] at hw
    rcases hw with hw | rfl
    · exact h w (by simp [hp, hw])
    · rfl

theorem issueWave_gen {g high low : Nat} {blk : Bool} {s : State} (h : ∀ w ∈ (interleave s).pq, w.g ≤ s.tchGen)
    (hg : g ≤ s.tchGen) : ∀ w ∈ (issueWave g high low blk s).pq, w.g ≤ (issueWave g high low blk s).tchGen := by
  rw [issueWave_pq]
  intro w hw
  simp at hw ⊢
  rcases hw with hw | rfl
  · exact h w hw
  · exact hg

/-- A non-blocking issue leaves no blocking waveform out. -/
theorem NonePending.issue {g high low : Nat} {s : State} (h : NonePending s) (hg : g ≤ s.tchGen) :
    NonePending (issueWave g high low false s) := by
  obtain ⟨h1, ⟨h2, h3⟩, h4, h5⟩ := h.interleave
  refine ⟨issueWave_tail h1, ⟨h2, ?_⟩, issueWave_gen h4 hg, by simp⟩
  rw [issueWave_pq]
  intro w hw
  simp at hw
  rcases hw with hw | rfl
  · exact h3 w hw
  · rfl

/-- A blocking issue puts one out (41_timing_pulse.md R95). -/
theorem NonePending.issueBlocking {g high low : Nat} {s : State} (h : NonePending s) (hg : g ≤ s.tchGen) :
    PulsePending (issueWave g high low true s) := by
  obtain ⟨h1, ⟨h2, h3⟩, h4, h5⟩ := h.interleave
  exact ⟨issueWave_tail h1, ⟨by simp, .inl ⟨h2, _, _, issueWave_pq g high low true s, rfl, by simp [issueWave], h3⟩⟩,
    issueWave_gen h4 hg, by simpa [issueWave] using hg⟩

theorem NonePending.acquired {s : State} (h : NonePending s) : NonePending (acquired s) := by
  unfold Machine.acquired
  refine NonePending.seqEmit _ ?_
  obtain ⟨h1, h2, h3, h4⟩ := h
  refine ⟨h1, h2, fun w hw => Nat.le_succ_of_le (h3 w hw), ?_⟩
  intro g hg
  simp at hg
  subst hg
  refine ⟨Nat.le_refl _, fun w hw => ?_⟩
  have := h3 w hw
  show w.g ≠ s.tchGen + 1
  omega

theorem NonePending.acquireFailed {s : State} (h : NonePending s) : NonePending (acquireFailed s) := by
  unfold Machine.acquireFailed
  refine NonePending.seqEmit _ ?_
  exact h.of_eq rfl rfl rfl rfl

theorem NonePending.commit {s : State} (h : NonePending s) : NonePending (commit s) :=
  commit_induct (P := NonePending) (fun _ _ h => h.of_eq rfl rfl rfl rfl)
    (fun h => h.of_eq (by simp) (by simp) (by simp) (by simp)) (fun e _ _ h => h.seqEmit e) h

/-- Every action but the two halves of a blocking pulse keeps `NonePending`. -/
theorem doAct_nonePending {a : Act} {s : State} (h1 : ∀ high low, a ≠ .beginPulse high low true) (h2 : a ≠ .awaitPulse)
    (h : NonePending s) : NonePending (doAct a s).state := by
  cases a <;> simp only [doAct, ActResult.state_done]
  case set => exact h.of_eq rfl rfl rfl rfl
  case commit => exact h.commit
  case delay => exact h.interleave.of_eq rfl rfl rfl rfl
  case beginPulse high low blk =>
    cases blk with
    | true => exact absurd rfl (h1 high low)
    | false =>
      cases ht : s.tch with
      | held g => rw [beginPulse_held ht]; exact h.issue (h.2.2.2 g ht).1
      | absent =>
        cases hq : nextAcq s with
        | true => rw [beginPulse_acquired ht hq]; exact h.acquired.issue (by simp)
        | false => rw [beginPulse_failed ht hq]; exact h.acquireFailed
  case awaitPulse => simp at h2
  case checkSlot => unfold checkSlot; split <;> exact h
  case copyRow => exact h.of_eq rfl rfl rfl rfl
  case issueTransfer => exact h.interleave.of_eq rfl rfl rfl rfl
  case collectTransfer => unfold collectTransfer; split <;> exact h.interleave.of_eq rfl rfl rfl rfl
  case fsm => exact h.of_eq rfl rfl rfl rfl

/-- The first half of a blocking pulse puts a waveform out, or fails with none out. -/
theorem beginPulse_blocking {high low : Nat} {s : State} (h : NonePending s) :
    (∃ t, beginPulse high low true s = .done t ∧ PulsePending t) ∨
      ∃ c t, beginPulse high low true s = .error c t ∧ NonePending t := by
  cases ht : s.tch with
  | held g => rw [beginPulse_held ht]; exact .inl ⟨_, rfl, h.issueBlocking (h.2.2.2 g ht).1⟩
  | absent =>
    cases hq : nextAcq s with
    | true => rw [beginPulse_acquired ht hq]; exact .inl ⟨_, rfl, h.acquired.issueBlocking (by simp)⟩
    | false => rw [beginPulse_failed ht hq]; exact .inr ⟨_, _, rfl, h.acquireFailed⟩

/-- The second half takes the result, with nothing queued any more, or goes on waiting (R97, R98, R99). -/
theorem awaitPulse_pending {s : State} (h : PulsePending s) :
    (∃ t, awaitPulse s = .done t ∧ NonePending t ∧ t.pq = [] ∧ ∃ g, t.tch = .held g) ∨
      (∃ c t, awaitPulse s = .error c t ∧ NonePending t) ∨ ∃ t, awaitPulse s = .hold t ∧ PulsePending t := by
  have k := h.interleave
  unfold awaitPulse
  cases hr : (interleave s).tpr with
  | none => exact .inr (.inr ⟨_, rfl, k⟩)
  | ended =>
    left
    refine ⟨_, rfl, ?_⟩
    obtain ⟨k1, ⟨k2, k3⟩, k4, k5⟩ := k
    rcases k3 with ⟨k3, -⟩ | ⟨-, k3⟩
    · rw [hr] at k3; cases k3
    · refine ⟨⟨k1, ⟨rfl, ?_⟩, k4, ?_⟩, k3, _, rfl⟩
      · simp [k3]
      · intro g hg
        simp [reclaim] at hg
        subst hg
        exact ⟨k5, by simp [k3]⟩
  | failed =>
    right; left
    refine ⟨_, _, rfl, ?_⟩
    obtain ⟨k1, ⟨k2, k3⟩, k4, k5⟩ := k
    rcases k3 with ⟨k3, -⟩ | ⟨-, k3⟩
    · rw [hr] at k3; cases k3
    · refine ⟨k1, ⟨rfl, by simp [k3]⟩, k4, ?_⟩
      intro g hg
      simp at hg k2
      rw [k2] at hg
      cases hg

/-! ### The two halves stand next to each other -/

/-- Every blocking half is followed by its wait, and a wait stands nowhere else. -/
def paired : List Act → Bool
  | [] => true
  | .beginPulse _ _ true :: as =>
    match as with
    | .awaitPulse :: bs => paired bs
    | _ => false
  | .awaitPulse :: _ => false
  | _ :: as => paired as

/-- The rest of a micro-step, which may begin at a wait. -/
def PairedRest (as : List Act) : Prop := paired as = true ∨ ∃ bs, as = .awaitPulse :: bs ∧ paired bs = true

theorem PairedRest.drop {as : List Act} (n : Nat) (h : PairedRest as) : PairedRest (as.drop n) := by
  induction n generalizing as with
  | zero => simpa
  | succ n ih =>
    cases as with
    | nil => left; simp [paired]
    | cons a as =>
      refine ih ?_
      rcases h with h | ⟨bs, e, h⟩
      · cases a with
        | beginPulse high low blk =>
          cases blk with
          | true =>
            cases as with
            | nil => simp [paired] at h
            | cons b bs => cases b <;> first | exact .inr ⟨_, rfl, h⟩ | simp [paired] at h
          | false => exact .inl h
        | awaitPulse => simp [paired] at h
        | _ => exact .inl h
      · cases e
        exact .inl h

theorem paired_head {as : List Act} (h : paired as = true) : as.head? ≠ some .awaitPulse := by
  cases as with
  | nil => simp
  | cons b bs =>
    simp only [List.head?_cons, ne_eq, Option.some.injEq]
    rintro rfl
    simp [paired] at h

/-- Every micro-step of every command keeps the two halves together. -/
theorem microSteps_paired (i : Instr) : ∀ m ∈ microSteps i, paired m = true := by
  cases i with
  | pulse high low blk => cases blk <;> simp [microSteps, pulseSteps, pulseActs, paired]
  | _ =>
    simp [microSteps, writeSteps, powerOnSteps, powerOffSteps, frameStartSteps, latchRowSteps, skipSteps, frameEndSteps,
      pulseActs, outputRowSteps, paired]

/-- What a state must be where the sequencer stands before action `x`, if any. -/
def StandsAt (x : Option Act) (s : State) : Prop := if x = some .awaitPulse then PulsePending s else NonePending s

/-- One action of a paired micro-step leaves the state the next action needs. -/
theorem doAct_stands {a : Act} {as : List Act} {s t : State} (hp : PairedRest (a :: as)) (hs : StandsAt (some a) s)
    (hd : doAct a s = .done t) : PairedRest as ∧ StandsAt as.head? (nextAct t) := by
  have hrest : PairedRest as := by simpa using hp.drop 1
  refine ⟨hrest, ?_⟩
  rcases hp with hp | ⟨bs, e, hp⟩
  · by_cases hb : ∃ high low, a = .beginPulse high low true
    · obtain ⟨high, low, rfl⟩ := hb
      have hhead : as.head? = some .awaitPulse := by
        cases as with
        | nil => simp [paired] at hp
        | cons b bs => cases b <;> first | rfl | simp [paired] at hp
      have hN : NonePending s := by simpa [StandsAt] using hs
      rcases beginPulse_blocking (high := high) (low := low) hN with ⟨u, e, hu⟩ | ⟨c, u, e, hu⟩
      · have e' : doAct (.beginPulse high low true) s = .done u := e
        rw [hd] at e'
        cases e'
        simp only [StandsAt, hhead, if_true]
        exact hu.of_eq rfl rfl rfl rfl rfl
      · have e' : doAct (.beginPulse high low true) s = .error c u := e
        rw [hd] at e'
        cases e'
    · have ha : a ≠ .awaitPulse := by rintro rfl; simp [paired] at hp
      have hb' : ∀ high low, a ≠ .beginPulse high low true := fun high low h => hb ⟨high, low, h⟩
      have hp' : paired as = true := by
        cases a with
        | beginPulse high low blk =>
          cases blk with
          | true => exact absurd rfl (hb' _ _)
          | false => exact hp
        | awaitPulse => simp at ha
        | _ => exact hp
      have hN : NonePending s := by simpa [StandsAt, ha] using hs
      have k := doAct_nonePending hb' ha hN
      rw [hd] at k
      simp only [StandsAt, paired_head hp', if_false]
      exact k.of_eq rfl rfl rfl rfl
  · cases e
    have hW : PulsePending s := by simpa [StandsAt] using hs
    rcases awaitPulse_pending hW with ⟨u, e, hu, -⟩ | ⟨c, u, e, hu⟩ | ⟨u, e, hu⟩
    · have e' : doAct .awaitPulse s = .done u := e
      rw [hd] at e'
      cases e'
      simp only [StandsAt, paired_head hp, if_false]
      exact hu.of_eq rfl rfl rfl rfl
    all_goals
      have e' : doAct .awaitPulse s = _ := e
      rw [hd] at e'
      cases e'

end Sys2Proof.Machine
end

