-- ==== Sys2Proof/Tests/Slice0.lean ====
section
/-! SUPPORT. The model's own tests, their expected results taken from the vectors V1 to V29 of 95_test_vectors.md, and for
every statement with hypotheses a concrete state and operands that meet them. -/

set_option maxRecDepth 20000

namespace Sys2Proof.Tests

open Sys2Proof.Machine

/-! ### Small states -/

/-- Parameters with `ROW_WIDTH = 4` and the delays in R4's order. -/
def params4 : Params :=
  { rowWidth := 4, d1 := 100, d2 := 500, d3 := 10, d4 := 10, d5 := 100, tick := 1, cycRate := 1
    pinMap := { cfgData := 0, cfgClk := 1, cfgStr := 2, tpOut := 3, bus := [4, 5, 6, 7, 8, 9, 10, 11] } }

/-- Moves enough to play two waveforms and to send a row of four bytes. -/
def promptMoves : List Move := List.replicate 6 .tpg ++ List.replicate 5 (.xfr 0)

/-- After a successful reset, on prompt hardware: all draws successful. -/
def fresh : State :=
  { State.afterReset params4 ResetDraw.powerUp with
    bursts := List.replicate 130 promptMoves, acqs := [true, true, true, true] }

/-- The same on hardware that makes no move at all. -/
def still : State := { fresh with bursts := List.replicate 130 [] }

/-- HOST is about to write `w` to `CMD`. -/
def sending (w : Word) (s : State) : State := { s with hostq := [.write 0x000 4 w] }

/-- The state after one step, where there is one. -/
def stepped (s : State) : State :=
  match step s with
  | .next t => t
  | .fault _ => s
  | .refused _ => s

/-- What a refused illegal word shows, where the step is so refused. -/
def shown (s : State) : State :=
  match step s with
  | .next _ => s
  | .fault _ => s
  | .refused r =>
    match r with
    | .illegalCommand _ t => t
    | .notModelled _ => s
    | .hostAccess _ _ => s
    | .resetInProgress => s
    | .accessWhileBusy _ _ => s

/-- The state after one command, where there is one. -/
def ran (i : Instr) (s : State) : State :=
  match exec i s with
  | .next t => t
  | .fault _ => s
  | .refused _ => s

/-- The events a step added. -/
def added (s : State) : List Event := (stepped s).trace.drop s.trace.length

/-! ### WellFormed: an ill-formed term for each check -/

theorem test_wf_row_too_long : Instr.wellFormed params4 (.outputRow 50 5) = false := by decide
theorem test_wf_row_fits : Instr.wellFormed params4 (.outputRow 50 4) = true := by decide
theorem test_wf_empty_row : Instr.wellFormed params4 (.outputRow 0 0) = true := by decide
theorem test_wf_params : params4.ok := by decide
theorem test_wf_no_row : ¬ Params.ok { params4 with rowWidth := 0 } := by decide
theorem test_wf_wide_row : ¬ Params.ok { params4 with rowWidth := 4096 } := by decide
theorem test_wf_d1_d2 : ¬ Params.ok { params4 with d1 := 500 } := by decide
theorem test_wf_d4_d5 : ¬ Params.ok { params4 with d5 := 10 } := by decide
theorem test_wf_d4_d1 : ¬ Params.ok { params4 with d1 := 5 } := by decide
theorem test_wf_d5_d2 : ¬ Params.ok { params4 with d5 := 501 } := by decide

/-! ### Decode (V4): OP, BLK, Z, A and B written out from R60 and R61 -/

theorem test_decode_write : decode 0b0001_0_000_000000000000_000000000000 = .ok .write := by decide
theorem test_decode_pulse : decode 0b0010_1_000_000000001010_000000001010 = .ok (.pulse 10 10 true) := by decide
theorem test_decode_pulse_nonblocking :
    decode 0b0010_0_000_000000101101_000000000101 = .ok (.pulse 45 5 false) := by decide
theorem test_decode_pulse_largest : decode 0x28FFFFFF = .ok (.pulse 4095 4095 true) := by decide
theorem test_decode_pulse_zero : decode 0x20000000 = .ok (.pulse 0 0 false) := by decide
theorem test_decode_powerOn : decode 0b0011_0_000_000000000000_000000000000 = .ok .powerOn := by decide
theorem test_decode_powerOff : decode 0b0100_0_000_000000000000_000000000000 = .ok .powerOff := by decide
theorem test_decode_frameStart : decode 0b0101_0_000_000000000000_000000000000 = .ok .frameStart := by decide
theorem test_decode_latchRow : decode 0b0110_0_000_000000000000_000000000000 = .ok .latchRow := by decide
theorem test_decode_outputRow : decode 0b0111_0_000_000000110010_000000000100 = .ok (.outputRow 50 4) := by decide
theorem test_decode_outputRow_zero : decode 0x70000000 = .ok (.outputRow 0 0) := by decide
theorem test_decode_skip : decode 0b1000_0_000_000000000000_000000000000 = .ok .skip := by decide
theorem test_decode_frameEnd : decode 0b1001_0_000_000000000000_000000000000 = .ok .frameEnd := by decide

/-- Illegal words of V4, each refused by the reason R69 gives. -/
theorem test_decode_illegal :
    decode 0x00000000 = .error (.illegalOp 0) ∧ decode 0xA0000000 = .error (.illegalOp 0xA) ∧
    decode 0xF0000000 = .error (.illegalOp 0xF) ∧ decode 0x18000000 = .error .strayBlk ∧
    decode 0x10000001 = .error (.strayOperand 0 1) ∧ decode 0x30001000 = .error (.strayOperand 1 0) ∧
    decode 0x21000000 = .error (.reservedZ 1) ∧ decode 0x2FFFFFFF = .error (.reservedZ 7) ∧
    decode 0x78032002 = .error .strayBlk ∧ decode 0xFFFFFFFF = .error (.reservedZ 7) := by decide

theorem test_tableWord : decodeTableWord 32 0x70032002 = some (.outputRow 50 2) := by decide
theorem test_tableWord_illegal : decodeTableWord 32 0xA0000000 = none := by decide

/-! ### WRITE -/

/-- V1: the full pin list of a WRITE from reset. -/
theorem test_write_pins : (stepped (sending 0x10000000 still)).trace =
    [ .reset true, .cmd 0x10000000, .pin .cfgStr false,
      .pin .cfgData false, .pin .cfgClk false, .pin .cfgClk true,
      .pin .cfgData false, .pin .cfgClk false, .pin .cfgClk true,
      .pin .cfgData false, .pin .cfgClk false, .pin .cfgClk true,
      .pin .cfgData true, .pin .cfgClk false, .pin .cfgClk true,
      .pin .cfgData false, .pin .cfgClk false, .pin .cfgClk true,
      .pin .cfgData false, .pin .cfgClk false, .pin .cfgClk true,
      .pin .cfgData true, .pin .cfgClk false, .pin .cfgClk true,
      .pin .cfgData false, .pin .cfgClk false, .pin .cfgClk true,
      .pin .cfgStr true, .cfg 0x12, .ret .ok ] := by decide

/-- V1: the end state. -/
theorem test_write_end :
    let t := stepped (sending 0x10000000 still)
    t.panelCfg = some 0x12 ∧ t.cfg = 0x12 ∧ t.cfgStr = true ∧ t.cfgClk = true ∧ t.cfgData = false ∧
      t.fsm = .poweredOff ∧ resultWord t = 0 ∧ statusWord t = 0x00000008 := by decide

/-! ### PULSE -/

/-- V5. -/
theorem test_pulse_blocking :
    let t := stepped (sending 0x2800A00A fresh)
    t.trace = [.reset true, .cmd 0x2800A00A, .tpAcquire 1, .tpIssue 1 10 10 true, .tpSeg 1 true 10, .tpSeg 1 false 10,
      .tpEnd 1, .ret .ok] ∧ t.tch = .held 1 ∧ t.tchGen = 1 ∧ t.pq = [] ∧ t.tpr = .none ∧ t.tpOut = false ∧
      statusWord t = 0x00000018 := by decide

/-- V10: the waveform fails after its high segment. -/
theorem test_pulse_transmit_error :
    let t := stepped (sending 0x2800A00A { fresh with bursts := [[], [], [], [.tpg, .tpgFail true], []] })
    t.trace = [.reset true, .cmd 0x2800A00A, .tpAcquire 1, .tpIssue 1 10 10 true, .tpSeg 1 true 10, .tpFail 1,
      .ret .transmit] ∧ t.tch = .absent ∧ t.tchGen = 1 ∧ t.pq = [] ∧ resultWord t = 0x00000009 := by decide

/-! ### POWER_ON and POWER_OFF -/

/-- V12: POWER_ON from reset. -/
theorem test_powerOn :
    let t := stepped (sending 0x30000000 still)
    commitTrace t = [0x30, 0x38, 0x3C, 0x3C] ∧ t.fsm = .idle ∧ statusWord t = 0x0000000A ∧ 700 ≤ t.cyc := by decide

/-- V14: POWER_ON from 0x01. -/
theorem test_powerOn_latched : commitTrace (ran .powerOn { still with cfg := 0x01 }) = [0x21, 0x29, 0x2D, 0x3D] := by
  decide

/-- V12: POWER_OFF after POWER_ON. -/
theorem test_powerOff :
    let t := stepped (sending 0x40000000 { still with cfg := 0x3C, fsm := .idle })
    commitTrace t = [0x38, 0x30, 0x22] ∧ t.fsm = .poweredOff ∧ t.panelCfg = some 0x22 ∧ cfgroWord t = 0x00000022 ∧
      statusWord t = 0x00000008 := by decide

/-- V14: POWER_OFF from 0xFF. -/
theorem test_powerOff_all_ones : commitTrace (ran .powerOff { still with cfg := 0xFF }) = [0xFB, 0xF3, 0xE3] := by decide

/-! ### FRAME_START, LATCH_ROW, SKIP, FRAME_END -/

/-- The events of a list other than pin writes. -/
def withoutPins (es : List Event) : List Event :=
  es.filter fun e => match e with
    | .pin _ _ => false
    | _ => true

/-- V16. -/
theorem test_frameStart :
    let t := stepped (sending 0x50000000 { fresh with cfg := 0x3C, fsm := .idle })
    withoutPins t.trace = [ .reset true, .cmd 0x50000000,
      .cfg 0x7C, .tpAcquire 1, .tpIssue 1 1 1 true, .tpSeg 1 true 1, .tpSeg 1 false 1, .tpEnd 1,
      .cfg 0x6C, .delay 10, .tpIssue 1 10 10 true, .tpSeg 1 true 10, .tpSeg 1 false 10, .tpEnd 1,
      .cfg 0x7C, .tpIssue 1 0 10 true, .tpSeg 1 false 10, .tpEnd 1,
      .cfg 0xFC, .tpIssue 1 1 1 true, .tpSeg 1 true 1, .tpSeg 1 false 1, .tpEnd 1, .ret .ok ] ∧
      t.cfg = 0xFC ∧ t.fsm = .frameActive ∧ t.tch = .held 1 ∧ statusWord t = 0x0000001C := by decide

/-- V17 (a). -/
theorem test_frameStart_no_channel :
    let t := stepped (sending 0x50000000 { fresh with cfg := 0x3C, fsm := .idle, acqs := [false] })
    withoutPins t.trace = [.reset true, .cmd 0x50000000, .cfg 0x7C, .tpAcquireFail, .ret .channelUnavailable] ∧
      t.cfg = 0x7C ∧ t.fsm = .idle ∧ t.tch = .absent := by decide

/-- V18: from 0xFC. -/
theorem test_latchRow :
    withoutPins (added (sending 0x60000000 { still with cfg := 0xFC })) = [.cmd 0x60000000, .cfg 0xFD, .cfg 0xFC, .ret .ok] := by
  decide

/-- V18: from 0xFD. -/
theorem test_latchRow_latched : commitTrace (ran .latchRow { still with cfg := 0xFD }) = [0xFD, 0xFC] := by decide

/-- V19: with the channel held. -/
theorem test_skip_held :
    let t := stepped (sending 0x80000000 { still with tch := .held 1, tchGen := 1 })
    added (sending 0x80000000 { still with tch := .held 1, tchGen := 1 }) =
      [.cmd 0x80000000, .tpIssue 1 45 5 false, .ret .ok] ∧ t.tch = .absent := by decide

/-- V19: with the channel absent, one acquisition made before. -/
theorem test_skip_absent :
    added (sending 0x80000000 { still with tchGen := 1 }) =
      [.cmd 0x80000000, .tpAcquire 2, .tpIssue 2 45 5 false, .ret .ok] := by decide

/-- V20. -/
theorem test_frameEnd :
    let s := sending 0x90000000 { fresh with cfg := 0xFC, fsm := .frameActive, tchGen := 3 }
    withoutPins (added s) = [ .cmd 0x90000000, .cfg 0x7C, .cfg 0x7C, .tpAcquire 4,
      .tpIssue 4 10 10 true, .tpSeg 4 true 10, .tpSeg 4 false 10, .tpEnd 4,
      .tpIssue 4 10 10 true, .tpSeg 4 true 10, .tpSeg 4 false 10, .tpEnd 4, .ret .ok ] ∧
      (stepped s).cfg = 0x7C ∧ (stepped s).fsm = .idle ∧ (stepped s).tch = .held 4 ∧
      statusWord (stepped s) = 0x0000001A := by decide

/-- V21: the acquisition fails; the drive waveform stays queued. -/
theorem test_frameEnd_no_channel :
    let w : Wave := ⟨3, 50, 50, false, .queued⟩
    let s := sending 0x90000000
      { still with cfg := 0xFC, fsm := .frameActive, tchGen := 3, pq := [w], acqs := [false] }
    withoutPins (added s) = [.cmd 0x90000000, .cfg 0x7C, .cfg 0x7C, .tpAcquireFail, .ret .channelUnavailable] ∧
      (stepped s).fsm = .frameActive ∧ (stepped s).pq = [w] := by decide

/-! ### OUTPUT_ROW -/

/-- V22's start. -/
def rowState : State :=
  { fresh with
    rsrc := [(0, 0xAA), (1, 0x55), (2, 0x11), (3, 0x22)], tbuf := some [(0, 1), (1, 2), (2, 3), (3, 4)]
    cfg := 0xFC, fsm := .frameActive, tch := .held 1, tchGen := 1 }

/-- V22. -/
theorem test_outputRow :
    let s := sending 0x70032002 rowState
    (withoutPins (added s)).filter Event.bySeq =
      [.cmd 0x70032002, .cfg 0xFD, .cfg 0xFC, .tpIssue 1 50 50 false, .xfIssue [0xAA, 0x55, 0, 0], .ret .ok] ∧
      (stepped s).tbuf = some [(0, 0xAA), (1, 0x55), (2, 0), (3, 0)] ∧ (stepped s).rsrc = s.rsrc ∧
      (stepped s).tr = .held ∧ (stepped s).xf = .none ∧ (stepped s).tch = .absent ∧ (stepped s).cfg = 0xFC ∧
      statusWord (stepped s) = 0x0000000C := by decide

/-- V24's failing row: the transfer fails after one beat, then the resource is put back. -/
theorem test_outputRow_transfer_error :
    let p : Params := { params4 with rowWidth := 2 }
    let s := sending 0x70014002
      { still with
        params := p, rsrc := [(0, 0xA5), (1, 0x5A)], cfg := 0xFC, tch := .held 1, tchGen := 1
        bursts := List.replicate 57 [] ++ [[.xfr 0, .xfrFail 0], []] }
    withoutPins (added s) = [ .cmd 0x70014002, .cfg 0xFD, .cfg 0xFC, .tpIssue 1 20 50 false, .xfIssue [0xA5, 0x5A],
      .xfBeat 0 0xA5, .xfEnd false, .ret .transferError ] ∧ (stepped s).tr = .held ∧ (stepped s).xf = .none ∧
      resultWord (stepped s) = 0x00000002 := by decide

/-! ### Illegal words, reset and the host port -/

/-- V4, V23: a row longer than the buffer is refused, and shows what R71 says. -/
theorem test_illegal_row :
    let s := sending 0x70032005 { rowState with bursts := [[], []] }
    (shown s).trace = s.trace ++ [.cmd 0x70032005, .ret .illegalCommand] ∧ resultWord (shown s) = 0x00000007 ∧
      (shown s).cfg = 0xFC := by decide

/-- The draw of a failed reset. -/
def failedDraw : ResetDraw := { ResetDraw.powerUp with initOk := false }

/-- V28. -/
theorem test_failed_reset :
    let t := stepped { still with hostq := [.reset failedDraw] }
    t.trace = [.reset false] ∧ statusWord t = 0x00000020 ∧ resultWord t = 0x00000003 ∧ cfgroWord t = 0x00000012 ∧
      (stepped (sending 0x30000000 t)).trace = [.reset false] := by decide

/-- V29: HOST reads `STATUS` after reset. -/
theorem test_host_reads_status :
    (stepped { still with hostq := [.read 0x004 4] }).reads = [(0x004, 0x00000008)] := by decide

/-- P1's `ROW` directive: HOST stores a byte and reads it back (R28). -/
theorem test_host_row_byte :
    (stepped (stepped { still with hostq := [.write 0x1003 1 0x44, .read 0x1003 1] })).reads = [(0x1003, 0x44)] := by
  decide

/-- R45: reading a byte that nothing has written, twice, gives one byte. -/
theorem test_host_row_byte_unwritten :
    (stepped (stepped { still with hostq := [.read 0x1002 1, .read 0x1002 1] })).reads =
      [(0x1002, (Config.freeRowByte 0 2).setWidth 32), (0x1002, (Config.freeRowByte 0 2).setWidth 32)] := rfl

/-- R41: the byte after the last of `RSRC` is outside the map. -/
theorem test_host_outside : step { still with hostq := [.read 0x1004 1] } = .refused (.hostAccess 0x1004 1) := rfl

/-- `withFetchWord` makes the next step run its word. -/
theorem test_fetch : ((stepped (State.withFetchWord still 32 0x60000000)).trace.filterMap Event.committed) = [0x13, 0x12] := by
  decide

/-! ### Witnesses: for every statement with hypotheses, a state and operands that meet all of them -/

/-- A command has been accepted on prompt hardware, with the channel absent and a draw of success to come. -/
def begun : State := { fresh with busy := true }

/-- The same with the channel held. -/
def begunHeld : State := { begun with tch := .held 1, tchGen := 1 }

/-- The same, the next acquisition failing. -/
def begunFails : State := { begun with acqs := [false] }

/-- The command of `i` is in the latches. -/
def latched (i : Instr) (s : State) : State :=
  { s with op := i.fields.op, blk := i.fields.blk, a := i.fields.a, b := i.fields.b }

/-- One command of every kind, with both forms of PULSE. -/
def oneOfEach : List Instr :=
  [ .write, .pulse 3 4 true, .pulse 3 4 false, .powerOn, .powerOff, .frameStart, .latchRow, .outputRow 50 2, .skip,
    .frameEnd ]

/-- PULSE 3, 4, B waits for its waveform; the next burst plays it as `moves` say. -/
def waitingPulse (moves : List Move) : State :=
  latched (.pulse 3 4 true) { still with
    busy := true, act := 1, tchGen := 1, pulseG := 1, pq := [⟨1, 3, 4, true, .queued⟩], bursts := [moves, []] }

/-- OUTPUT_ROW 50, 2 waits for its transfer; the next burst moves it as `moves` say. -/
def waitingRow (moves : List Move) : State :=
  latched (.outputRow 50 2) { still with
    busy := true, step := 6, tr := .absent, tbuf := some [(0, 1), (1, 2), (2, 0), (3, 0)], xf := .active [1, 2, 0, 0] 3
    bursts := [moves, []] }

/-- FRAME_START or FRAME_END waits in micro-step `step` for its waveform, which the next burst plays to its end. -/
def waitingFrame (i : Instr) (step act : Nat) : State :=
  latched i { waitingPulse [.tpg, .tpg, .tpg] with step := step, act := act }

/-- ENV is prompt for `k` events, then fails a waveform before the last of its `n` play steps, then does nothing. -/
def failing (k n : Nat) (s : State) : State :=
  { s with bursts := List.replicate k promptMoves ++ [List.replicate (n - 1) .tpg ++ [.tpgFail true], []] }

theorem failing_failsAt (k n : Nat) (s : State) (hn : 0 < n)
    (hp : promptBurst (tpgWork s.pq + 3) (s.params.rowWidth + 1) promptMoves = true) : (failing k n s).failsAt k n := by
  refine ⟨⟨by simp [failing], fun m hm => ?_⟩, _, by simp [failing], List.replicate (n - 1) .tpg, true, [], rfl, ?_, ?_⟩
  · have : m ∈ List.replicate k promptMoves := by simpa [failing] using hm
    rw [List.eq_of_mem_replicate this]
    exact hp
  · simp [Move.calm]
  · simp [List.countP_replicate, Move.isTpg]
    omega

/-- R101: the failure of a waveform that does not block is emitted like any other's, and latches nothing. -/
theorem test_tpgFail_nonBlocking :
    let d := tpgFail true { still.devices with pq := [⟨1, 45, 5, false, .high⟩] }
    d.pq = [] ∧ d.trace.getLast? = some (.tpFail 1) ∧ d.tpOut = true ∧ d.tpr = .none := by decide

/-- V17 (b), the failure in the low part of the waveform. -/
theorem test_frameStart_transmit :
    let t := ran .frameStart { failing 59 3 begun with cfg := 0x3C, fsm := .idle }
    withoutPins t.trace = [ .reset true, .cfg 0x7C, .tpAcquire 1, .tpIssue 1 1 1 true, .tpSeg 1 true 1, .tpSeg 1 false 1,
      .tpEnd 1, .cfg 0x6C, .delay 10, .tpIssue 1 10 10 true, .tpSeg 1 true 10, .tpSeg 1 false 10, .tpFail 1, .ret .transmit ] ∧
      t.cfg = 0x6C ∧ t.panelCfg = some 0x6C ∧ t.fsm = .idle ∧ t.tch = .absent ∧ t.tchGen = 1 := by decide

/-- R46: HOST polls `STATUS` while PULSE waits: BUSY, and the transfer slot held. -/
theorem test_poll :
    (stepped { waitingPulse [.poll] with hostq := [.read 0x004 4] }).reads = [(0x004, 0x00000009)] := by decide

/-- R46, U15: a byte write while PULSE waits. -/
theorem test_access_while_busy :
    step { waitingPulse [] with hostq := [.write 0x1000 1 0x44] } = .refused (.accessWhileBusy 0x1000 1) := rfl

/-- R46: TPG steps before HOST's read. -/
theorem test_agents_before_access :
    let s := { still with pq := [⟨1, 3, 4, false, .queued⟩], bursts := [[.tpg]], hostq := [.read 0x00C 4] }
    added s = [.tpSeg 1 true 3] ∧ (stepped s).reads = [(0x00C, 0x12)] ∧ (stepped s).tpOut = true := by decide

/-- R49: a step of TPG between the first two pin writes of a commit; HOST's poll is not taken there. -/
theorem test_commit_interleaves :
    let s := { begun with
      pq := [⟨1, 3, 4, false, .queued⟩], bursts := [[], [.tpg, .poll]] ++ List.replicate 25 [.poll]
      hostq := [.read 0x004 4] }
    ((commit s).trace.drop s.trace.length).take 3 = [.pin .cfgStr false, .tpSeg 1 true 3, .pin .cfgData false] ∧
      (commit s).hostq = s.hostq ∧ (commit s).reads = [] := by decide

/-- R183: a reset while a command is in progress. -/
theorem test_reset_while_busy :
    step { waitingPulse [] with hostq := [.reset ResetDraw.powerUp] } = .refused .resetInProgress := rfl

theorem witness_EncodeDecodeRoundTrip : decode 0x2800A00A = .ok (.pulse 10 10 true) := by decide

/-- A word for each row, the two rows with operands at their largest. -/
theorem witness_DecodeFollowsTable :
    decode 0x10000000 = .ok .write ∧ decode 0x28FFFFFF = .ok (.pulse 4095 4095 true) ∧ decode 0x30000000 = .ok .powerOn ∧
    decode 0x40000000 = .ok .powerOff ∧ decode 0x50000000 = .ok .frameStart ∧ decode 0x60000000 = .ok .latchRow ∧
    decode 0x70FFFFFF = .ok (.outputRow 4095 4095) ∧ decode 0x80000000 = .ok .skip ∧ decode 0x90000000 = .ok .frameEnd := by
  decide

/-- Distinct fields; the first of a group of two updates, and the second, with the commit after it. -/
theorem witness_FieldUpdateIsLocal :
    CfgField.scanDirection ≠ .powerDisable ∧
    powerOnSteps.head? = some [.set .scanDirection true, .set .powerDisable false, .commit, .delay .d1] := by decide

theorem witness_StepRunsCommand :
    ((sending 0x70032004 still).busy = false ∧ (sending 0x70032004 still).initFail = false ∧
      (sending 0x70032004 still).hostq = .write 0x000 4 0x70032004 :: [] ∧
      decode 0x70032004 = .ok (.outputRow 50 4) ∧ Instr.wellFormed (sending 0x70032004 still).params (.outputRow 50 4) = true) ∧
    (∀ op ∈ [HostOp.read 0x004 4, .read 0x008 4, .awaitIdle],
      let s := { waitingPulse [] with hostq := [op] }
      s.busy = true ∧ s.current = some (.pulse 3 4 true) ∧ s.hostq = op :: []) ∧
    still.busy = false ∧ still.hostq = [] := by decide

/-- A failed reset. -/
def failed : State := stepped { still with hostq := [.reset failedDraw] }

theorem witness_CommandNotAcceptedUnlessIdle :
    (∃ t, (sending 0x10000000 begun).busy = true ∧ (sending 0x10000000 begun).hostq = .write 0x000 4 0x10000000 :: [] ∧
      exec .write (sending 0x10000000 begun) = .next t) ∧
    (sending 0x10000000 failed).busy = false ∧ (sending 0x10000000 failed).initFail = true ∧
      (sending 0x10000000 failed).hostq = .write 0x000 4 0x10000000 :: [] := by
  refine ⟨⟨_, rfl, rfl, rfl⟩, ?_⟩
  decide

theorem witness_AcceptanceLoadsLatches : decode 0x28FFFFFF = .ok (.pulse 4095 4095 true) := by decide

theorem witness_IllegalWordReportsCode7 :
    (sending 0x70032005 still).busy = false ∧ (sending 0x70032005 still).initFail = false ∧
    (sending 0x70032005 still).hostq = .write 0x000 4 0x70032005 :: [] ∧
    ¬ ∃ i, decode 0x70032005 = .ok i ∧ i.wellFormed (sending 0x70032005 still).params = true := by
  refine ⟨rfl, rfl, rfl, ?_⟩
  rintro ⟨i, h, hw⟩
  have h0 : decode 0x70032005 = .ok (.outputRow 50 5) := by decide
  rw [h0] at h
  cases h
  revert hw
  decide

/-- For WriteCommitsRegister, LatchRowCommitsTwice, PowerOnStagesRails and PowerOffDropsRails. -/
theorem witness_atStart : begun.atStart := ⟨rfl, rfl⟩

/-- For WriteLatchFrame, PowerFrame, PulseSkipFrame, FrameScanFrame, OutputRowFrame, FsmIsNotRead and
CommandsOnlyAppendToTrace: every command answers a next state. -/
theorem witness_exec_next : ∀ i ∈ oneOfEach, ∃ t, exec i begun = .next t := by
  intro i hi
  simp only [oneOfEach, List.mem_cons, List.not_mem_nil, or_false] at hi
  rcases hi with rfl | rfl | rfl | rfl | rfl | rfl | rfl | rfl | rfl | rfl <;> exact ⟨_, rfl⟩

/-- For CommitCountPerCommand, FsmTransitions and CausesPerCommand: from its start, busy, every command can end with Ok. -/
theorem witness_commands_end :
    begun.step = 0 ∧ begun.act = 0 ∧ begun.busy = true ∧
    ∀ i ∈ oneOfEach, (ran i begun).busy = false ∧ (ran i begun).result = .ok := by decide

/-- For CausesPerCommand and FsmTransitions: every error of R151 occurs. -/
theorem witness_commands_fail :
    (ran (.pulse 3 4 true) begunFails).result = .channelUnavailable ∧
    (ran (.pulse 3 4 false) begunFails).result = .channelUnavailable ∧
    (ran .skip begunFails).result = .channelUnavailable ∧
    (ran .frameStart begunFails).result = .channelUnavailable ∧
    (ran .frameEnd begunFails).result = .channelUnavailable ∧
    (ran (.outputRow 50 2) begunFails).result = .channelUnavailable ∧
    (ran (.outputRow 50 2) { begun with tr := .absent }).result = .resourceUnavailable ∧
    (ran (.outputRow 50 2) (waitingRow [.xfrFail 0])).result = .transferError ∧
    (ran (.pulse 3 4 true) (waitingPulse [.tpgFail true])).result = .transmit := by decide

theorem witness_PowerCycleLeaves : begun.atStart ∧ ∃ t u v, exec .powerOn begun = .next t ∧ u.atStart ∧ u.cfg = t.cfg ∧
    exec .powerOff u = .next v :=
  ⟨⟨rfl, rfl⟩, ran .powerOn begun, { begun with cfg := (ran .powerOn begun).cfg }, _, rfl, ⟨rfl, rfl⟩, rfl, rfl⟩

/-- The premise of R115 at reset's register and at one with both rails on, and a commit with both on. -/
theorem witness_RailsNeverPositiveAlone :
    (CfgField.get .posPowerEnable begun.cfg = true → CfgField.get .negPowerEnable begun.cfg = true) ∧
    (CfgField.get .posPowerEnable 0x3C = true ∧ CfgField.get .negPowerEnable 0x3C = true) ∧
    0x3C ∈ (commitTrace (ran .powerOn begun)).drop (commitTrace begun).length ∧
    0x30 ∈ (commitTrace (ran .powerOff { begun with cfg := 0x3C })).drop (commitTrace begun).length := by decide

/-- A peripheral with one waveform, in a phase. -/
def playing (high : Nat) (p : Phase) : Devices := { still.devices with pq := [⟨1, high, 0, true, p⟩] }

theorem witness_TpgSteps :
    ((playing 1 .queued).pq = ⟨1, 1, 0, true, .queued⟩ :: [] ∧ 0 < 1) ∧
    (playing 0 .queued).pq = ⟨1, 0, 0, true, .queued⟩ :: [] ∧
    (playing 1 .high).pq = ⟨1, 1, 0, true, .high⟩ :: [] ∧ (playing 0 .low).pq = ⟨1, 0, 0, true, .low⟩ :: [] := by decide

theorem witness_TpgPlaysQueueInOrder :
    (∀ w ∈ { still.devices with pq := [⟨1, 45, 5, false, .queued⟩, ⟨2, 0, 10, true, .queued⟩] }.pq, w.phase = .queued) ∧
      { still.devices with pq := [⟨1, 45, 5, false, .queued⟩, ⟨2, 0, 10, true, .queued⟩] }.pq ≠ [] := by decide

/-- The acquisition fails; a waveform with a high part and one without fail, the channel acquired and held. -/
theorem witness_PulseFails :
    (begunFails.atStart ∧ begunFails.tch = .absent ∧ acqAfter 0 begunFails = false) ∧
    ((failing 2 3 begun).atStart ∧ channelAfter 0 (failing 2 3 begun) ∧ (failing 2 3 begun).tpr = .none ∧
      1 + (acquireEvents (failing 2 3 begun)).length = 2 ∧ (failing 2 3 begun).failsAt 2 3) ∧
    ((failing 1 2 begunHeld).atStart ∧ channelAfter 0 (failing 1 2 begunHeld) ∧ (failing 1 2 begunHeld).tpr = .none ∧
      1 + (acquireEvents (failing 1 2 begunHeld)).length = 1 ∧ (failing 1 2 begunHeld).failsAt 1 2) :=
  ⟨⟨⟨rfl, rfl⟩, rfl, rfl⟩, ⟨⟨rfl, rfl⟩, .inr rfl, rfl, rfl, failing_failsAt _ _ _ (by decide) (by decide)⟩,
    ⟨rfl, rfl⟩, .inl (by decide), rfl, rfl, failing_failsAt _ _ _ (by decide) (by decide)⟩

/-- For NonBlockingPulseForfeits and SkipIsNonBlockingPulse: the channel held, and absent with a successful draw. -/
theorem witness_channelAfter_zero :
    begunHeld.atStart ∧ channelAfter 0 begunHeld ∧ begun.tch = .absent ∧ channelAfter 0 begun :=
  ⟨⟨rfl, rfl⟩, .inl (by decide), rfl, .inr rfl⟩

/-- For BlockingPulseCompletes, FrameStartCompletes, FrameEndCompletes. -/
theorem witness_prompt :
    begun.atStart ∧ channelAfter 0 begun ∧ channelAfter 27 begun ∧ channelAfter 54 begun ∧ channelAfter 27 begunHeld ∧
      begun.tpr = .none ∧ begun.promptFor 4 ∧ begun.promptFor 60 ∧ begun.promptFor 119 :=
  ⟨⟨rfl, rfl⟩, .inr rfl, .inr rfl, .inr rfl, .inl (by decide), rfl, ⟨by decide, by decide⟩, ⟨by decide, by decide⟩,
    ⟨by decide, by decide⟩⟩

/-- Each kind of wait, not lifted: no move, and for the transfer one beat short of its end. -/
theorem witness_WaitsEndUnderFairness :
    (actAt (.pulse 3 4 true) (waitingPulse []) = some .awaitPulse ∧ (interleave (waitingPulse [])).tpr = .none) ∧
    actAt (.outputRow 50 2) (waitingRow [.xfr 0]) = some .collectTransfer ∧
      ∀ ok, (interleave (waitingRow [.xfr 0])).xf ≠ .ended ok := by decide

theorem witness_WaitingPulseEnds :
    (actAt (.pulse 3 4 true) (waitingPulse [.tpg, .tpg, .tpg]) = some .awaitPulse ∧
      (interleave (waitingPulse [.tpg, .tpg, .tpg])).tpr = .ended) ∧
    (∀ p ∈ [(.frameStart, 0, 3), (.frameStart, 2, 3), (.frameStart, 3, 3), (.frameEnd, 2, 1), (.frameEnd, 3, 1)],
      actAt p.1 (waitingFrame p.1 p.2.1 p.2.2) = some .awaitPulse ∧
        (interleave (waitingFrame p.1 p.2.1 p.2.2)).tpr = .ended ∧ (waitingFrame p.1 p.2.1 p.2.2).step = p.2.1) ∧
    actAt (.pulse 3 4 true) (waitingPulse [.tpgFail true]) = some .awaitPulse ∧
      (interleave (waitingPulse [.tpgFail true])).tpr = .failed := by decide

theorem witness_AcquiredInstancesAreFresh :
    (∃ t, exec .skip begun = .next t) ∧ .tpAcquire 1 ∈ (seqTrace (ran .skip begun)).drop (seqTrace begun).length :=
  ⟨⟨_, rfl⟩, by decide⟩

/-- The timing invariant of a state whose queue is empty, with the channel absent. -/
theorem timingInv_quiet {s : State} (hq : s.pq = []) (ht : s.tpr = .none) (hc : s.tch = .absent)
    (hw : s.waitsForPulse = false) : TimingInv s := by
  refine ⟨by simp [hq], fun _ => ⟨ht, by simp [hq]⟩, fun h => ?_, by simp [hq], fun h => ?_, fun g h => ?_⟩
  · rw [hw] at h; cases h
  · rw [hw] at h; cases h
  · rw [hc] at h; cases h

/-- The timing invariant of PULSE 3, 4, B while it waits. -/
theorem timingInv_waiting (moves : List Move) : TimingInv (waitingPulse moves) := by
  have hw : (waitingPulse moves).waitsForPulse = true := by
    simp only [State.waitsForPulse, State.current, actAt, waitingPulse, latched]
    decide
  refine ⟨List.forall_mem_nil _, fun h => ?_, fun _ => ⟨rfl, .inl ⟨rfl, [], _, rfl, rfl, rfl, by simp⟩⟩, ?_, fun _ => Nat.le_refl _, ?_⟩
  · rw [hw] at h; cases h
  · intro w h
    have : w = ⟨1, 3, 4, true, .queued⟩ := List.mem_singleton.1 h
    rw [this]
    exact Nat.le_refl _
  · intro g h; cases h

theorem witness_BlockingPulseJoins_start :
    ∀ i ∈ [Instr.pulse 3 4 true, .frameStart, .frameEnd],
      TimingInv (latched i begun) ∧ (latched i begun).busy = true ∧ (latched i begun).current = some i ∧
      (latched i begun).atStart ∧ exec i (latched i begun) = .next (ran i (latched i begun)) ∧
      endedWith .ok (ran i (latched i begun)) := by
  intro i hi
  simp only [List.mem_cons, List.not_mem_nil, or_false] at hi
  rcases hi with rfl | rfl | rfl <;>
    exact ⟨timingInv_quiet rfl rfl rfl rfl, rfl, by decide, ⟨rfl, rfl⟩, rfl, by decide, by decide⟩

theorem witness_BlockingPulseJoins_waiting :
    let s := waitingPulse [.tpg, .tpg, .tpg]
    TimingInv s ∧ s.busy = true ∧ s.current = some (.pulse 3 4 true) ∧ s.waitsForPulse = true ∧
      exec (.pulse 3 4 true) s = .next (ran (.pulse 3 4 true) s) ∧ endedWith .ok (ran (.pulse 3 4 true) s) :=
  ⟨timingInv_waiting _, rfl, by decide, by decide, rfl, by decide, by decide⟩

/-- The acquisition fails; and each waveform of each row fails. -/
theorem witness_FrameScanFails :
    (begunFails.atStart ∧ begunFails.tch = .absent ∧ acqAfter 27 begunFails = false ∧ acqAfter 54 begunFails = false) ∧
    (∀ k n, (failing k n begun).atStart ∧ (failing k n begun).tpr = .none ∧ (acquireEvents (failing k n begun)).length = 1 ∧
      channelAfter 27 (failing k n begun) ∧ channelAfter 54 (failing k n begun)) ∧
    ∀ row ∈ [(28, 3), (58, 3), (87, 2), (116, 3), (55, 3), (57, 3)],
      (failing (row.1 + 1) row.2 begun).failsAt (row.1 + 1) row.2 := by
  refine ⟨⟨⟨rfl, rfl⟩, rfl, rfl, rfl⟩, fun k n => ⟨⟨rfl, rfl⟩, rfl, rfl, .inr rfl, .inr rfl⟩, fun row hr => ?_⟩
  refine failing_failsAt _ _ _ ?_ (by decide)
  revert row
  decide

/-- The empty row, a short one and a full one, each clause at its boundary. -/
theorem witness_CopyZeroFillsRow :
    rowState.tbuf = some [(0, 1), (1, 2), (2, 3), (3, 4)] ∧ rowState.params.rowWidth = 4 ∧
    (0 < 1 ∧ rowState.rsrc.read 0 = some 0xAA) ∧ (3 < 4 ∧ rowState.rsrc.read 3 = some 0x22) ∧
    tbufRead (copyRow 0 rowState) 0 = some 0 ∧ tbufRead (copyRow 2 rowState) 1 = some 0x55 ∧
    tbufRead (copyRow 2 rowState) 2 = some 0 ∧ tbufRead (copyRow 4 rowState) 3 = some 0x22 ∧
    tbufRead (copyRow 4 rowState) 4 = none := by decide

theorem witness_OutputRowCompletes :
    begunHeld.atStart ∧ channelAfter 54 begunHeld ∧ begunHeld.tr = .held ∧ begunHeld.xf = .none ∧
      begunHeld.tbuf = some [] ∧ (4 : Operand).toNat ≤ begunHeld.params.rowWidth ∧ begunHeld.promptFor 59 :=
  ⟨⟨rfl, rfl⟩, .inl (by decide), rfl, rfl, rfl, by decide, by decide, by decide⟩

/-- For OutputRowFrame's last clause: a row that fits, on the state of witness_exec_next. -/
theorem witness_OutputRowFrame :
    (4 : Operand).toNat ≤ begun.params.rowWidth ∧ ∃ t, exec (.outputRow 50 4) begun = .next t := ⟨by decide, _, rfl⟩

theorem witness_OutputRowWithoutResource :
    let s := { begunHeld with tr := .absent }
    s.atStart ∧ channelAfter 54 s ∧ s.tr = .absent := ⟨⟨rfl, rfl⟩, .inl (by decide), rfl⟩

theorem witness_OutputRowAcquisitionFails :
    begunFails.atStart ∧ begunFails.tch = .absent ∧ acqAfter 54 begunFails = false := ⟨⟨rfl, rfl⟩, rfl, rfl⟩

/-- The transfer ends well, ends in failure, and, in a state no run reaches, the slot is held already. -/
theorem witness_OutputRowPutsBack :
    (actAt (.outputRow 50 2) (waitingRow [.xfr 0, .xfr 0]) = some .collectTransfer ∧
      (waitingRow [.xfr 0, .xfr 0]).tr = .absent ∧ (interleave (waitingRow [.xfr 0, .xfr 0])).xf = .ended true) ∧
    (actAt (.outputRow 50 2) (waitingRow [.xfrFail 0]) = some .collectTransfer ∧
      (waitingRow [.xfrFail 0]).tr = .absent ∧ (interleave (waitingRow [.xfrFail 0])).xf = .ended false) ∧
    exec (.outputRow 50 2) { waitingRow [.xfrFail 0] with tr := .held } = .fault .putIntoHeldSlot :=
  ⟨by decide, by decide, rfl⟩

theorem witness_XfrSendsBytesInOrder :
    { still.devices with xf := .active [0xAA, 0x55] 0 }.xf = .active [0xAA, 0x55] 0 ∧
      2 ≤ [(0xAA : Byte), 0x55].length ∧ 1 < [(0xAA : Byte), 0x55].length := by decide

theorem witness_FsmTransitions_waiting :
    let s := waitingPulse [.tpg, .tpg, .tpg]
    let r := waitingRow [.xfrFail 0]
    actAt (.pulse 3 4 true) s = some .awaitPulse ∧ s.busy = true ∧ (ran (.pulse 3 4 true) s).busy = false ∧
      actAt (.outputRow 50 2) r = some .collectTransfer ∧ r.busy = true ∧ (ran (.outputRow 50 2) r).busy = false := by
  decide

/-- For FsmTransitions: a command that is held stays busy. -/
theorem witness_FsmTransitions_held :
    let s := waitingPulse []
    actAt (.pulse 3 4 true) s = some .awaitPulse ∧ s.busy = true ∧ exec (.pulse 3 4 true) s = .next (interleave s) ∧
      (interleave s).busy = true := ⟨rfl, rfl, rfl, rfl⟩

theorem witness_HostReadsAndIgnoredWrites :
    still.busy = false ∧ { still with hostq := [.read 0x000 4] }.hostq = .read 0x000 4 :: [] ∧
      { still with hostq := [.read 0x00C 4] }.hostq = .read 0x00C 4 :: [] ∧
      { still with hostq := [.write 0x004 4 7] }.hostq = .write 0x004 4 7 :: [] ∧
      { still with hostq := [.write 0x00C 4 7] }.hostq = .write 0x00C 4 7 :: [] ∧
      3 < rowState.params.rowWidth ∧ rowState.busy = false ∧ rowState.rsrc.read 3 = some 0x22 ∧
      { rowState with hostq := [.read (0x1000 + 3) 1, .read (0x1000 + 3) 1] }.hostq =
        .read (0x1000 + 3) 1 :: .read (0x1000 + 3) 1 :: [] := by decide

/-- PULSE waits and the next move is a poll: each clause has its head of HOST's list. -/
theorem witness_HostReadsAndIgnoredWrites_poll :
    ∀ op ∈ [HostOp.read 0x004 4, .read 0x008 4, .awaitIdle],
      let s := { waitingPulse [.poll] with hostq := [op] }
      s.waitsForPulse = true ∧ s.tpr = .none ∧ nextBurst s = [.poll] ∧ s.hostq = op :: [] := by decide

/-- The first and the last byte of the window. -/
theorem witness_HostStoresRowByte :
    still.busy = false ∧ 0 < still.params.rowWidth ∧ 3 < still.params.rowWidth ∧
      { still with hostq := [.write (0x1000 + 3) 1 0x44] }.hostq = .write (0x1000 + 3) 1 0x44 :: [] := by decide

/-- Refused: the byte past the window, a gap, a wrong width. Not refused: the last byte of the window, the last register. With
`BUSY = 1`: `CFGRO` is refused, a poll of the wrong width too, `STATUS` and `RESULT` are not. -/
theorem witness_HostAccessRefusals :
    still.busy = false ∧
    step { still with hostq := [.read 0x1004 1] } = .refused (.hostAccess 0x1004 1) ∧
    step { still with hostq := [.write 0x010 4 0] } = .refused (.hostAccess 0x010 4) ∧
    step { still with hostq := [.read 0x004 1] } = .refused (.hostAccess 0x004 1) ∧
    (∃ t, step { still with hostq := [.read 0x1003 1] } = .next t) ∧
    (∃ t, step { still with hostq := [.read 0x00C 4] } = .next t) ∧
    (waitingPulse []).busy = true ∧
    step { waitingPulse [] with hostq := [.read 0x00C 4] } = .refused (.accessWhileBusy 0x00C 4) ∧
    step { waitingPulse [] with hostq := [.read 0x004 1] } = .refused (.accessWhileBusy 0x004 1) ∧
    (∃ t, step { waitingPulse [] with hostq := [.read 0x004 4] } = .next t) ∧
    ∃ t, step { waitingPulse [] with hostq := [.read 0x008 4] } = .next t :=
  ⟨rfl, rfl, rfl, rfl, ⟨_, rfl⟩, ⟨_, rfl⟩, rfl, rfl, rfl, ⟨_, rfl⟩, ⟨_, rfl⟩⟩

/-- A command waits; a waveform is queued; a transfer is in flight; nothing is in progress. -/
theorem witness_HostResetOutcomes :
    (waitingPulse []).busy = true ∧
    (interleave { still with pq := [⟨1, 1, 1, false, .queued⟩] }).pq ≠ [] ∧
    (interleave { still with xf := .active [0] 0 }).xf ≠ .none ∧
    (interleave still).pq = [] ∧ (interleave still).xf = .none ∧ still.busy = false ∧
    { still with hostq := [.reset failedDraw] }.hostq = .reset failedDraw :: [] := by decide

/-- A quiet state with a WRITE to come meets every invariant and takes a step, and so does one that waits. -/
theorem witness_invariants :
    MemoryInv (sending 0x10000000 still) ∧ ArbiterInv (sending 0x10000000 still) ∧ PanelInv (sending 0x10000000 still) ∧
      ControlInv (sending 0x10000000 still) ∧ TimingInv (sending 0x10000000 still) ∧
      ∃ t, step (sending 0x10000000 still) = .next t := by
  refine ⟨⟨by decide, by decide, ?_, by decide⟩, ⟨by decide, by decide, by decide, ?_⟩, .inl rfl, ?_,
    timingInv_quiet rfl rfl rfl rfl, ⟨_, rfl⟩⟩
  · intro m h; cases h; decide
  · intro data sent h; cases h
  · intro h; cases h

theorem witness_invariants_waiting :
    ControlInv (waitingPulse []) ∧ TimingInv (waitingPulse []) ∧ ArbiterInv (waitingPulse []) ∧
      ArbiterInv (waitingRow []) ∧ ControlInv (waitingRow []) := by
  refine ⟨fun _ => ⟨⟨.pulse 3 4 true, by decide, by decide⟩, by decide⟩, timingInv_waiting [],
    ⟨by decide, by decide, by decide, ?_⟩, ⟨by decide, by decide, by decide, ?_⟩,
    fun _ => ⟨⟨.outputRow 50 2, by decide, by decide⟩, by decide⟩⟩
  · intro data sent h; cases h
  · intro data sent h; cases h; decide

/-- The states of a machine that is stepped on and on. -/
def stepping (s : State) : Nat → State
  | 0 => s
  | n + 1 => stepped (stepping s n)

/-- For WaitsEndUnderFairness: a waiting PULSE whose waveform the next burst plays, and then nothing to do. -/
theorem witness_fair_run :
    let run := stepping (waitingPulse [.tpg, .tpg, .tpg])
    IsRun run ∧ FairTpg run ∧ FairXfr run ∧ ControlInv (run 0) ∧ ArbiterInv (run 0) ∧ TimingInv (run 0) := by
  intro run
  have idle : ∀ s : State, s.busy = false → s.hostq = [] → step s = .next (interleave s) := by
    intro s hb hq
    simp [step, advance, hb, hq]
  have quiet : ∀ n, (run (n + 1)).busy = false ∧ (run (n + 1)).hostq = [] ∧ (run (n + 1)).pq = [] ∧ (run (n + 1)).xf = .none := by
    intro n
    induction n with
    | zero => decide
    | succ n ih =>
      obtain ⟨h1, h2, h3, h4⟩ := ih
      have : run (n + 1 + 1) = interleave (run (n + 1)) := by
        show stepped (run (n + 1)) = _
        simp [stepped, idle _ h1 h2]
      rw [this]
      exact ⟨by simpa using h1, (interleave_reads _ h2).1, (interleave_quiet h3).1, (interleave_xf_none _ h4).1⟩
  refine ⟨fun n => ?_, fun n h => absurd (quiet n).2.2.1 (h _ (Nat.le_succ n)), fun n h => ?_,
    fun _ => ⟨⟨.pulse 3 4 true, by decide, by decide⟩, by decide⟩, ⟨by decide, by decide, by decide, ?_⟩, timingInv_waiting _⟩
  · have go : ∀ s : State, (∃ t, step s = .next t) → step s = .next (stepped s) := by
      rintro s ⟨t, ht⟩
      simp [stepped, ht]
    cases n with
    | zero => exact go (waitingPulse [.tpg, .tpg, .tpg]) ⟨_, rfl⟩
    | succ n => exact go _ ⟨_, idle _ (quiet n).1 (quiet n).2.1⟩
  · obtain ⟨data, sent, hx⟩ := h _ (Nat.le_succ n)
    rw [(quiet n).2.2.2] at hx
    cases hx
  · intro data sent h; cases h

end Sys2Proof.Tests
end

namespace Sys2Proof.Machine

/-! ### The run of a command -/

/-- What every micro-step, entered at any of its actions, and the ends of a micro-step and of a command keep, a run of
micro-steps keeps. -/
theorem runSteps_induct_microStep {P : State → Prop} {steps : List MicroStep}
    (hmicro : ∀ m ∈ steps, ∀ n s, P s → P (runActs (m.drop n) s).state) (hstep : ∀ s, P s → P (nextStep s))
    (hraise : ∀ c s, P s → P (raise c s)) (hret : ∀ s, P s → P (returnOk s)) (s : State) (hs : P s) :
    P (runSteps steps s) := by
  induction steps generalizing s with
  | nil => exact hret s hs
  | cons m steps ih =>
    have hm := hmicro m List.mem_cons_self s.act s hs
    simp only [runSteps]
    cases hr : runActs (m.drop s.act) s with
    | done t =>
      rw [hr] at hm
      exact ih (fun n hn => hmicro n (List.mem_cons_of_mem _ hn)) _ (hstep t hm)
    | error c t =>
      rw [hr] at hm
      exact hraise c t hm
    | hold t =>
      rw [hr] at hm
      exact hm

/-- Micro-steps without a wait are run to their end, unless the command ends in them. -/
theorem runSteps_past {before after : List MicroStep} {s : State}
    (hb : ∀ m ∈ before, .awaitPulse ∉ m ∧ .collectTransfer ∉ m) (hact : s.act = 0)
    (hbusy : (runSteps (before ++ after) s).busy = true) :
    ∃ u, u.act = 0 ∧ runSteps (before ++ after) s = runSteps after u := by
  induction before generalizing s with
  | nil => exact ⟨s, hact, rfl⟩
  | cons m before ih =>
    simp only [List.cons_append, runSteps] at hbusy ⊢
    cases hr : runActs (m.drop s.act) s with
    | done t =>
      rw [hr] at hbusy
      exact ih (fun n hn => hb n (List.mem_cons_of_mem _ hn)) rfl hbusy
    | error c t => rw [hr] at hbusy; cases hbusy
    | hold t =>
      obtain ⟨-, -, k, a, -, hk, ha⟩ := runActs_hold hr
      have hm : a ∈ m := List.mem_of_mem_drop (List.mem_of_getElem? hk)
      obtain ⟨hpulse, htransfer⟩ := hb m List.mem_cons_self
      obtain rfl | rfl := ha
      · exact absurd hm hpulse
      · exact absurd hm htransfer

/-- Only OUTPUT_ROW at its put can fail to answer a next state, and the next state is the run of the micro-steps. -/
theorem exec_next_iff {i : Instr} {s t : State} :
    exec i s = .next t ↔
      ((∃ d l, i = .outputRow d l) → putsIntoHeld s = false) ∧ t = runCommand (microSteps i) s := by
  constructor
  · intro h
    refine ⟨?_, exec_next h⟩
    rintro ⟨d, l, rfl⟩
    cases hp : putsIntoHeld s with
    | false => rfl
    | true => simp [exec, execOutputRow, hp] at h
  · rintro ⟨hp, rfl⟩
    cases i with
    | outputRow d l => exact exec_eq_next (hp ⟨d, l, rfl⟩)
    | _ => rfl

/-- The sequencer stands at an action of the command. -/
theorem actAt_mem {i : Instr} {s : State} {a : Act} (h : actAt i s = some a) : a ∈ (microSteps i).flatten := by
  obtain ⟨m, hm, ha⟩ := Option.bind_eq_some_iff.1 h
  exact List.mem_flatten.2 ⟨m, List.mem_of_getElem? hm, List.mem_of_getElem? ha⟩

/-- What is left of a command from an action on. -/
theorem actAt_drop {i : Instr} {s : State} {a : Act} (h : actAt i s = some a) :
    ∃ m ms as, (microSteps i).drop s.step = m :: ms ∧ m.drop s.act = a :: as := by
  obtain ⟨m, hm, ha⟩ := Option.bind_eq_some_iff.1 h
  obtain ⟨hlt, rfl⟩ := List.getElem?_eq_some_iff.1 hm
  obtain ⟨hlt', rfl⟩ := List.getElem?_eq_some_iff.1 ha
  exact ⟨_, _, _, List.drop_eq_getElem_cons hlt, List.drop_eq_getElem_cons hlt'⟩

/-! ### The memory invariant (10_state.md R23, R25, R31) -/

/-- An action leaves the row buffer alone, or fills it with a row. -/
theorem doAct_tbuf (a : Act) (s : State) :
    (doAct a s).state.tbuf = s.tbuf ∨ ∃ len, (doAct a s).state = copyRow len s := by
  cases a with
  | copyRow len => exact .inr ⟨len, rfl⟩
  | beginPulse high low blk =>
    left
    simp only [doAct, beginPulse]
    split
    · simp
    · split <;> simp
  | awaitPulse => left; simp only [doAct, awaitPulse]; split <;> simp
  | checkSlot => left; simp only [doAct, checkSlot]; split <;> simp
  | collectTransfer => left; simp only [doAct, collectTransfer]; split <;> simp
  | _ => left; simp [doAct]

theorem MemoryInv.of_eq {s t : State} (h : MemoryInv s) (hp : t.params = s.params) (hr : t.rsrc = s.rsrc)
    (hb : t.tbuf = s.tbuf) (hf : t.initFail = s.initFail) : MemoryInv t := by
  unfold MemoryInv
  rw [hp, hr, hb, hf]
  exact h

/-- The copy of a row keeps the buffer canonical and within `ROW_WIDTH`, whatever the row's length (44_row_output.md
R137). -/
theorem MemoryInv.copyRow {s : State} (len : Nat) (h : MemoryInv s) : MemoryInv (copyRow len s) := by
  obtain ⟨hwf, hwithin, hbuf, hinit⟩ := h
  refine ⟨hwf, hwithin, fun m hm => ?_, by simpa using hinit⟩
  obtain ⟨m₀, hm₀, rfl⟩ := Option.map_eq_some_iff.1 hm
  obtain ⟨hwf₀, hwithin₀⟩ := hbuf m₀ hm₀
  exact ⟨fillBelow_wf _ _ hwf₀, fillBelow_within _ _ hwithin₀⟩

theorem MemoryInv.doAct {s : State} (a : Act) (h : MemoryInv s) : MemoryInv (doAct a s).state := by
  obtain hb | ⟨len, e⟩ := doAct_tbuf a s
  · obtain ⟨hp, -, -, -, -, hf, hr⟩ := doAct_fixed a s
    exact h.of_eq hp hr hb hf
  · rw [e]
    exact h.copyRow len

theorem MemoryInv.exec {i : Instr} {s t : State} (hx : exec i s = .next t) (h : MemoryInv s) : MemoryInv t :=
  exec_induct hx (fun a _ _ h => h.doAct a) (fun _ h => h.of_eq rfl rfl rfl rfl) (fun _ h => h.of_eq rfl rfl rfl rfl)
    (fun _ _ h => h.of_eq rfl rfl rfl rfl) (fun _ h => h.of_eq rfl rfl rfl rfl) h

/-- HOST's store lands inside RSRC and keeps it canonical (10_state.md R25). -/
theorem MemoryInv.store {s : State} {i : Nat} (v : Byte) (hi : i < s.params.rowWidth) (h : MemoryInv s) :
    MemoryInv { s with rsrc := s.rsrc.write i v } := by
  obtain ⟨hwf, hwithin, hrest⟩ := h
  exact ⟨Memory.wf_write i v hwf, Memory.within_write v hi hwithin, hrest⟩

/-- A reset leaves both arrays empty, and no buffer when the allocation failed (70_reset_and_hazards.md R180, R181). -/
theorem memoryInv_afterReset (p : Params) (d : ResetDraw) : MemoryInv (State.afterReset p d) := by
  cases h : d.initOk <;> simp [MemoryInv, Memory.wf, State.afterReset, h]

theorem step_params {s t : State} (h : step s = .next t) : t.params = s.params := by
  cases step_next h with
  | resumed hb hi hx => exact (exec_fixed hx).1
  | accepted hb hf hq hd hw hx => exact (exec_fixed hx).1
  | _ => rfl

theorem MemoryInv.step {s t : State} (hs : step s = .next t) (h : MemoryInv s) : MemoryInv t := by
  cases step_next hs with
  | resumed hb hi hx => exact h.exec hx
  | accepted hb hf hq hd hw hx => exact MemoryInv.exec hx (h.of_eq rfl rfl rfl rfl)
  | stored hb hi => exact (h.store _ hi).of_eq rfl rfl rfl rfl
  | reset hb => exact (memoryInv_afterReset _ _).of_eq rfl rfl rfl rfl
  | idle hb hq => exact h.of_eq rfl rfl rfl rfl
  | ignored hb => exact h.of_eq rfl rfl rfl rfl
  | read hb => exact h.of_eq rfl rfl rfl rfl

/-- Settles O55: only a row's copy, HOST's store and a reset write an array, and each keeps the canonical form. -/
theorem stepKeepsMemoryInv : Obligations.StepKeepsMemoryInv :=
  fun _ _ hs => ⟨step_params hs, fun h => h.step hs⟩

/-! ### The panel invariant (10_state.md R15, R16, R35) -/

/-- In this list of actions every field update is followed by updates up to a commit. With `pending`, updates not yet
committed stand before the list. -/
def commitsUpdates (pending : Bool) : List Act → Bool
  | [] => !pending
  | .set _ _ :: as => commitsUpdates true as
  | .commit :: as => commitsUpdates false as
  | _ :: as => !pending && commitsUpdates false as

/-- The three ways in which such a list begins. -/
theorem commitsUpdates_cons {pending : Bool} {a : Act} {as : List Act} (h : commitsUpdates pending (a :: as) = true) :
    (∃ f b, a = .set f b ∧ commitsUpdates true as = true) ∨ (a = .commit ∧ commitsUpdates false as = true) ∨
      ((∀ f b, a ≠ .set f b) ∧ pending = false ∧ commitsUpdates false as = true) := by
  cases a with
  | set f b => exact .inl ⟨f, b, rfl, h⟩
  | commit => exact .inr (.inl ⟨rfl, h⟩)
  | _ => exact .inr (.inr ⟨by simp, by simpa [commitsUpdates] using h⟩)

/-- Where updates may stand uncommitted, none need to. -/
theorem commitsUpdates_of_pending {as : List Act} (h : commitsUpdates true as = true) :
    commitsUpdates false as = true := by
  cases as with
  | nil => rfl
  | cons a as =>
    obtain ⟨f, b, rfl, h⟩ | ⟨rfl, h⟩ | ⟨-, hp, -⟩ := commitsUpdates_cons h
    · exact h
    · exact h
    · cases hp

theorem commitsUpdates_drop {as : List Act} (n : Nat) (h : commitsUpdates false as = true) :
    commitsUpdates false (as.drop n) = true := by
  induction as generalizing n with
  | nil => simpa using h
  | cons a as ih =>
    cases n with
    | zero => exact h
    | succ n =>
      refine ih n ?_
      obtain ⟨f, b, rfl, h⟩ | ⟨rfl, h⟩ | ⟨-, -, h⟩ := commitsUpdates_cons h
      · exact commitsUpdates_of_pending h
      · exact h
      · exact h

/-- Every micro-step of every command commits what it sets, before anything that can hold or fail (40_config_writer.md
R80, R81). -/
theorem microSteps_commitsUpdates (i : Instr) : ∀ m ∈ microSteps i, commitsUpdates false m = true := by
  cases i with
  | pulse high low blk => cases blk <;> simp [microSteps, pulseSteps, pulseActs, commitsUpdates]
  | _ =>
    simp [microSteps, writeSteps, powerOnSteps, powerOffSteps, frameStartSteps, latchRowSteps, skipSteps, frameEndSteps,
      pulseActs, outputRowSteps, commitsUpdates]

theorem PanelInv.of_eq {s t : State} (h : PanelInv s) (hc : t.cfg = s.cfg) (hp : t.panelCfg = s.panelCfg) :
    PanelInv t := by
  unfold PanelInv
  rw [hc, hp]
  exact h

theorem panelInv_commit (s : State) : PanelInv (commit s) := .inr (by simp)

/-- An action that is no field update keeps the panel and `CFG` together. -/
theorem PanelInv.doAct {s : State} {a : Act} (ha : ∀ f b, a ≠ .set f b) (h : PanelInv s) :
    PanelInv (doAct a s).state := by
  cases a with
  | set f b => exact absurd rfl (ha f b)
  | commit => exact panelInv_commit s
  | beginPulse high low blk =>
    simp only [Machine.doAct, beginPulse]
    split
    · exact h.of_eq (by simp) (by simp)
    · split <;> exact h.of_eq (by simp) (by simp)
  | awaitPulse => simp only [Machine.doAct, awaitPulse]; split <;> exact h.of_eq rfl rfl
  | checkSlot => simp only [Machine.doAct, checkSlot]; split <;> exact h
  | collectTransfer => simp only [Machine.doAct, collectTransfer]; split <;> exact h.of_eq rfl rfl
  | _ => exact h.of_eq rfl rfl

/-- However a list of actions that commits its updates ends, the panel and `CFG` are together; before it they may be
apart while updates are pending. -/
theorem panelInv_runActs {acts : List Act} {pending : Bool} {s : State} (ha : commitsUpdates pending acts = true)
    (hs : pending = false → PanelInv s) : PanelInv (runActs acts s).state := by
  induction acts generalizing pending s with
  | nil => exact hs (by simpa [commitsUpdates] using ha)
  | cons a acts ih =>
    obtain ⟨f, b, rfl, ha⟩ | ⟨rfl, ha⟩ | ⟨hset, hp, ha⟩ := commitsUpdates_cons ha
    · exact ih ha (fun h => nomatch h)
    · exact ih ha (fun _ => (panelInv_commit s).of_eq rfl rfl)
    · have hd := (hs hp).doAct hset
      simp only [runActs]
      cases e : doAct a s <;> rw [e] at hd
      case done t => exact ih ha (fun _ => hd.of_eq rfl rfl)
      case error c t => exact hd
      case hold t => exact hd

theorem PanelInv.exec {i : Instr} {s t : State} (hx : exec i s = .next t) (h : PanelInv s) : PanelInv t := by
  rw [exec_next hx]
  refine runSteps_induct_microStep (fun m hm n s h => panelInv_runActs (pending := false) ?_ (fun _ => h))
    (fun _ h => h.of_eq rfl rfl) (fun _ _ h => h.of_eq rfl rfl) (fun _ h => h.of_eq rfl rfl) s h
  exact commitsUpdates_drop n (microSteps_commitsUpdates i m (List.mem_of_mem_drop hm))

/-- Settles O57: a command commits every field update before it can hold or fail, and outside commands only a reset
writes `CFG` or the panel. -/
theorem stepKeepsPanelInv : Obligations.StepKeepsPanelInv := by
  intro s t h hs
  cases step_next hs with
  | resumed hb hi hx => exact h.exec hx
  | accepted hb hf hq hd hw hx => exact PanelInv.exec hx (h.of_eq rfl rfl)
  | reset hb => exact .inl rfl
  | _ => exact h.of_eq rfl rfl

/-! ### The control invariant (10_state.md R12, 45_command_classes.md R146) -/

theorem waitsForPulse_iff {s : State} :
    s.waitsForPulse = true ↔ s.busy = true ∧ ∃ i, s.current = some i ∧ actAt i s = some .awaitPulse := by
  cases h : s.current <;> simp [State.waitsForPulse, h]

theorem waitsForTransfer_iff {s : State} :
    s.waitsForTransfer = true ↔ s.busy = true ∧ ∃ i, s.current = some i ∧ actAt i s = some .collectTransfer := by
  cases h : s.current <;> simp [State.waitsForTransfer, h]

/-- OUTPUT_ROW's micro-steps before it takes the slot (44_row_output.md R138). -/
def rowBeforeIssue (driveTime len : Operand) : List MicroStep :=
  latchRowSteps ++ [pulseActs (zext driveTime) 50 false, [.checkSlot], [.copyRow (zext len)]]

theorem microSteps_outputRow (d l : Operand) :
    microSteps (.outputRow d l) = rowBeforeIssue d l ++ [[.issueTransfer], [.collectTransfer]] := rfl

theorem rowBeforeIssue_noWait (d l : Operand) :
    ∀ m ∈ rowBeforeIssue d l, .awaitPulse ∉ m ∧ .collectTransfer ∉ m := by
  simp [rowBeforeIssue, latchRowSteps, pulseActs]

theorem awaitPulse_notMem_outputRow (d l : Operand) : .awaitPulse ∉ (microSteps (.outputRow d l)).flatten := by
  simp [microSteps, outputRowSteps, latchRowSteps, pulseActs]

/-- OUTPUT_ROW alone waits for a transfer, at its last micro-step (44_row_output.md R138). -/
theorem actAt_collectTransfer_iff {i : Instr} {s : State} :
    actAt i s = some .collectTransfer ↔ (∃ d l, i = .outputRow d l) ∧ s.step = 6 ∧ s.act = 0 := by
  constructor
  · intro h
    have hmem := actAt_mem h
    cases i with
    | outputRow d l =>
      refine ⟨⟨d, l, rfl⟩, ?_⟩
      obtain ⟨m, hm, ha⟩ := Option.bind_eq_some_iff.1 h
      have hlen : (rowBeforeIssue d l).length = 5 := rfl
      rw [microSteps_outputRow, List.getElem?_append, hlen] at hm
      split at hm
      · exact absurd (List.mem_of_getElem? ha) (rowBeforeIssue_noWait d l m (List.mem_of_getElem? hm)).2
      · obtain hs | hs | hs : s.step - 5 = 0 ∨ s.step - 5 = 1 ∨ 2 ≤ s.step - 5 := by omega
        · rw [hs] at hm
          cases hm
          exact absurd (List.mem_of_getElem? ha) (by decide)
        · rw [hs] at hm
          cases hm
          have := (List.getElem?_eq_some_iff.1 ha).1
          exact ⟨by omega, by simpa using this⟩
        · rw [List.getElem?_eq_none hs] at hm
          cases hm
    | pulse high low blk => cases blk <;> simp [microSteps, pulseSteps, pulseActs] at hmem
    | _ =>
      simp [microSteps, writeSteps, powerOnSteps, powerOffSteps, frameStartSteps, latchRowSteps, skipSteps,
        frameEndSteps, pulseActs] at hmem
  · rintro ⟨⟨d, l, rfl⟩, hstep, hact⟩
    simp [actAt, hstep, hact, microSteps, outputRowSteps, latchRowSteps]

/-- At its last micro-step OUTPUT_ROW ends, or only the other agents have stepped (44_row_output.md R138). -/
theorem runSteps_collectTransfer {s : State} (hact : s.act = 0)
    (hbusy : (runSteps [[.collectTransfer]] s).busy = true) :
    runSteps [[.collectTransfer]] s = interleave s := by
  simp only [runSteps, hact, List.drop_zero, runActs, doAct, collectTransfer] at hbusy ⊢
  cases hx : (interleave s).xf with
  | none => rfl
  | active data sent => rfl
  | ended ok => cases ok <;> simp [hx] at hbusy

/-- An OUTPUT_ROW that waits for its transfer has taken the slot (44_row_output.md R131). -/
theorem outputRow_takesSlot {d l : Operand} {s t : State} (h0 : s.atStart)
    (hx : exec (.outputRow d l) s = .next t) (hbusy : t.busy = true) : t.tr = .absent := by
  rw [exec_atStart h0, microSteps_outputRow] at hx
  cases hx
  obtain ⟨u, hu, e⟩ := runSteps_past (rowBeforeIssue_noWait d l) h0.2 hbusy
  have hissue : runSteps [[.issueTransfer], [.collectTransfer]] u =
      runSteps [[.collectTransfer]] (nextStep (nextAct (issueTransfer u))) := by
    simp [runSteps, hu, runActs, doAct]
  rw [e, hissue] at hbusy ⊢
  rw [runSteps_collectTransfer rfl hbusy]
  rfl

/-- An OUTPUT_ROW that goes on waiting for its transfer leaves the slot as it is. -/
theorem outputRow_keepsSlot {d l : Operand} {s t : State} (hstep : s.step = 6) (hact : s.act = 0)
    (hx : exec (.outputRow d l) s = .next t) (hbusy : t.busy = true) : t.tr = s.tr := by
  have e : t = runSteps [[.collectTransfer]] s := by
    rw [exec_next hx, runCommand, hstep]
    rfl
  rw [e] at hbusy ⊢
  rw [runSteps_collectTransfer hact hbusy]
  rfl

/-- A run of a legal command ends, or leaves it at a wait; for its transfer it needs the slot to be taken. -/
theorem controlInv_exec {i : Instr} {s t : State} (hb : s.busy = true) (hi : s.current = some i)
    (hw : i.wellFormed s.params = true) (hx : exec i s = .next t)
    (hslot : (∃ d l, i = .outputRow d l) → t.busy = true → t.tr = .absent) : ControlInv t := by
  intro hbusy
  have hfixed := exec_fixed hx
  have hcur : t.current = some i := hfixed.current.trans hi
  refine ⟨⟨i, hcur, hfixed.1 ▸ hw⟩, ?_⟩
  obtain hend | ⟨-, hat | hat⟩ := exec_ends hb hx
  · rw [hend] at hbusy
    cases hbusy
  · exact .inl (waitsForPulse_iff.2 ⟨hbusy, i, hcur, hat⟩)
  · exact .inr ⟨waitsForTransfer_iff.2 ⟨hbusy, i, hcur, hat⟩, hslot (actAt_collectTransfer_iff.1 hat).1 hbusy⟩

theorem ControlInv.resume {i : Instr} {s t : State} (h : ControlInv s) (hb : s.busy = true) (hi : s.current = some i)
    (hx : exec i s = .next t) : ControlInv t := by
  obtain ⟨⟨j, hj, hw⟩, hwait⟩ := h hb
  obtain rfl : i = j := Option.some.inj (hi.symm.trans hj)
  refine controlInv_exec hb hi hw hx ?_
  rintro ⟨d, l, rfl⟩ hbusy
  obtain hwait | ⟨hwait, htr⟩ := hwait
  · obtain ⟨-, k, hk, hat⟩ := waitsForPulse_iff.1 hwait
    obtain rfl : _ = k := Option.some.inj (hi.symm.trans hk)
    exact absurd (actAt_mem hat) (awaitPulse_notMem_outputRow d l)
  · obtain ⟨-, k, hk, hat⟩ := waitsForTransfer_iff.1 hwait
    obtain ⟨-, hstep, hact⟩ := actAt_collectTransfer_iff.1 hat
    exact (outputRow_keepsSlot hstep hact hx hbusy).trans htr

theorem controlInv_accept {w : Word} {i : Instr} {s t : State} (hd : decode w = .ok i)
    (hw : i.wellFormed s.params = true) (hx : exec i (accept w s) = .next t) : ControlInv t := by
  refine controlInv_exec (accept_busy w s) (accept_current hd) (by simpa using hw) hx ?_
  rintro ⟨d, l, rfl⟩
  exact outputRow_takesSlot ⟨accept_step w s, accept_act w s⟩ hx

/-- Settles O58: a command that a step does not end stands at a wait, and OUTPUT_ROW takes the slot just before its
own. -/
theorem stepKeepsControlInv : Obligations.StepKeepsControlInv := by
  intro s t h hs
  cases step_next hs with
  | resumed hb hi hx => exact h.resume hb hi hx
  | @accepted w rest i _ hb hf hq hd hw hx => exact controlInv_accept (s := { s with hostq := rest }) hd hw hx
  | reset hb => exact fun hbusy => nomatch hbusy
  | idle hb hq => exact fun hbusy => absurd hbusy (by simp [hb])
  | ignored hb => exact fun hbusy => absurd hbusy (by simp [hb])
  | stored hb hi => exact fun hbusy => absurd hbusy (by simp [hb])
  | read hb => exact fun hbusy => absurd hbusy (by simp [hb])

/-! ### A commit and its receiver (40_config_writer.md R81, R82) -/

/-- One bit enters a shift stage at its low end. -/
def shiftIn (x : Byte) (b : Level) : Byte := (x <<< 1) ||| (BitVec.ofBool b).setWidth 8

/-- The receiver shifts in the bit that stands on `CFG_DATA` while `CFG_CLK` rises. -/
theorem Receiver.see_bit (r : Receiver) (b : Level) :
    [(Pin.cfgData, b), (Pin.cfgClk, false), (Pin.cfgClk, true)].foldl Receiver.see r =
      { r with data := b, clk := true, shift := shiftIn r.shift b } := by
  simp [Receiver.see, shiftIn]

/-- Fields clocked out one by one are shifted in one by one; the strobe stays. -/
theorem Receiver.see_fields (v : Byte) (fs : List CfgField) (r : Receiver) :
    let r' := (fs.flatMap fun f => [(Pin.cfgData, f.get v), (.cfgClk, false), (.cfgClk, true)]).foldl Receiver.see r
    r'.shift = fs.foldl (fun x f => shiftIn x (f.get v)) r.shift ∧ r'.str = r.str := by
  induction fs generalizing r with
  | nil => exact ⟨rfl, rfl⟩
  | cons f fs ih =>
    rw [List.flatMap_cons, List.foldl_append, Receiver.see_bit]
    exact ih _

/-- The eight fields of a byte, bit 7 first, shift in to the byte, whatever was held before. -/
theorem shiftIn_serialOrder (v x : Byte) : serialOrder.foldl (fun y f => shiftIn y (f.get v)) x = v := by
  apply BitVec.eq_of_getLsbD_eq
  intro i hi
  interval_cases i <;> simp [serialOrder, shiftIn, CfgField.get, CfgField.bit]

/-- The rising strobe copies the shift stage out. -/
theorem Receiver.see_strobe {r : Receiver} (h : r.str = false) : (r.see (.cfgStr, true)).out = some r.shift := by
  simp [Receiver.see, h]

/-- A commit's pin writes end with the value on the receiver's outputs. -/
theorem Receiver.out_commitPins (v : Byte) (r : Receiver) :
    ((commitPins v).foldl Receiver.see r).out = some v := by
  obtain ⟨hshift, hstr⟩ := Receiver.see_fields v serialOrder (r.see (.cfgStr, false))
  rw [commitPins, List.foldl_append, List.foldl_cons, List.foldl_cons, List.foldl_nil, Receiver.see_strobe hstr, hshift,
    shiftIn_serialOrder]

/-- Settles O11: the commit's own laws, and the receiver's fold over the pin writes. -/
theorem commitPinOrder : Obligations.CommitPinOrder :=
  ⟨fun s => ⟨by simp, by simp [State.devices], rfl, seqTrace_commit s, agentsOnly_commit s, by simp [commit],
    commit_reads s⟩, fun v r => ⟨Receiver.out_commitPins v r, rfl⟩⟩

/-! ### HOST's views of the state (10_state.md R28, R13; 60_exceptions.md R150) -/

/-- The fields of `STATUS` (10_state.md R28). -/
theorem statusWord_fields (s : State) :
    (statusWord s).getLsbD 0 = s.busy ∧ (statusWord s).extractLsb' 1 2 = s.fsm.code ∧
      (statusWord s).getLsbD 3 = trHeld s ∧ (statusWord s).getLsbD 4 = tchHeld s ∧
      (statusWord s).getLsbD 5 = s.initFail ∧ (statusWord s).extractLsb' 6 26 = 0 := by
  unfold statusWord
  generalize s.busy = busy, s.initFail = initFail, tchHeld s = tch, trHeld s = tr, s.fsm.code = fsm
  revert busy initFail tch tr fsm
  decide

/-- The fields of `RESULT` (10_state.md R28). -/
theorem resultWord_fields (s : State) :
    (resultWord s).extractLsb' 0 3 = s.result.code ∧ (resultWord s).extractLsb' 3 1 = s.result.sub ∧
      (resultWord s).extractLsb' 4 28 = 0 := by
  unfold resultWord
  generalize s.result.sub = sub, s.result.code = code
  revert sub code
  decide

/-- The fields of `CFGRO` (10_state.md R28). -/
theorem cfgroWord_fields (s : State) :
    (cfgroWord s).extractLsb' 0 8 = s.cfg ∧ (cfgroWord s).extractLsb' 8 24 = 0 := by
  unfold cfgroWord
  constructor <;> apply BitVec.eq_of_getLsbD_eq <;> intro i hi
  · simp [hi, show i < 32 by omega]
  · simp

theorem trHeld_eq (s : State) : trHeld s = decide (s.tr = .held) := by
  cases h : s.tr <;> simp [trHeld, h]

theorem tchHeld_eq (s : State) : tchHeld s = decide (s.tch ≠ .absent) := by
  cases h : s.tch <;> simp [tchHeld, h]

/-- Settles O48: each register's word is read back field by field. -/
theorem hostRegisterFields : Obligations.HostRegisterFields := by
  refine ⟨⟨rfl, rfl, rfl⟩, fun c => by cases c <;> rfl, fun s => ?_⟩
  obtain ⟨hbusy, hfsm, htr, htch, hinit, hzero⟩ := statusWord_fields s
  obtain ⟨hcode, hsub, hzero'⟩ := resultWord_fields s
  obtain ⟨hcfg, hzero''⟩ := cfgroWord_fields s
  exact ⟨hbusy, hfsm, htr.trans (trHeld_eq s), htch.trans (tchHeld_eq s), hinit, hzero, hcode, hsub, hzero', hcfg,
    hzero''⟩

/-! ### Reset (10_state.md R34) -/

/-- The parameters meet R4's constraints, whatever the free values behind them are (00_scope.md R4). -/
theorem config_params_ok : Config.params.ok := by
  have hd4 : Config.d4Raw % (Config.d1Raw + 1) < Config.d1Raw + 1 := Nat.mod_lt _ (Nat.succ_pos _)
  have hd5 := Nat.mod_lt Config.d5Raw
    (show 0 < Config.d1Raw + 1 + Config.d2Raw - Config.d4Raw % (Config.d1Raw + 1) by omega)
  refine ⟨?_, ?_, ?_, ?_, ?_, ?_⟩ <;> simp only [Config.params] <;> omega

/-- Settles O52: the reset state's fields as defined, and the parameters' constraints. -/
theorem resetLeavesDefaults : Obligations.ResetLeavesDefaults :=
  ⟨rfl, rfl, rfl, rfl, rfl, rfl, rfl, rfl, rfl, rfl, rfl, rfl, rfl, rfl, config_params_ok, rfl, rfl, rfl⟩

theorem nonePending_reset : NonePending State.reset := by
  simp [NonePending, State.reset, State.afterReset]

theorem arbiterInv_reset : ArbiterInv State.reset := by
  simp [ArbiterInv, State.reset, State.afterReset, ResetDraw.powerUp]

/-- Settles O54: no command, no waveform and no transfer is in progress, and both arrays are empty. -/
theorem resetMeetsInvariants : Obligations.ResetMeetsInvariants :=
  ⟨memoryInv_afterReset _ _, arbiterInv_reset, .inl rfl, (fun hb => nomatch hb),
    (timingInv_iff State.reset).2 nonePending_reset⟩

/-! ### The trace grows at its end (10_state.md R30) -/

theorem interleave_trace_prefix (s : State) : s.trace <+: (interleave s).trace := by
  obtain ⟨es, h, -⟩ := interleave_trace s
  exact ⟨es, h.symm⟩

theorem seqEmit_trace_prefix (e : Event) (s : State) : s.trace <+: (seqEmit e s).trace :=
  (interleave_trace_prefix s).trans (List.prefix_append _ _)

theorem commit_trace_prefix (s : State) : s.trace <+: (commit s).trace :=
  commit_induct (P := fun t => s.trace <+: t.trace) (fun _ _ h => h) (fun _ => by simp)
    (fun e _ t h => h.trans (seqEmit_trace_prefix e t)) (List.prefix_refl _)

theorem issueWave_trace_prefix (g high low : Nat) (blk : Bool) (s : State) :
    s.trace <+: (issueWave g high low blk s).trace :=
  seqEmit_trace_prefix (.tpIssue g high low blk) s

theorem acquired_trace_prefix (s : State) : s.trace <+: (acquired s).trace :=
  seqEmit_trace_prefix _ { s with
    acqs := s.acqs.tail, drawn := s.drawn + 1, tchGen := s.tchGen + 1, tch := .held (s.tchGen + 1) }

theorem acquireFailed_trace_prefix (s : State) : s.trace <+: (acquireFailed s).trace :=
  seqEmit_trace_prefix _ { s with acqs := s.acqs.tail, drawn := s.drawn + 1 }

theorem doAct_trace_prefix (a : Act) (s : State) : s.trace <+: (doAct a s).state.trace := by
  cases a with
  | set f b => exact List.prefix_refl _
  | commit => exact commit_trace_prefix s
  | delay d => exact seqEmit_trace_prefix (.delay (delayCycles s.params d)) s
  | beginPulse high low blk =>
    simp only [doAct, beginPulse]
    split
    · exact issueWave_trace_prefix _ _ _ _ s
    · split
      · exact (acquired_trace_prefix s).trans (issueWave_trace_prefix _ _ _ _ _)
      · exact acquireFailed_trace_prefix s
  | awaitPulse => simp only [doAct, awaitPulse]; split <;> exact interleave_trace_prefix s
  | checkSlot => simp only [doAct, checkSlot]; split <;> exact List.prefix_refl _
  | copyRow len => exact List.prefix_refl _
  | issueTransfer => exact seqEmit_trace_prefix (.xfIssue (rowData (interleave s))) s
  | collectTransfer => simp only [doAct, collectTransfer]; split <;> exact interleave_trace_prefix s
  | fsm f => exact List.prefix_refl _

/-- Settles O47: every action and both exits append. -/
theorem commandsOnlyAppendToTrace : Obligations.CommandsOnlyAppendToTrace := by
  intro i s t hx
  have h : s.trace <+: t.trace :=
    exec_induct (P := fun t => s.trace <+: t.trace) hx (fun a _ t h => h.trans (doAct_trace_prefix a t))
      (fun _ h => h) (fun _ h => h) (fun c t h => h.trans (seqEmit_trace_prefix (.ret c) t))
      (fun t h => h.trans (seqEmit_trace_prefix (.ret .ok) t)) (List.prefix_refl _)
  obtain ⟨events, h⟩ := h
  exact ⟨events, h.symm⟩

/-! ### HOST's accesses while `BUSY = 0` (10_state.md R28, 20_memory.md R40, R44, R45) -/

/-- With `BUSY = 0` a step is HOST's next operation, taken from its list. -/
theorem step_hostStep {s : State} {op : HostOp} {rest : List HostOp} (hb : s.busy = false)
    (hq : s.hostq = op :: rest) : step s = hostStep op { s with hostq := rest } := by
  simp [step, advance, hb, hq]

/-- The byte window of RSRC (10_state.md R28, 20_memory.md R40). -/
theorem hostTarget_window {p : Params} {i : Nat} (h : i < p.rowWidth) :
    hostTarget p (0x1000 + i) 1 = some (.rsrc i) := by
  simp [hostTarget, h]

/-- Settles O50: a store in the window is one write of RSRC, before which SEQ does nothing. -/
theorem hostStoresRowByte : Obligations.HostStoresRowByte := by
  intro s rest i v hb hi hq
  refine ⟨{ beforeAccess { s with hostq := rest } with rsrc := s.rsrc.write i (v.setWidth 8) }, ?_, ?_,
    fun j hj => Memory.read_write_other _ _ hj, Memory.wf_write i _, seqStill_beforeAccess s rest, rfl,
    beforeAccess_reads _⟩
  · rw [step_hostStep hb hq, hostStep, hostWrite, hostTarget_window (p := s.params) hi]
  · have hbyte : v.setWidth 8 = v.extractLsb' 0 8 := by simp [BitVec.setWidth_eq_extractLsb']
    exact hbyte ▸ Memory.read_write_same _ _ _

/-- A read in the port's map is taken and recorded, and SEQ does nothing (20_memory.md R45). -/
theorem step_hostRead {s : State} {offset width : Nat} {rest : List HostOp} {target : HostTarget} (hb : s.busy = false)
    (hq : s.hostq = .read offset width :: rest) (ht : hostTarget s.params offset width = some target) :
    step s = .next { beforeAccess { s with hostq := rest } with
      reads := s.reads ++ [(offset, hostValue s target)] } := by
  rw [step_hostStep hb hq, hostStep, hostRead, ht]
  cases target <;> rfl

/-- A write in the port's map, to none of CMD and RSRC, is taken and ignored (10_state.md R28). -/
theorem step_hostWrite_ignored {s : State} {offset width : Nat} {v : Word} {rest : List HostOp} (hb : s.busy = false)
    (hq : s.hostq = .write offset width v :: rest)
    (ht : hostTarget s.params offset width ∈ [some .status, some .result, some .cfgro]) :
    step s = .next (beforeAccess { s with hostq := rest }) := by
  rw [step_hostStep hb hq, hostStep, hostWrite]
  simp only [List.mem_cons, List.not_mem_nil, or_false] at ht
  obtain ht | ht | ht := ht <;> rw [ht]

/-- A blocking pulse whose result has not come goes on waiting (41_timing_pulse.md R97). -/
theorem exec_awaitPulse_hold {i : Instr} {s : State} (hat : actAt i s = some .awaitPulse)
    (hr : (interleave s).tpr = .none) : exec i s = .next (interleave s) := by
  refine exec_next_iff.2 ⟨?_, ?_⟩
  · rintro ⟨d, l, rfl⟩
    exact absurd (actAt_mem hat) (awaitPulse_notMem_outputRow d l)
  · obtain ⟨m, ms, as, hsteps, hacts⟩ := actAt_drop hat
    rw [runCommand, hsteps]
    simp [runSteps, hacts, runActs, doAct, awaitPulse, hr]

/-- With `BUSY = 1` a step is the command's, unless HOST's next operation is refused (20_memory.md R46). -/
theorem step_resume {s : State} {i : Instr} (hb : s.busy = true) (hq : s.hostq.head?.bind refusedWhileBusy = none)
    (hi : s.current = some i) : step s = exec i s := by
  simp [step, advance, hb, hq, resume, hi]

/-- A poll, as the only move before the next event, takes what HOST has pending if it is enabled (20_memory.md R46). -/
theorem afterBurst_poll {s : State} (h : nextBurst s = [.poll]) :
    afterBurst s = hostPoll (statusWord s) (resultWord s) s.devices := by
  rw [afterBurst, h]
  rfl

theorem hostPoll_tpr (st rs : Word) (d : Devices) : (hostPoll st rs d).tpr = d.tpr := by
  unfold hostPoll
  split <;> rfl

theorem hostPoll_read_status {st rs : Word} {d : Devices} {rest : List HostOp} (h : d.hostq = .read 0x004 4 :: rest) :
    hostPoll st rs d = { d with hostq := rest, reads := d.reads ++ [(0x004, st)] } := by
  simp [hostPoll, h]

theorem hostPoll_read_result {st rs : Word} {d : Devices} {rest : List HostOp} (h : d.hostq = .read 0x008 4 :: rest) :
    hostPoll st rs d = { d with hostq := rest, reads := d.reads ++ [(0x008, rs)] } := by
  simp [hostPoll, h]

theorem hostPoll_awaitIdle {st rs : Word} {d : Devices} {rest : List HostOp} (h : d.hostq = .awaitIdle :: rest) :
    hostPoll st rs d = d := by
  simp [hostPoll, h]

/-- While a command waits for its pulse, a step in which only HOST polls leaves everything to the poll. -/
theorem step_poll {s : State} (hw : s.waitsForPulse = true) (hr : s.tpr = .none) (hp : nextBurst s = [.poll])
    (hq : s.hostq.head?.bind refusedWhileBusy = none) {d : Devices}
    (hd : hostPoll (statusWord s) (resultWord s) s.devices = d) :
    ∃ t, step s = .next t ∧ t.busy = true ∧ t.hostq = d.hostq ∧ t.reads = d.reads := by
  have hpoll : afterBurst s = d := (afterBurst_poll hp).trans hd
  obtain ⟨hb, i, hi, hat⟩ := waitsForPulse_iff.1 hw
  have htpr : (interleave s).tpr = .none := by
    change (afterBurst s).tpr = .none
    rw [hpoll, ← hd, hostPoll_tpr]
    exact hr
  refine ⟨interleave s, ?_, hb, ?_, ?_⟩
  · rw [step_resume hb hq hi, exec_awaitPulse_hold hat htpr]
  · exact congrArg Devices.hostq hpoll
  · exact congrArg Devices.reads hpoll

/-- Settles O49: each access HOST may make is one step of known outcome, before which SEQ does nothing. -/
theorem hostReadsAndIgnoredWrites : Obligations.HostReadsAndIgnoredWrites := by
  refine ⟨fun s rest hb =>
      ⟨fun offset value hmem hq => ?_, fun i hi hq => ?_, fun offset v hmem hq => ?_, fun hq => ?_⟩,
    fun s rest hw hr hp => ⟨fun hq => ?_, fun hq => ?_, fun hq => ?_⟩⟩
  · have htarget : ∃ target, hostTarget s.params offset 4 = some target ∧ hostValue s target = value := by
      simp only [List.mem_cons, Prod.mk.injEq, List.not_mem_nil, or_false] at hmem
      obtain ⟨rfl, rfl⟩ | ⟨rfl, rfl⟩ | ⟨rfl, rfl⟩ | ⟨rfl, rfl⟩ := hmem
      · exact ⟨.cmd, rfl, rfl⟩
      · exact ⟨.status, rfl, rfl⟩
      · exact ⟨.result, rfl, rfl⟩
      · exact ⟨.cfgro, rfl, rfl⟩
    obtain ⟨target, ht, rfl⟩ := htarget
    exact ⟨_, step_hostRead hb hq ht, seqStill_beforeAccess s rest, fun _ => rfl, rfl, rfl⟩
  · refine ⟨rsrcByte s i, _, step_hostRead hb hq (hostTarget_window hi),
      ⟨seqStill_beforeAccess s rest, fun _ => rfl, rfl, rfl⟩, fun b h => by simp [rsrcByte, h], ?_⟩
    rintro more rfl
    exact ⟨_, step_hostRead hb rfl (hostTarget_window hi), rfl⟩
  · have ht : hostTarget s.params offset 4 ∈ [some .status, some .result, some .cfgro] := by
      simp only [List.mem_cons, List.not_mem_nil, or_false] at hmem
      obtain rfl | rfl | rfl := hmem <;> simp [hostTarget]
    exact ⟨_, step_hostWrite_ignored hb hq ht, seqStill_beforeAccess s rest, fun _ => rfl, rfl, by simp⟩
  · exact ⟨_, step_hostStep hb hq, seqStill_beforeAccess s rest, fun _ => rfl, rfl, by simp⟩
  · exact step_poll hw hr hp (by simp [hq, refusedWhileBusy]) (hostPoll_read_status hq)
  · exact step_poll hw hr hp (by simp [hq, refusedWhileBusy]) (hostPoll_read_result hq)
  · obtain ⟨t, hstep, hbusy, hqueue, hreads⟩ :=
      step_poll hw hr hp (by simp [hq, refusedWhileBusy]) (hostPoll_awaitIdle hq)
    exact ⟨t, hstep, hbusy, hqueue, hreads.trans (List.append_nil _).symm⟩

/-! ### What no command reads: FSM, and what HOST has read (10_state.md R13) -/

/-- Two actions end the same way, in related states. -/
inductive ActResult.Related (R : State → State → Prop) : ActResult → ActResult → Prop
  | done {s t : State} (h : R s t) : Related R (.done s) (.done t)
  | error (c : Cause) {s t : State} (h : R s t) : Related R (.error c s) (.error c t)
  | hold {s t : State} (h : R s t) : Related R (.hold s) (.hold t)

section

variable {R : State → State → Prop} (hcursor : ∀ s t, R s t → s.step = t.step ∧ s.act = t.act)
  (hact : ∀ a s t, R s t → ActResult.Related R (doAct a s) (doAct a t))
  (hnext : ∀ s t, R s t → R (nextAct s) (nextAct t)) (hstep : ∀ s t, R s t → R (nextStep s) (nextStep t))
  (hraise : ∀ c s t, R s t → R (raise c s) (raise c t)) (hret : ∀ s t, R s t → R (returnOk s) (returnOk t))

include hact hnext

theorem runActs_related (acts : List Act) {s t : State} (h : R s t) :
    ActResult.Related R (runActs acts s) (runActs acts t) := by
  induction acts generalizing s t with
  | nil => exact .done h
  | cons a acts ih =>
    have ha := hact a s t h
    simp only [runActs]
    generalize doAct a s = x, doAct a t = y at ha ⊢
    cases ha with
    | done h => exact ih (hnext _ _ h)
    | error c h => exact .error c h
    | hold h => exact .hold h

include hcursor hstep hraise hret

/-- Runs from related states go the same way and end in related states, when every operation keeps the relation. -/
theorem runSteps_related (steps : List MicroStep) {s t : State} (h : R s t) :
    R (runSteps steps s) (runSteps steps t) := by
  induction steps generalizing s t with
  | nil => exact hret s t h
  | cons m steps ih =>
    have hm := runActs_related hact hnext (m.drop t.act) h
    simp only [runSteps, (hcursor s t h).2]
    generalize runActs (m.drop t.act) s = x, runActs (m.drop t.act) t = y at hm ⊢
    cases hm with
    | done h => exact ih (hstep _ _ h)
    | error c h => exact hraise c _ _ h
    | hold h => exact h

theorem runCommand_related (steps : List MicroStep) {s t : State} (h : R s t) :
    R (runCommand steps s) (runCommand steps t) := by
  simp only [runCommand, (hcursor s t h).1]
  exact runSteps_related hcursor hact hnext hstep hraise hret _ h

end

/-- Only FSM differs, and the values that HOST's polls returned, which may show it. -/
def SameButFsm (s t : State) : Prop := ∃ f r, t = { s with fsm := f, reads := r }

/-- A move neither looks at what HOST has read nor at the registers a poll returns, but for recording them. -/
theorem moveDevices_reads (st rs st' rs' : Word) (m : Move) (d : Devices) (r : List (Nat × Word)) :
    ∃ r', moveDevices st' rs' m { d with reads := r } = { moveDevices st rs m d with reads := r' } := by
  cases m with
  | tpg => refine ⟨r, ?_⟩; simp only [moveDevices, tpgPlay]; split <;> (try split) <;> (try split) <;> rfl
  | tpgFail l => refine ⟨r, ?_⟩; simp only [moveDevices, tpgFail]; split <;> rfl
  | xfr v => refine ⟨r, ?_⟩; simp only [moveDevices, xfrGo]; split <;> (try split) <;> rfl
  | xfrFail v => refine ⟨r, ?_⟩; simp only [moveDevices, xfrFail]; split <;> rfl
  | cycle => exact ⟨r, rfl⟩
  | poll =>
    simp only [moveDevices, hostPoll]
    split
    · exact ⟨_, rfl⟩
    · exact ⟨_, rfl⟩
    · exact ⟨r, rfl⟩

theorem runMoves_reads (st rs st' rs' : Word) (ms : List Move) (d : Devices) (r : List (Nat × Word)) :
    ∃ r', runMoves st' rs' ms { d with reads := r } = { runMoves st rs ms d with reads := r' } := by
  induction ms generalizing d r with
  | nil => exact ⟨r, rfl⟩
  | cons m ms ih =>
    obtain ⟨r', h⟩ := moveDevices_reads st rs st' rs' m d r
    rw [runMoves_cons, h]
    exact ih _ _

theorem SameButFsm.interleave {s t : State} (h : SameButFsm s t) :
    SameButFsm (interleave s) (interleave t) := by
  obtain ⟨f, r, rfl⟩ := h
  obtain ⟨r', h⟩ := runMoves_reads (statusWord s) (resultWord s) (statusWord { s with fsm := f, reads := r })
    (resultWord { s with fsm := f, reads := r }) (nextBurst s) s.devices r
  have hb : afterBurst { s with fsm := f, reads := r } = { afterBurst s with reads := r' } := h
  refine ⟨f, r', ?_⟩
  simp only [Machine.interleave, hb]

theorem SameButFsm.seqEmit {s t : State} (e : Event) (h : SameButFsm s t) :
    SameButFsm (seqEmit e s) (seqEmit e t) := by
  obtain ⟨f, r, h⟩ := h.interleave
  exact ⟨f, r, by simp only [Machine.seqEmit, h]⟩

theorem SameButFsm.raise {s t : State} (c : Cause) (h : SameButFsm s t) : SameButFsm (raise c s) (raise c t) := by
  obtain ⟨f, r, h⟩ := h.seqEmit (.ret c)
  exact ⟨f, r, by simp only [Machine.raise, h]⟩

theorem SameButFsm.returnOk {s t : State} (h : SameButFsm s t) : SameButFsm (returnOk s) (returnOk t) := by
  obtain ⟨f, r, h⟩ := h.seqEmit (.ret .ok)
  exact ⟨f, r, by simp only [Machine.returnOk, h]⟩

theorem SameButFsm.seqEmits {s t : State} (es : List Event) (h : SameButFsm s t) :
    SameButFsm (seqEmits es s) (seqEmits es t) := by
  induction es generalizing s t with
  | nil => exact h
  | cons e es ih => exact ih (h.seqEmit e)

theorem SameButFsm.withHostq {s t : State} (q : List HostOp) (h : SameButFsm s t) :
    SameButFsm { s with hostq := q } { t with hostq := q } := by
  obtain ⟨f, r, rfl⟩ := h
  exact ⟨f, r, rfl⟩

theorem SameButFsm.pinWrites {s t : State} (ws : List (Pin × Level)) (h : SameButFsm s t) :
    SameButFsm (pinWrites ws s) (pinWrites ws t) := by
  induction ws generalizing s t with
  | nil => exact h
  | cons w ws ih =>
    obtain ⟨p, l⟩ := w
    obtain ⟨f, r, rfl⟩ := h
    exact ih ⟨f, r, by cases p <;> rfl⟩

theorem SameButFsm.driveCommit {s t : State} (h : SameButFsm s t) : SameButFsm (driveCommit s) (driveCommit t) := by
  have hcfg : t.cfg = s.cfg := by obtain ⟨f, r, rfl⟩ := h; rfl
  obtain ⟨f, r, h⟩ := h.pinWrites (commitPins s.cfg)
  exact ⟨f, r, by simp only [Machine.driveCommit, hcfg, h]⟩

theorem SameButFsm.commit {s t : State} (h : SameButFsm s t) : SameButFsm (commit s) (commit t) := by
  have hcfg : t.cfg = s.cfg := by obtain ⟨f, r, rfl⟩ := h; rfl
  have hq : (Machine.driveCommit t).hostq = (Machine.driveCommit s).hostq := by
    obtain ⟨f, r, h⟩ := h.driveCommit
    rw [h]
  rw [Machine.commit, Machine.commit, hcfg, withoutHost, withoutHost, hq]
  exact ((h.driveCommit.withHostq []).seqEmits _).withHostq _

theorem SameButFsm.delay {s t : State} (n : Nat) (h : SameButFsm s t) : SameButFsm (delay n s) (delay n t) := by
  have hcyc : t.cyc = s.cyc := by obtain ⟨f, r, rfl⟩ := h; rfl
  obtain ⟨f, r, h⟩ := h.interleave
  exact ⟨f, r, by simp only [Machine.delay, h, hcyc]⟩

theorem SameButFsm.issueWave {s t : State} (g high low : Nat) (blk : Bool) (h : SameButFsm s t) :
    SameButFsm (issueWave g high low blk s) (issueWave g high low blk t) := by
  obtain ⟨f, r, h⟩ := h.interleave
  exact ⟨f, r, by simp only [Machine.issueWave, h]⟩

theorem SameButFsm.acquired {s t : State} (h : SameButFsm s t) : SameButFsm (acquired s) (acquired t) := by
  obtain ⟨f, r, rfl⟩ := h
  exact SameButFsm.seqEmit _ ⟨f, r, rfl⟩

theorem SameButFsm.acquireFailed {s t : State} (h : SameButFsm s t) :
    SameButFsm (acquireFailed s) (acquireFailed t) := by
  obtain ⟨f, r, rfl⟩ := h
  exact SameButFsm.seqEmit _ ⟨f, r, rfl⟩

theorem SameButFsm.issueTransfer {s t : State} (h : SameButFsm s t) :
    SameButFsm (issueTransfer s) (issueTransfer t) := by
  obtain ⟨f, r, h⟩ := h.interleave
  have hrow : rowData (Machine.interleave t) = rowData (Machine.interleave s) := by rw [h]; rfl
  exact ⟨f, r, by simp only [Machine.issueTransfer, hrow]; rw [h]⟩

theorem SameButFsm.beginPulse {s t : State} (high low : Nat) (blk : Bool) (h : SameButFsm s t) :
    ActResult.Related SameButFsm (beginPulse high low blk s) (beginPulse high low blk t) := by
  have htch : t.tch = s.tch := by obtain ⟨f, r, rfl⟩ := h; rfl
  have hgen : t.tchGen = s.tchGen := by obtain ⟨f, r, rfl⟩ := h; rfl
  have hacq : nextAcq t = nextAcq s := by obtain ⟨f, r, rfl⟩ := h; rfl
  cases hc : s.tch with
  | held g =>
    rw [beginPulse_held hc, beginPulse_held (htch.trans hc)]
    exact .done (h.issueWave _ _ _ _)
  | absent =>
    cases ha : nextAcq s with
    | true =>
      rw [beginPulse_acquired hc ha, beginPulse_acquired (htch.trans hc) (hacq.trans ha), hgen]
      exact .done (h.acquired.issueWave _ _ _ _)
    | false =>
      rw [beginPulse_failed hc ha, beginPulse_failed (htch.trans hc) (hacq.trans ha)]
      exact .error _ h.acquireFailed

theorem SameButFsm.awaitPulse {s t : State} (h : SameButFsm s t) :
    ActResult.Related SameButFsm (awaitPulse s) (awaitPulse t) := by
  obtain ⟨f, r, h⟩ := h.interleave
  simp only [Machine.awaitPulse, h]
  split
  · exact .hold ⟨f, r, rfl⟩
  · exact .done ⟨f, r, rfl⟩
  · exact .error _ ⟨f, r, rfl⟩

theorem SameButFsm.checkSlot {s t : State} (h : SameButFsm s t) :
    ActResult.Related SameButFsm (checkSlot s) (checkSlot t) := by
  obtain ⟨f, r, rfl⟩ := h
  simp only [Machine.checkSlot]
  split
  · exact .done ⟨f, r, rfl⟩
  · exact .error _ ⟨f, r, rfl⟩

theorem SameButFsm.collectTransfer {s t : State} (h : SameButFsm s t) :
    ActResult.Related SameButFsm (collectTransfer s) (collectTransfer t) := by
  obtain ⟨f, r, h⟩ := h.interleave
  simp only [Machine.collectTransfer, h]
  split
  · exact .done ⟨f, r, rfl⟩
  · exact .error _ ⟨f, r, rfl⟩
  · exact .hold ⟨f, r, rfl⟩
  · exact .hold ⟨f, r, rfl⟩

theorem SameButFsm.doAct {s t : State} (a : Act) (h : SameButFsm s t) :
    ActResult.Related SameButFsm (doAct a s) (doAct a t) := by
  cases a with
  | set f b => obtain ⟨f, r, rfl⟩ := h; exact .done ⟨f, r, rfl⟩
  | commit => exact .done h.commit
  | delay d =>
    have hp : t.params = s.params := by obtain ⟨f, r, rfl⟩ := h; rfl
    rw [Machine.doAct, Machine.doAct, hp]
    exact .done (h.delay _)
  | beginPulse high low blk => exact h.beginPulse high low blk
  | awaitPulse => exact h.awaitPulse
  | checkSlot => exact h.checkSlot
  | copyRow len => obtain ⟨f, r, rfl⟩ := h; exact .done ⟨f, r, rfl⟩
  | issueTransfer => exact .done h.issueTransfer
  | collectTransfer => exact h.collectTransfer
  | fsm f' => obtain ⟨f, r, rfl⟩ := h; exact .done ⟨f', r, rfl⟩

theorem SameButFsm.runCommand {s t : State} (steps : List MicroStep) (h : SameButFsm s t) :
    SameButFsm (runCommand steps s) (runCommand steps t) :=
  runCommand_related (fun _ _ ⟨_, _, h⟩ => by rw [h]; exact ⟨rfl, rfl⟩) (fun a _ _ h => h.doAct a)
    (fun _ _ ⟨f, r, h⟩ => ⟨f, r, by rw [h]; rfl⟩) (fun _ _ ⟨f, r, h⟩ => ⟨f, r, by rw [h]; rfl⟩)
    (fun c _ _ h => h.raise c) (fun _ _ h => h.returnOk) steps h

theorem SameButFsm.putsIntoHeld {s t : State} (h : SameButFsm s t) : putsIntoHeld t = putsIntoHeld s := by
  obtain ⟨f, r, hi⟩ := h.interleave
  obtain ⟨f, r, rfl⟩ := h
  simp only [Machine.putsIntoHeld, hi]

/-- Settles O46: every operation reads neither FSM nor what HOST has read. -/
theorem fsmIsNotRead : Obligations.FsmIsNotRead := by
  intro i s t f hx
  obtain ⟨hp, rfl⟩ := exec_next_iff.1 hx
  have hsame : SameButFsm s { s with fsm := f } := ⟨f, s.reads, rfl⟩
  obtain ⟨f', r', e⟩ := hsame.runCommand (microSteps i)
  refine ⟨_, exec_next_iff.2 ⟨fun hi => hsame.putsIntoHeld.trans (hp hi), rfl⟩, ?_⟩
  rw [e]
  exact ⟨rfl, rfl, rfl, rfl, rfl, rfl, rfl, rfl, rfl, rfl, rfl, rfl, rfl⟩

end Sys2Proof.Machine

namespace Sys2Proof.Machine

/-! ### HOST's refused accesses (20_memory.md R41, R44, R46) -/

/-- The port's map ends at its four registers and the byte window of RSRC (20_memory.md R40, R41, R44). -/
theorem hostTarget_eq_none_iff {p : Params} {offset width : Nat} :
    hostTarget p offset width = none ↔
      ¬ (width = 4 ∧ offset ∈ [0x000, 0x004, 0x008, 0x00C]) ∧
      ¬ (width = 1 ∧ 0x1000 ≤ offset ∧ offset < 0x1000 + p.rowWidth) := by
  by_cases hw : width = 4
  · by_cases hreg : offset ∈ [0x000, 0x004, 0x008, 0x00C]
    · simp only [List.mem_cons, List.not_mem_nil, or_false] at hreg
      obtain rfl | rfl | rfl | rfl := hreg <;> simp [hostTarget, hw]
    · simp only [List.mem_cons, List.not_mem_nil, or_false, not_or] at hreg
      obtain ⟨hcmd, hstatus, hresult, hcfgro⟩ := hreg
      simp [hostTarget, hw, hcmd, hstatus, hresult, hcfgro]
  · simp [hostTarget, hw]

/-- A command that runs is never refused. -/
theorem exec_ne_refused (i : Instr) (s : State) (r : Refusal) : exec i s ≠ .refused r := by
  cases i with
  | outputRow d l => simp only [exec, execOutputRow]; split <;> exact nofun
  | _ => exact nofun

/-- A word in CMD is refused only as an illegal command (30_encoding.md R71). -/
theorem submitCommand_ne_hostAccess (w : Word) (s : State) (offset width : Nat) :
    submitCommand w s ≠ .refused (.hostAccess offset width) := by
  unfold submitCommand
  split
  · split
    · exact exec_ne_refused _ _ _
    · exact nofun
  · exact nofun

theorem hostRead_hostAccess_iff {offset width : Nat} {s : State} :
    hostRead offset width s = .refused (.hostAccess offset width) ↔ hostTarget s.params offset width = none := by
  cases h : hostTarget s.params offset width <;> simp [hostRead, h]

theorem hostWrite_hostAccess_iff {offset width : Nat} {v : Word} {s : State} :
    hostWrite offset width v s = .refused (.hostAccess offset width) ↔ hostTarget s.params offset width = none := by
  cases h : hostTarget s.params offset width with
  | none => simp [hostWrite, h]
  | some target =>
    cases target with
    | cmd => cases hf : s.initFail <;> simp [hostWrite, h, hf, submitCommand_ne_hostAccess]
    | _ => simp [hostWrite, h]

/-- With `BUSY = 1` the refusals are those of HOST's next operation: the command that goes on is never refused
(20_memory.md R46). -/
theorem step_busy_refused_iff {s : State} {op : HostOp} {rest : List HostOp} {r : Refusal} (hb : s.busy = true)
    (hq : s.hostq = op :: rest) : step s = .refused r ↔ refusedWhileBusy op = some r := by
  have hresume : resume s ≠ .refused r := by
    unfold resume
    split
    · exact exec_ne_refused _ _ _
    · exact nofun
  cases h : refusedWhileBusy op <;> simp [step, advance, hb, hq, h, hresume]

/-- Of the reads only those of `STATUS` and `RESULT`, 32 bits wide, are enabled (20_memory.md R46). -/
theorem refusedWhileBusy_read_iff {offset width : Nat} :
    refusedWhileBusy (.read offset width) = some (.accessWhileBusy offset width) ↔
      ¬ (offset = 0x004 ∧ width = 4) ∧ ¬ (offset = 0x008 ∧ width = 4) := by
  have hpoll : (width = 4 ∧ (offset = 0x004 ∨ offset = 0x008)) ↔
      (offset = 0x004 ∧ width = 4) ∨ (offset = 0x008 ∧ width = 4) := by omega
  simp only [refusedWhileBusy, hpoll, ← not_or]
  split <;> simp [*]

/-- Settles O51: outside the map no target answers; while a command runs only the two polls are enabled. -/
theorem hostAccessRefusals : Obligations.HostAccessRefusals := by
  rintro s rest offset width v (hq | hq)
  · refine ⟨fun hb => ?_, fun hb => ?_⟩
    · rw [step_hostStep hb hq]
      exact hostRead_hostAccess_iff.trans hostTarget_eq_none_iff
    · rw [step_busy_refused_iff hb hq]
      simpa [hq] using refusedWhileBusy_read_iff
  · refine ⟨fun hb => ?_, fun hb => ?_⟩
    · rw [step_hostStep hb hq]
      exact hostWrite_hostAccess_iff.trans hostTarget_eq_none_iff
    · rw [step_busy_refused_iff hb hq]
      simp [hq, refusedWhileBusy]

/-! ### TPG plays the queue (41_timing_pulse.md R100, 30_encoding.md R67) -/

/-- The events of a waveform played to its end: the segments that take time, then the end marker (30_encoding.md R67). -/
def Wave.events (w : Wave) : List Event :=
  ((wave w.high w.low).filter (fun x => 0 < x.ticks)).map (fun x => .tpSeg w.g x.level x.ticks) ++ [.tpEnd w.g]

/-- A waveform's events part by part, as TPG emits them (41_timing_pulse.md R100). -/
theorem Wave.events_eq (w : Wave) :
    w.events = (if w.high = 0 then [] else [.tpSeg w.g true w.high]) ++ segEvents w.g false w.low ++ [.tpEnd w.g] := by
  by_cases hhigh : w.high = 0 <;> by_cases hlow : w.low = 0 <;>
    simp [Wave.events, wave, segEvents, hhigh, hlow, Nat.pos_iff_ne_zero]

/-- The play steps that a queued waveform needs take it from the head of the queue, and emit its events. -/
theorem runMoves_playsWave (st rs : Word) {d : Devices} {w : Wave} {rest : List Wave} (hq : d.pq = w :: rest)
    (hw : w.phase = .queued) :
    let e := runMoves st rs (List.replicate w.work .tpg) d
    e.pq = rest ∧ e.tpOut = false ∧ e.trace = d.trace ++ w.events := by
  rw [Wave.events_eq]
  by_cases hhigh : w.high = 0
  · have hwork : w.work = 2 := by simp [Wave.work, hw, hhigh]
    simp [hwork, runMoves, moveDevices, tpgPlay, hq, hw, hhigh]
  · have hwork : w.work = 3 := by simp [Wave.work, hw, hhigh]
    simp [hwork, runMoves, moveDevices, tpgPlay, hq, hw, hhigh]

/-- The whole queue is played, one waveform after the other; the pin ends at 0 unless nothing was queued. -/
theorem runMoves_playsQueue (st rs : Word) {d : Devices} (hd : ∀ w ∈ d.pq, w.phase = .queued) :
    let e := runMoves st rs (List.replicate (tpgWork d.pq) .tpg) d
    e.pq = [] ∧ (d.pq ≠ [] ∨ d.tpOut = false → e.tpOut = false) ∧ e.trace = d.trace ++ d.pq.flatMap Wave.events := by
  generalize hq : d.pq = pq at hd
  induction pq generalizing d with
  | nil => simp [tpgWork, hq]
  | cons w rest ih =>
    obtain ⟨hrest, hpin, htrace⟩ := runMoves_playsWave st rs hq (hd w List.mem_cons_self)
    obtain ⟨ihrest, ihpin, ihtrace⟩ := ih hrest fun x hx => hd x (List.mem_cons_of_mem _ hx)
    have hwork : List.replicate (tpgWork (w :: rest)) Move.tpg =
        List.replicate w.work .tpg ++ List.replicate (tpgWork rest) .tpg := by simp [tpgWork]
    rw [hwork, runMoves_append]
    refine ⟨ihrest, fun _ => ihpin (.inr hpin), ?_⟩
    rw [ihtrace, htrace, List.flatMap_cons, List.append_assoc]

/-- Settles O23, by induction on the queue. -/
theorem tpgPlaysQueueInOrder : Obligations.TpgPlaysQueueInOrder := by
  intro st rs d hd
  obtain ⟨hempty, hpin, htrace⟩ := runMoves_playsQueue st rs hd
  exact ⟨hempty, fun h => hpin (.inl h), htrace⟩

/-! ### A blocking pulse joins (20_memory.md R51, 41_timing_pulse.md R98) -/

/-- Nothing is queued, and the channel is held. -/
def Joined (s : State) : Prop := s.pq = [] ∧ ∃ g, s.tch = .held g

theorem Joined.of_eq {s t : State} (h : Joined s) (hq : t.pq = s.pq) (hc : t.tch = s.tch) : Joined t := by
  unfold Joined
  rw [hq, hc]
  exact h

/-- The exit emits its event with nothing queued, so TPG has nothing to play before it. -/
theorem Joined.returnOk {s : State} (h : Joined s) : Joined (returnOk s) :=
  ⟨(interleave_quiet h.1).1, h.2⟩

/-- What is left to do of a run of micro-steps, entered at an action of the first. -/
def actsLeft : List MicroStep → Nat → List Act
  | [], _ => []
  | m :: ms, n => m.drop n ++ ms.flatten

theorem actsLeft_zero (steps : List MicroStep) : actsLeft steps 0 = steps.flatten := by
  cases steps <;> rfl

theorem actsLeft_suffix (steps : List MicroStep) (n : Nat) : actsLeft steps n <:+ steps.flatten := by
  cases steps with
  | nil => exact List.suffix_refl _
  | cons m ms =>
    obtain ⟨before, h⟩ := List.drop_suffix n m
    exact ⟨before, by rw [actsLeft, ← List.append_assoc, h, List.flatten_cons]⟩

/-- What is left of a command begins with the action at which the sequencer stands. -/
theorem actsLeft_head {i : Instr} {s : State} {a : Act} (h : actAt i s = some a) :
    (actsLeft ((microSteps i).drop s.step) s.act).head? = some a := by
  obtain ⟨m, ms, as, hsteps, hacts⟩ := actAt_drop h
  simp [actsLeft, hsteps, hacts]

/-- After the last wait for a pulse, only FSM is written. -/
def OnlyFsmAfterWaits (as : List Act) : Prop :=
  ∀ bs, bs <:+ as → .awaitPulse ∈ bs ∨ ∀ a ∈ bs, ∃ f, a = .fsm f

/-- A run with `as` left to do stands as its next action needs it, and will have joined when nothing is left: a wait for
a pulse is still to come, or the last one is past and only FSM is still to be written. -/
structure Joining (as : List Act) (s : State) : Prop where
  paired : PairedRest as
  stands : StandsAt as.head? s
  onlyFsm : OnlyFsmAfterWaits as
  waits : .awaitPulse ∈ as ∨ Joined s

theorem PairedRest.suffix {as bs : List Act} (h : PairedRest as) (hs : bs <:+ as) : PairedRest bs := by
  rw [List.suffix_iff_eq_drop.1 hs]
  exact h.drop _

theorem StandsAt.of_eq {x : Option Act} {s t : State} (h : StandsAt x s) (h1 : t.pq = s.pq) (h2 : t.tpr = s.tpr)
    (h3 : t.tchGen = s.tchGen) (h4 : t.tch = s.tch) (h5 : t.pulseG = s.pulseG) : StandsAt x t := by
  unfold StandsAt at h ⊢
  split_ifs at h ⊢
  · exact h.of_eq h1 h2 h3 h4 h5
  · exact h.of_eq h1 h2 h3 h4

theorem Joining.nextStep {as : List Act} {s : State} (h : Joining as s) : Joining as (nextStep s) :=
  ⟨h.paired, h.stands.of_eq rfl rfl rfl rfl rfl, h.onlyFsm, h.waits.imp_right (·.of_eq rfl rfl)⟩

/-- A wait that ends well joins; what comes after the last one keeps it. -/
theorem Joining.doAct {a : Act} {as : List Act} {s t : State} (h : Joining (a :: as) s) (hd : doAct a s = .done t) :
    Joining as (nextAct t) := by
  obtain ⟨hpaired, hstands⟩ := doAct_stands h.paired h.stands hd
  refine ⟨hpaired, hstands, fun bs hbs => h.onlyFsm bs (hbs.trans (List.suffix_cons a as)), ?_⟩
  by_cases hlast : .awaitPulse ∈ as
  · exact .inl hlast
  right
  by_cases ha : a = .awaitPulse
  · subst ha
    have hpending : PulsePending s := h.stands
    obtain ⟨u, e, -, hjoined⟩ | ⟨c, u, e, -⟩ | ⟨u, e, -⟩ := awaitPulse_pending hpending
    all_goals cases hd.symm.trans e
    exact hjoined
  · have hnone : .awaitPulse ∉ a :: as := by simp [hlast, Ne.symm ha]
    obtain ⟨f, rfl⟩ := (h.onlyFsm _ (List.suffix_refl _)).resolve_left hnone a List.mem_cons_self
    cases hd
    exact (h.waits.resolve_left hnone).of_eq rfl rfl

theorem Joining.runActs {as bs : List Act} {s t : State} (h : Joining (as ++ bs) s) (hr : runActs as s = .done t) :
    Joining bs t := by
  induction as generalizing s with
  | nil => cases hr; exact h
  | cons a as ih =>
    simp only [Machine.runActs] at hr
    split at hr
    · next u hu => exact ih (h.doAct hu) hr
    · cases hr
    · cases hr

/-- An action's error is no Ok. -/
theorem doAct_error_ne_ok {a : Act} {c : Cause} {s t : State} (h : doAct a s = .error c t) : c ≠ .ok := by
  rintro rfl
  cases a with
  | beginPulse high low blk => simp only [doAct, beginPulse] at h; split at h <;> (try split at h) <;> cases h
  | awaitPulse => simp only [doAct, awaitPulse] at h; split at h <;> cases h
  | checkSlot => simp only [doAct, checkSlot] at h; split at h <;> cases h
  | collectTransfer => simp only [doAct, collectTransfer] at h; split at h <;> cases h
  | _ => cases h

theorem runActs_error_ne_ok {as : List Act} {c : Cause} {s t : State} (h : runActs as s = .error c t) : c ≠ .ok := by
  induction as generalizing s with
  | nil => cases h
  | cons a as ih =>
    simp only [runActs] at h
    split at h
    · exact ih h
    · next hd => cases h; exact doAct_error_ne_ok hd
    · cases h

/-- A run that ends with Ok did all that was left, and so has joined. -/
theorem Joining.runSteps {steps : List MicroStep} {s : State} (h : Joining (actsLeft steps s.act) s)
    (hb : s.busy = true) (he : endedWith .ok (runSteps steps s)) : Joined (runSteps steps s) := by
  induction steps generalizing s with
  | nil => exact (h.waits.resolve_left List.not_mem_nil).returnOk
  | cons m ms ih =>
    simp only [Machine.runSteps] at he ⊢
    cases hr : Machine.runActs (m.drop s.act) s with
    | done t =>
      rw [hr] at he
      have hbusy : (Machine.nextStep t).busy = true := by
        simpa [hr, hb] using (runActs_cursor (m.drop s.act) s).1
      exact ih ((actsLeft_zero ms).symm ▸ (h.runActs hr).nextStep) hbusy he
    | error c t =>
      rw [hr] at he
      exact absurd he.2 (runActs_error_ne_ok hr)
    | hold t =>
      rw [hr] at he
      have hbusy : t.busy = true := (runActs_hold hr).1.trans hb
      cases hbusy.symm.trans he.1

/-- The timing invariant says what the action at which a command stands needs. -/
theorem TimingInv.standsAt {i : Instr} {s : State} (h : TimingInv s) (hb : s.busy = true) (hi : s.current = some i) :
    StandsAt (actAt i s) s := by
  have hwaits : s.waitsForPulse = true ↔ actAt i s = some .awaitPulse := by simp [waitsForPulse_iff, hb, hi]
  simpa only [timingInv_iff, hwaits, StandsAt] using h

/-- The three commands whose pulses block. -/
def PulsesBlock (i : Instr) : Prop := (∃ h l, i = .pulse h l true) ∨ i = .frameStart ∨ i = .frameEnd

theorem PulsesBlock.paired {i : Instr} (h : PulsesBlock i) : paired (microSteps i).flatten = true := by
  obtain ⟨high, low, rfl⟩ | rfl | rfl := h <;> rfl

theorem PulsesBlock.onlyFsm {i : Instr} (h : PulsesBlock i) : OnlyFsmAfterWaits (microSteps i).flatten := by
  intro bs hbs
  rw [← List.mem_tails] at hbs
  obtain ⟨high, low, rfl⟩ | rfl | rfl := h <;> revert bs <;>
    simp [microSteps, pulseSteps, frameStartSteps, frameEndSteps, pulseActs]

theorem PulsesBlock.waits {i : Instr} (h : PulsesBlock i) : .awaitPulse ∈ (microSteps i).flatten := by
  obtain ⟨high, low, rfl⟩ | rfl | rfl := h <;>
    simp [microSteps, pulseSteps, frameStartSteps, frameEndSteps, pulseActs]

theorem PulsesBlock.actAt_start {i : Instr} {s : State} (h : PulsesBlock i) (h0 : s.atStart) : ∃ a, actAt i s = some a := by
  obtain ⟨hstep, hact⟩ := h0
  obtain ⟨high, low, rfl⟩ | rfl | rfl := h <;> simp only [actAt, hstep, hact] <;> exact ⟨_, rfl⟩

/-- From its start and from a waiting pulse, a command whose pulses block is on its way to a join. -/
theorem TimingInv.joining {i : Instr} {s : State} (h : TimingInv s) (hi : PulsesBlock i) (hb : s.busy = true)
    (hc : s.current = some i) (hs : s.atStart ∨ s.waitsForPulse = true) :
    Joining (actsLeft ((microSteps i).drop s.step) s.act) s := by
  have hsuffix : actsLeft ((microSteps i).drop s.step) s.act <:+ (microSteps i).flatten :=
    (actsLeft_suffix _ _).trans (List.drop_suffix _ _).flatten
  obtain ⟨a, hat, hwaits⟩ : ∃ a, actAt i s = some a ∧ .awaitPulse ∈ actsLeft ((microSteps i).drop s.step) s.act := by
    obtain h0 | hw := hs
    · obtain ⟨a, hat⟩ := hi.actAt_start h0
      refine ⟨a, hat, ?_⟩
      rw [h0.1, h0.2, List.drop_zero, actsLeft_zero]
      exact hi.waits
    · obtain ⟨-, j, hj, hat⟩ := waitsForPulse_iff.1 hw
      obtain rfl : i = j := Option.some.inj (hc.symm.trans hj)
      exact ⟨_, hat, List.mem_of_head? (actsLeft_head hat)⟩
  refine ⟨PairedRest.suffix (.inl hi.paired) hsuffix, ?_, fun bs hbs => hi.onlyFsm bs (hbs.trans hsuffix), .inl hwaits⟩
  rw [actsLeft_head hat, ← hat]
  exact h.standsAt hb hc

/-- Settles O31: the last wait for a pulse takes the channel back with nothing queued, and after it only FSM is written. -/
theorem blockingPulseJoins : Obligations.BlockingPulseJoins := by
  intro i s t hi hinv hb hc hs hx he
  obtain rfl := exec_next hx
  exact (hinv.joining hi hb hc hs).runSteps hb he

end Sys2Proof.Machine

namespace Sys2Proof

/-! ### The encoder and the decoder (30_encoding.md R60, R61, R64) -/

@[simp] theorem Instr.fields_z (i : Instr) : i.fields.z = 0 := by cases i <;> rfl

/-- The fields of a command select its row, and the row reads every operand back (30_encoding.md R61, R64). -/
theorem decodeFields_fields (i : Instr) : decodeFields i.fields = .ok i := by
  cases i with
  | pulse high low blocking => cases blocking <;> rfl
  | _ => rfl

theorem decode_encode (i : Instr) : decode (encode i) = .ok i := by
  rw [encode, decode_word, if_neg (not_not.2 i.fields_z), decodeFields_fields]

/-- Settles O2: the decoder reads the fields that the encoder assembled, and each row gives its operands back. -/
theorem decodeEncodeRoundTrip : Obligations.DecodeEncodeRoundTrip := decode_encode

theorem encode_of_decode {w : Word} {i : Instr} (h : decode w = .ok i) : encode i = w := by
  rw [encode, decode_ok h, word_fields]

/-- Settles O3: a word that decodes has all its fields from the command. -/
theorem encodeDecodeRoundTrip : Obligations.EncodeDecodeRoundTrip := fun _ _ => encode_of_decode

/-- A word is a command's exactly when its fields are the command's. -/
theorem decode_ok_iff {w : Word} {i : Instr} : decode w = .ok i ↔ fields w = i.fields := by
  refine ⟨fun h => (decode_ok h).symm, fun h => ?_⟩
  rw [← word_fields w, h]
  exact decode_encode i

/-- Settles O1: each word by evaluation of the decoder. -/
theorem tableWordsDecode : Obligations.TableWordsDecode := by
  unfold Obligations.TableWordsDecode
  decide

/-! ### The table (30_encoding.md R61) -/

/-- Two rows whose patterns differ under both masks have no word in common. -/
theorem OpcodeRow.not_selects_both {r q : OpcodeRow} (h : r.pattern &&& q.mask ≠ q.pattern &&& r.mask) (w : Word) :
    ¬ (r.selects w = true ∧ q.selects w = true) := by
  simp only [OpcodeRow.selects, beq_iff_eq]
  rintro ⟨hr, hq⟩
  refine h ?_
  calc r.pattern &&& q.mask = w &&& r.mask &&& q.mask := by rw [hr]
    _ = w &&& q.mask &&& r.mask := by rw [BitVec.and_assoc, BitVec.and_comm r.mask, BitVec.and_assoc]
    _ = q.pattern &&& r.mask := by rw [hq]

theorem opcodeTable_disjoint :
    opcodeTable.Pairwise (fun r q => ∀ w : Word, ¬ (r.selects w = true ∧ q.selects w = true)) := by
  have h : opcodeTable.Pairwise (fun r q => r.pattern &&& q.mask ≠ q.pattern &&& r.mask) := by decide
  exact h.imp OpcodeRow.not_selects_both

/-- The table has a row for every command, and the row selects the command's word. -/
theorem encode_selected (i : Instr) : ∃ r ∈ opcodeTable, r.mnemonic = i.mnemonic ∧ r.selects (encode i) = true := by
  cases i with
  | write => exact Laws.TableRow.write
  | pulse high low blocking => exact Laws.TableRow.pulse high low blocking
  | powerOn => exact Laws.TableRow.powerOn
  | powerOff => exact Laws.TableRow.powerOff
  | frameStart => exact Laws.TableRow.frameStart
  | latchRow => exact Laws.TableRow.latchRow
  | outputRow driveTime len => exact Laws.TableRow.outputRow driveTime len
  | skip => exact Laws.TableRow.skip
  | frameEnd => exact Laws.TableRow.frameEnd

/-- A row whose mask is all ones selects its pattern alone. -/
theorem decode_of_selects_allOnes {name : String} {pattern w : Word} {i : Instr} (hp : decode pattern = .ok i)
    (h : (OpcodeRow.mk name pattern 0xFFFFFFFF).selects w = true) : decode w = .ok i := by
  have hw : w &&& BitVec.allOnes 32 = pattern := eq_of_beq h
  rw [BitVec.and_allOnes] at hw
  rw [hw, hp]

theorem ofBool_beq_one (x : BitVec 1) : BitVec.ofBool (x == 1) = x := by
  revert x
  decide

/-- PULSE's row leaves `BLK`, `A` and `B` free. -/
theorem decode_of_selects_pulse {w : Word} (h : (OpcodeRow.mk "PULSE" 0x20000000 0xF7000000).selects w = true) :
    decode w = .ok (.pulse (fields w).a (fields w).b ((fields w).blk == 1)) := by
  rw [← word_fields w] at h
  obtain ⟨hop, -, hz, -, -⟩ := (selects_word (fields w) ⟨15, 0, 7, 0, 0⟩ ⟨2, 0, 0, 0, 0⟩ "PULSE").1 h
  have hop : (fields w).op = 2 := (BitVec.and_allOnes).symm.trans hop
  have hz : (fields w).z = 0 := (BitVec.and_allOnes).symm.trans hz
  rw [decode_ok_iff, Instr.fields, ofBool_beq_one, ← hop, ← hz]

/-- OUTPUT_ROW's row leaves `A` and `B` free. -/
theorem decode_of_selects_outputRow {w : Word} (h : (OpcodeRow.mk "OUTPUT_ROW" 0x70000000 0xFF000000).selects w = true) :
    decode w = .ok (.outputRow (fields w).a (fields w).b) := by
  rw [← word_fields w] at h
  obtain ⟨hop, hblk, hz, -, -⟩ := (selects_word (fields w) ⟨15, 1, 7, 0, 0⟩ ⟨7, 0, 0, 0, 0⟩ "OUTPUT_ROW").1 h
  have hop : (fields w).op = 7 := (BitVec.and_allOnes).symm.trans hop
  have hblk : (fields w).blk = 0 := (BitVec.and_allOnes).symm.trans hblk
  have hz : (fields w).z = 0 := (BitVec.and_allOnes).symm.trans hz
  rw [decode_ok_iff, Instr.fields, ← hop, ← hblk, ← hz]

/-- A word that a row of the table selects is a command of the row's mnemonic. -/
theorem decode_of_selects {r : OpcodeRow} {w : Word} (hr : r ∈ opcodeTable) (h : r.selects w = true) :
    ∃ i, decode w = .ok i ∧ i.mnemonic = r.mnemonic := by
  simp only [opcodeTable, List.mem_cons, List.not_mem_nil, or_false] at hr
  obtain rfl | rfl | rfl | rfl | rfl | rfl | rfl | rfl | rfl := hr
  case inr.inl => exact ⟨_, decode_of_selects_pulse h, rfl⟩
  case inr.inr.inr.inr.inr.inr.inl => exact ⟨_, decode_of_selects_outputRow h, rfl⟩
  · exact ⟨.write, decode_of_selects_allOnes (by decide) h, rfl⟩
  · exact ⟨.powerOn, decode_of_selects_allOnes (by decide) h, rfl⟩
  · exact ⟨.powerOff, decode_of_selects_allOnes (by decide) h, rfl⟩
  · exact ⟨.frameStart, decode_of_selects_allOnes (by decide) h, rfl⟩
  · exact ⟨.latchRow, decode_of_selects_allOnes (by decide) h, rfl⟩
  · exact ⟨.skip, decode_of_selects_allOnes (by decide) h, rfl⟩
  · exact ⟨.frameEnd, decode_of_selects_allOnes (by decide) h, rfl⟩

/-- R61: a word is a command's exactly when a row with the command's mnemonic selects it. -/
theorem decode_mnemonic_iff (w : Word) (name : String) :
    (∃ i, decode w = .ok i ∧ i.mnemonic = name) ↔ ∃ r ∈ opcodeTable, r.mnemonic = name ∧ r.selects w = true := by
  constructor
  · rintro ⟨i, hi, rfl⟩
    obtain ⟨r, hr, hname, hsel⟩ := encode_selected i
    exact ⟨r, hr, hname, encode_of_decode hi ▸ hsel⟩
  · rintro ⟨r, hr, rfl, hsel⟩
    exact decode_of_selects hr hsel

/-- Settles O4: selection by the rows, their disjointness, and the fields of a word that decodes. -/
theorem decodeFollowsTable : Obligations.DecodeFollowsTable := by
  refine ⟨decode_mnemonic_iff, opcodeTable_disjoint, fun w i h => ?_⟩
  have hf := decode_ok h
  have hop : i.fields.op = w.extractLsb' 28 4 := congrArg Fields.op hf
  have hblk : i.fields.blk = w.extractLsb' 27 1 := congrArg Fields.blk hf
  have ha : i.fields.a = w.extractLsb' 12 12 := congrArg Fields.a hf
  have hb : i.fields.b = w.extractLsb' 0 12 := congrArg Fields.b hf
  cases i with
  | pulse high low blocking =>
    refine ⟨hop.symm, ?_, ha, hb⟩
    rw [← hblk]
    cases blocking <;> rfl
  | outputRow driveTime len => exact ⟨hop.symm, hblk.symm, ha, hb⟩
  | _ => exact ⟨hop.symm, hblk.symm, ha.symm, hb.symm⟩

/-! ### The illegal words (30_encoding.md R69) -/

/-- The words R69 does not list, by their fields: one of the nine operations, `Z = 0`, and what the operation leaves 0. -/
def Fields.legal (p : Params) (f : Fields) : Prop :=
  f.op ≠ 0 ∧ f.op.toNat < 0xA ∧ f.z = 0 ∧ (f.blk = 0 ∨ f.op = 2) ∧ ((f.a = 0 ∧ f.b = 0) ∨ f.op = 2 ∨ f.op = 7) ∧
    (f.op = 7 → f.b.toNat ≤ p.rowWidth)

theorem Params.fits_iff (p : Params) (len : Nat) : p.fits len = true ↔ len ≤ p.rowWidth := by
  simp only [Params.fits, Bool.or_eq_true, beq_iff_eq, decide_eq_true_eq]
  omega

theorem Instr.fields_legal_iff (p : Params) (i : Instr) : i.fields.legal p ↔ i.wellFormed p = true := by
  cases i <;> simp [Fields.legal, Instr.fields, Instr.wellFormed, Params.fits_iff]

/-- The nine operations (30_encoding.md R63). -/
theorem op_cases (op : BitVec 4) (h0 : op ≠ 0) (h : op.toNat < 0xA) :
    op = 1 ∨ op = 2 ∨ op = 3 ∨ op = 4 ∨ op = 5 ∨ op = 6 ∨ op = 7 ∨ op = 8 ∨ op = 9 := by
  revert op
  decide

/-- Legal fields are a command's. -/
theorem Fields.legal.exists_fields {p : Params} {f : Fields} (h : f.legal p) : ∃ i : Instr, f = i.fields := by
  obtain ⟨op, blk, z, a, b⟩ := f
  obtain ⟨h0, hop, hz, hblk, hab, -⟩ := h
  simp only at h0 hop hz hblk hab
  subst hz
  obtain h2 | h2 := eq_or_ne op 2
  · exact ⟨.pulse a b (blk == 1), by rw [Instr.fields, ofBool_beq_one, h2]⟩
  obtain rfl := hblk.resolve_right h2
  obtain h7 | h7 := eq_or_ne op 7
  · exact ⟨.outputRow a b, by rw [Instr.fields, h7]⟩
  obtain ⟨rfl, rfl⟩ := hab.resolve_right (not_or.2 ⟨h2, h7⟩)
  obtain rfl | rfl | rfl | rfl | rfl | rfl | rfl | rfl | rfl := op_cases op h0 hop
  · exact ⟨.write, rfl⟩
  · exact absurd rfl h2
  · exact ⟨.powerOn, rfl⟩
  · exact ⟨.powerOff, rfl⟩
  · exact ⟨.frameStart, rfl⟩
  · exact ⟨.latchRow, rfl⟩
  · exact absurd rfl h7
  · exact ⟨.skip, rfl⟩
  · exact ⟨.frameEnd, rfl⟩

theorem decode_wellFormed_iff (p : Params) (w : Word) :
    (∃ i, decode w = .ok i ∧ i.wellFormed p = true) ↔ (fields w).legal p := by
  constructor
  · rintro ⟨i, hi, hw⟩
    rw [decode_ok_iff.1 hi, Instr.fields_legal_iff]
    exact hw
  · intro h
    obtain ⟨i, hi⟩ := h.exists_fields
    rw [hi, Instr.fields_legal_iff] at h
    exact ⟨i, decode_ok_iff.2 hi, h⟩

/-- R69's list, by the fields of the word. -/
theorem Fields.not_legal_iff (p : Params) (f : Fields) : ¬ f.legal p ↔
    ((f.op = 0 ∨ 0xA ≤ f.op.toNat) ∨ f.z ≠ 0 ∨ (f.blk = 1 ∧ f.op ≠ 2) ∨ ((f.a ≠ 0 ∨ f.b ≠ 0) ∧ f.op ≠ 2 ∧ f.op ≠ 7) ∨
      (f.op = 7 ∧ p.rowWidth < f.b.toNat)) := by
  have hblk : ∀ x : BitVec 1, x = 1 ↔ ¬ x = 0 := by decide
  simp only [Fields.legal, hblk, not_and_or, not_or, Classical.not_imp, not_not, not_lt, not_le, ne_eq, or_assoc]

/-- Settles O5: the legal words are those with legal fields, and R69 lists the others. -/
theorem illegalWordsAreExactlyR69 : Obligations.IllegalWordsAreExactlyR69 := fun p w =>
  (not_congr (decode_wellFormed_iff p w)).trans (Fields.not_legal_iff p (fields w))

end Sys2Proof

namespace Sys2Proof.Machine

/-! ### The step and the command port (30_encoding.md R62, R71) -/

/-- While the other agents alone step, SEQ does nothing (20_memory.md R46). -/
theorem seqStill_interleave (s : State) : SeqStill s (interleave s) := by
  refine ⟨agentsOnly_interleave s, ?_⟩
  simp [SameConfig, SameChannel, SameTransfer, tbufRead]

/-- CMD is at offset 0, and is not accepted after a failed reset (30_encoding.md R62). -/
theorem hostWrite_cmd (w : Word) (s : State) :
    hostWrite 0x000 4 w s = if s.initFail then .next (beforeAccess s) else submitCommand w s := rfl

/-- With `BUSY = 0` and `INIT_FAIL = 0` a write to CMD submits its word (30_encoding.md R62). -/
theorem step_submitCommand {s : State} {w : Word} {rest : List HostOp} (hb : s.busy = false) (hf : s.initFail = false)
    (hq : s.hostq = .write 0x000 4 w :: rest) : step s = submitCommand w { s with hostq := rest } := by
  rw [step_hostStep hb hq, hostStep, hostWrite_cmd, hf]
  rfl

theorem submitCommand_legal {s : State} {w : Word} {i : Instr} (hd : decode w = .ok i)
    (hw : i.wellFormed s.params = true) : submitCommand w s = exec i (accept w s) := by
  simp [submitCommand, hd, hw]

theorem submitCommand_illegal {s : State} {w : Word} (h : ¬ ∃ i, decode w = .ok i ∧ i.wellFormed s.params = true) :
    submitCommand w s = .refused (.illegalCommand w (rejectIllegal w s)) := by
  unfold submitCommand
  split
  · rename_i i hd
    rw [if_neg fun hw => h ⟨i, hd, hw⟩]
  · rfl

/-- Settles O6: a legal word is submitted and accepted; a command in progress is resumed; with nothing pending the agents
step. -/
theorem stepRunsCommand : Obligations.StepRunsCommand := by
  refine ⟨fun s w rest i hb hf hq hd hw => ?_, fun s i hb hi hq => ?_, fun s hb hq => ?_⟩
  · rw [step_submitCommand hb hf hq]
    exact submitCommand_legal hd hw
  · refine step_resume hb ?_ hi
    cases hs : s.hostq with
    | nil => rfl
    | cons op rest => obtain rfl | rfl | rfl := hq op rest hs <;> rfl
  · refine ⟨interleave s, ?_, seqStill_interleave s, fun _ => rfl⟩
    simp [step, advance, hb, hq]

/-! ### A pending access waits while a command runs (20_memory.md R46) -/

section
variable {op : HostOp} {rest : List HostOp}

/-- No action of a command takes an access that is not a read. -/
theorem doAct_hostq (hop : ∀ o n, op ≠ .read o n) (a : Act) {s : State} (h : s.hostq = op :: rest) :
    (doAct a s).state.hostq = op :: rest := by
  have hi : ∀ {u : State}, u.hostq = op :: rest → (interleave u).hostq = op :: rest := interleave_hostq _ op rest hop
  cases a with
  | commit => exact (commit_hostq s).trans h
  | delay d => exact hi h
  | beginPulse high low blk =>
    simp only [doAct, beginPulse]
    split
    · exact hi h
    · split
      · exact hi (u := acquired s) (hi h)
      · exact hi h
  | awaitPulse => simp only [doAct, awaitPulse]; split <;> exact hi h
  | checkSlot => simp only [doAct, checkSlot]; split <;> exact h
  | issueTransfer => exact hi h
  | collectTransfer => simp only [doAct, collectTransfer]; split <;> exact hi h
  | _ => exact h

theorem exec_hostq (hop : ∀ o n, op ≠ .read o n) {i : Instr} {s t : State} (hx : exec i s = .next t)
    (h : s.hostq = op :: rest) : t.hostq = op :: rest :=
  exec_induct (P := fun u => u.hostq = op :: rest) hx (fun a _ _ h => doAct_hostq hop a h) (fun _ h => h) (fun _ h => h)
    (fun _ u h => interleave_hostq u op rest hop h) (fun u h => interleave_hostq u op rest hop h) h

end

/-- Settles O7: the write is refused while BUSY, no command takes it, and after a failed reset it is dropped. -/
theorem commandNotAcceptedUnlessIdle : Obligations.CommandNotAcceptedUnlessIdle := by
  refine ⟨fun s w rest hb hq => ?_, fun i s t w rest hq hx => exec_hostq (op := .write 0x000 4 w) nofun hx hq,
    fun s w rest hb hf hq => ?_⟩
  · exact (step_busy_refused_iff hb hq).2 rfl
  · refine ⟨beforeAccess { s with hostq := rest }, ?_, rfl, beforeAccess_reads _, seqStill_beforeAccess s rest,
      fun _ => rfl⟩
    rw [step_hostStep hb hq, hostStep, hostWrite_cmd, hf]
    rfl

/-! ### Acceptance and rejection -/

theorem agentsOnly_accept (w : Word) (s : State) : AgentsOnly s (accept w s) := by
  unfold accept
  exact AgentsOnly.trans (.of_core rfl) (agentsOnly_seqEmit _ _)

/-- Settles O8: the latches are loaded before the one event, and the event lets only the other agents step. -/
theorem acceptanceLoadsLatches : Obligations.AcceptanceLoadsLatches := by
  intro s w i hd
  refine ⟨rfl, rfl, rfl, rfl, rfl, ⟨rfl, rfl⟩, accept_current hd, seqTrace_accept w s, ?_, ?_, ?_, by simp, by simp,
    by simp, by simp, fun _ => by simp, agentsOnly_accept w s, accept_cyc w s, accept_polled w s⟩
  · simp [SameConfig]
  · simp [SameChannel]
  · simp [SameTransfer, tbufRead]

theorem agentsOnly_seqEmits (es : List Event) (s : State) : AgentsOnly s (seqEmits es s) := by
  induction es generalizing s with
  | nil => exact .refl s
  | cons e es ih => exact (agentsOnly_seqEmit e s).trans (ih _)

theorem agentsOnly_rejectIllegal (w : Word) (s : State) : AgentsOnly s (rejectIllegal w s) := by
  have h : AgentsOnly s { s with hostq := [] } := .of_core rfl
  exact (h.trans (agentsOnly_seqEmits [.cmd w, .ret .illegalCommand] _)).trans (.of_core rfl)

/-- Settles O9: the refusal's state is SEQ's two events and code 7 in RESULT. -/
theorem illegalWordReportsCode7 : Obligations.IllegalWordReportsCode7 := by
  intro s w rest hb hf hq hw
  have hs : AgentsOnly s { s with hostq := rest } := .of_core rfl
  refine ⟨rejectIllegal w { s with hostq := rest }, ?_, ?_, ?_, by simp, ?_, ?_, ?_, ?_,
    hs.trans (agentsOnly_rejectIllegal w _), seqTrace_rejectIllegal w _, rfl⟩
  · rw [step_submitCommand hb hf hq]
    exact submitCommand_illegal hw
  · simp [hb]
  · simp [resultWord, Cause.sub, Cause.code]
  · simp [SameConfig]
  · simp [SameChannel]
  · simp [SameTransfer, tbufRead]
  · simp [SameFixed]

/-! ### A non-blocking pulse (41_timing_pulse.md R94 to R96) -/

/-- A pulse that gets a channel issues its waveform on it and forfeits it. -/
theorem beginPulse_done {s : State} (hc : channelAfter 0 s) (high low : Nat) (blk : Bool) :
    ∃ t, beginPulse high low blk s = .done t ∧ t.tch = .absent ∧ t.tchGen = genAfterPulse s ∧
      QueuesWave ⟨nextInstance s, high, low, blk, .queued⟩ s t ∧
      seqTrace t = seqTrace s ++ acquireEvents s ++ [.tpIssue (nextInstance s) high low blk] := by
  cases ht : s.tch with
  | held g =>
    refine ⟨_, beginPulse_held ht high low blk, rfl, ?_, ?_, ?_⟩
    · simp [genAfterPulse, ht]
    · simpa only [nextInstance, ht] using queuesWave_issueWave g high low blk s
    · simp [acquireEvents, nextInstance, ht]
  | absent =>
    have hok : nextAcq s = true := hc.resolve_left (not_not.2 ht)
    refine ⟨_, beginPulse_acquired ht hok high low blk, rfl, ?_, ?_, ?_⟩
    · simp [genAfterPulse, ht]
    · simpa only [nextInstance, ht] using
        (queuesWave_issueWave _ high low blk (acquired s)).before (agentsOnly_acquired s).tpgOnly
    · simp [acquireEvents, nextInstance, ht]

/-- A non-blocking PULSE that gets a channel ends in its first step (R96, R102). -/
theorem exec_pulse_nonBlocking {s : State} (h0 : s.atStart) (hc : channelAfter 0 s) (high low : Operand) :
    ∃ t, exec (.pulse high low false) s = .next t ∧ endedWith .ok t ∧ t.tch = .absent ∧ t.tchGen = genAfterPulse s ∧
      QueuesWave ⟨nextInstance s, high.toNat, low.toNat, false, .queued⟩ s t ∧
      seqTrace t = seqTrace s ++ acquireEvents s ++
        [.tpIssue (nextInstance s) high.toNat low.toNat false, .ret .ok] := by
  obtain ⟨u, hu, htch, hgen, hwave, htrace⟩ := beginPulse_done hc high.toNat low.toNat false
  refine ⟨returnOk (nextStep (nextAct u)), ?_, ⟨rfl, rfl⟩, htch, hgen, ?_, ?_⟩
  · rw [exec_atStart h0]
    simp [microSteps, pulseSteps, pulseActs, runSteps, runActs, doAct, zext, h0.2, hu]
  · exact hwave.after
      (((agentsOnly_nextAct u).trans (agentsOnly_nextStep _)).trans (agentsOnly_returnOk _)).tpgOnly
  · simp [htrace]

/-- R74: SKIP's run is PULSE's with its two durations. -/
theorem exec_skip (s : State) : exec .skip s = exec (.pulse 45 5 false) s := rfl

/-- Settles O36: SKIP is a non-blocking PULSE by definition, and a non-blocking PULSE that gets a channel completes. -/
theorem skipIsNonBlockingPulse : Obligations.SkipIsNonBlockingPulse :=
  ⟨rfl, fun _ _ => rfl, exec_skip, fun _ h0 hc => exec_pulse_nonBlocking h0 hc 45 5⟩

end Sys2Proof.Machine

namespace Sys2Proof.Machine

/-! ### One field of `CFG` (40_config_writer.md R80) -/

theorem CfgField.bit_lt (f : CfgField) : f.bit < 8 := by cases f <;> decide

/-- A field is found by its bit number in the serial order (30_encoding.md R65). -/
theorem CfgField.serialOrder_bit (f : CfgField) : serialOrder[7 - f.bit]? = some f := by cases f <;> rfl

theorem CfgField.bit_injective : Function.Injective CfgField.bit := fun f g h =>
  Option.some.inj (by rw [← f.serialOrder_bit, ← g.serialOrder_bit, h])

theorem CfgField.mask_eq_twoPow (f : CfgField) : f.mask = BitVec.twoPow 8 f.bit := by cases f <;> rfl

/-- A field update writes the field's bit and no other. -/
theorem CfgField.getLsbD_set (f : CfgField) (b : Bool) (v : Byte) {n : Nat} (hn : n < 8) :
    (f.set b v).getLsbD n = if n = f.bit then b else v.getLsbD n := by
  by_cases h : n = f.bit <;> cases b <;> simp [CfgField.set, mask_eq_twoPow, h, hn, f.bit_lt]

@[simp] theorem CfgField.get_set (f g : CfgField) (b : Bool) (v : Byte) :
    g.get (f.set b v) = if g = f then b else g.get v := by
  simp only [CfgField.get, getLsbD_set f b v g.bit_lt, bit_injective.eq_iff]

theorem CfgField.set_comm {f g : CfgField} (h : f ≠ g) (b c : Bool) (v : Byte) :
    f.set b (g.set c v) = g.set c (f.set b v) := by
  refine BitVec.eq_of_getLsbD_eq fun n hn => ?_
  simp only [getLsbD_set _ _ _ hn]
  split_ifs with hf hg
  · exact absurd (bit_injective (hf.symm.trans hg)) h
  all_goals rfl

theorem CfgField.set_get (f : CfgField) (v : Byte) : f.set (f.get v) v = v := by
  refine BitVec.eq_of_getLsbD_eq fun n hn => ?_
  rw [getLsbD_set _ _ _ hn]
  split_ifs with h
  · rw [h, CfgField.get]
  · rfl

/-- Pending updates are followed by updates only, up to a commit. -/
theorem commitsUpdates_pending_commit {as : List Act} (h : commitsUpdates true as = true) :
    ∃ j : Nat, as[j]? = some Act.commit ∧ ∀ n < j, ∃ g c, as[n]? = some (Act.set g c) := by
  induction as with
  | nil => cases h
  | cons a as ih =>
    obtain ⟨g, c, rfl, h⟩ | ⟨rfl, -⟩ | ⟨-, hp, -⟩ := commitsUpdates_cons h
    · obtain ⟨j, hj, hsets⟩ := ih h
      refine ⟨j + 1, hj, fun n hn => ?_⟩
      cases n with
      | zero => exact ⟨g, c, rfl⟩
      | succ n => exact hsets n (by omega)
    · exact ⟨0, rfl, fun n hn => absurd hn (Nat.not_lt_zero n)⟩
    · cases hp

/-- In a list of actions that commits its updates, a commit follows each update, with only updates between. -/
theorem commitsUpdates_set_commit {as : List Act} {k : Nat} {f : CfgField} {b : Bool}
    (h : commitsUpdates false as = true) (hk : as[k]? = some (.set f b)) :
    ∃ j, k < j ∧ as[j]? = some Act.commit ∧ ∀ n, k < n → n < j → ∃ g c, as[n]? = some (Act.set g c) := by
  have hdrop : as.drop k = .set f b :: as.drop (k + 1) := by
    obtain ⟨hlt, hget⟩ := List.getElem?_eq_some_iff.1 hk
    rw [List.drop_eq_getElem_cons hlt, hget]
  have hrest : commitsUpdates true (as.drop (k + 1)) = true := by
    have := commitsUpdates_drop k h
    rwa [hdrop] at this
  obtain ⟨j, hj, hsets⟩ := commitsUpdates_pending_commit hrest
  rw [List.getElem?_drop] at hj
  refine ⟨k + 1 + j, by omega, hj, fun n hkn hnj => ?_⟩
  obtain ⟨m, rfl⟩ := Nat.exists_eq_add_of_lt hkn
  have := hsets m (by omega)
  rwa [List.getElem?_drop, Nat.add_right_comm] at this

/-- Settles O10: a field update writes one bit, and every micro-step commits the updates it makes. -/
theorem fieldUpdateIsLocal : Obligations.FieldUpdateIsLocal :=
  ⟨fun f g b v => CfgField.get_set f g b v, fun _ _ b c v h => CfgField.set_comm h b c v, CfgField.set_get,
    fun _ _ _ => rfl, fun i m hm _ _ _ => commitsUpdates_set_commit (microSteps_commitsUpdates i m hm)⟩

/-! ### WRITE (40_config_writer.md R83) -/

/-- WRITE's run from its start: one commit, and the normal exit. -/
theorem exec_write {s : State} (h : s.atStart) :
    exec .write s = .next (returnOk (nextStep (nextAct (commit s)))) := by
  rw [exec_atStart h]
  simp [microSteps, writeSteps, runSteps, runActs, doAct, h.2]

/-- Settles O12: the commit drives the lines and the panel whatever they held, and the exit leaves them. -/
theorem writeCommitsRegister : Obligations.WriteCommitsRegister := by
  intro s h0
  refine ⟨_, exec_write h0, ⟨rfl, rfl⟩, ?_, ?_, ?_, ?_, ?_⟩ <;> simp [linesAfterCommit]

/-! ### The frame of the commands that only configure (40_config_writer.md R80, R83; 43_frame_scan.md R121) -/

/-- What an action other than a field update leaves in `CFG`: all of it. -/
theorem doAct_cfg {a : Act} (ha : ∀ f b, a ≠ .set f b) (s : State) : (doAct a s).state.cfg = s.cfg := by
  cases a with
  | set f b => exact absurd rfl (ha f b)
  | beginPulse high low blk =>
    simp only [doAct, beginPulse]
    split
    · simp
    · split <;> simp
  | awaitPulse => simp only [doAct, awaitPulse]; split <;> simp
  | checkSlot => simp only [doAct, checkSlot]; split <;> rfl
  | collectTransfer => simp only [doAct, collectTransfer]; split <;> simp
  | _ => simp [doAct]

/-- What every field update of a command keeps of `CFG`, the command keeps of it. -/
theorem exec_cfg_induct {P : Byte → Prop} {i : Instr} {s t : State} (hx : exec i s = .next t)
    (hset : ∀ f b, .set f b ∈ (microSteps i).flatten → ∀ v, P v → P (f.set b v)) (hs : P s.cfg) : P t.cfg := by
  refine exec_induct (P := fun t => P t.cfg) hx (fun a ha u h => ?_) (fun _ h => h) (fun _ h => h) (fun _ _ h => h)
    (fun _ h => h) hs
  by_cases hf : ∃ f b, a = .set f b
  · obtain ⟨f, b, rfl⟩ := hf
    exact hset f b ha u.cfg h
  · rw [doAct_cfg (fun f b e => hf ⟨f, b, e⟩)]
    exact h

/-- A command that updates no field leaves `CFG` alone. -/
theorem exec_cfg_of_noSet {i : Instr} {s t : State} (hx : exec i s = .next t)
    (hset : ∀ f b, .set f b ∉ (microSteps i).flatten) : t.cfg = s.cfg :=
  exec_cfg_induct (P := fun v => v = s.cfg) hx (fun f b h => absurd h (hset f b)) rfl

/-- A command leaves alone every field that it does not update. -/
theorem exec_get_cfg {i : Instr} {s t : State} {g : CfgField} (hx : exec i s = .next t)
    (hset : ∀ f b, .set f b ∈ (microSteps i).flatten → g ≠ f) : g.get t.cfg = g.get s.cfg :=
  exec_cfg_induct (P := fun v => g.get v = g.get s.cfg) hx
    (fun f b h v hv => by rw [CfgField.get_set, if_neg (hset f b h), hv]) rfl

/-- Nothing but the configuration registers, the lines and the sequencer's own place has changed, but by steps of the
other agents. -/
structure OnlyConfigures (s t : State) : Prop where
  channel : SameChannel s t
  tr : t.tr = s.tr
  tbuf : t.tbuf = s.tbuf
  fsm : t.fsm = s.fsm
  agents : AgentsOnly s t

theorem OnlyConfigures.refl (s : State) : OnlyConfigures s s := ⟨⟨rfl, rfl, rfl⟩, rfl, rfl, rfl, .refl s⟩

theorem OnlyConfigures.trans {s t u : State} (h : OnlyConfigures s t) (k : OnlyConfigures t u) :
    OnlyConfigures s u := by
  obtain ⟨⟨hc, hg, hp⟩, hr, hb, hf, ha⟩ := h
  obtain ⟨⟨kc, kg, kp⟩, kr, kb, kf, ka⟩ := k
  exact ⟨⟨kc.trans hc, kg.trans hg, kp.trans hp⟩, kr.trans hr, kb.trans hb, kf.trans hf, ha.trans ka⟩

theorem OnlyConfigures.sameTransfer {s t : State} (h : OnlyConfigures s t) : SameTransfer s t :=
  ⟨h.tr, fun n => by rw [tbufRead, tbufRead, h.tbuf]⟩

theorem onlyConfigures_commit (s : State) : OnlyConfigures s (commit s) :=
  ⟨by simp [SameChannel], by simp, by simp, by simp, agentsOnly_commit s⟩

theorem onlyConfigures_setField (f : CfgField) (b : Bool) (s : State) : OnlyConfigures s (setField f b s) :=
  ⟨⟨rfl, rfl, rfl⟩, rfl, rfl, rfl, agentsOnly_setField f b s⟩

/-- A command whose actions are field updates and commits changes nothing else (10_state.md R13, R19, R22, R23). -/
theorem exec_onlyConfigures {i : Instr} {s t : State} (hx : exec i s = .next t)
    (hacts : ∀ a ∈ (microSteps i).flatten, a = .commit ∨ ∃ f b, a = .set f b) : OnlyConfigures s t := by
  refine exec_induct (P := OnlyConfigures s) hx (fun a ha u h => ?_)
    (fun u h => h.trans ⟨⟨rfl, rfl, rfl⟩, rfl, rfl, rfl, agentsOnly_nextAct u⟩)
    (fun u h => h.trans ⟨⟨rfl, rfl, rfl⟩, rfl, rfl, rfl, agentsOnly_nextStep u⟩)
    (fun c u h => h.trans ⟨⟨rfl, rfl, rfl⟩, rfl, rfl, rfl, agentsOnly_raise c u⟩)
    (fun u h => h.trans ⟨⟨rfl, rfl, rfl⟩, rfl, rfl, rfl, agentsOnly_returnOk u⟩) (.refl s)
  obtain rfl | ⟨f, b, rfl⟩ := hacts a ha
  · exact h.trans (onlyConfigures_commit u)
  · exact h.trans (onlyConfigures_setField f b u)

/-- WRITE's one action is a commit (R83). -/
theorem mem_write_acts {a : Act} : a ∈ (microSteps .write).flatten ↔ a = .commit := by
  simp [microSteps, writeSteps]

/-- LATCH_ROW's actions are commits and updates of `latch_enable` (43_frame_scan.md R121). -/
theorem mem_latchRow_acts {a : Act} (h : a ∈ (microSteps .latchRow).flatten) :
    a = .commit ∨ ∃ b, a = .set .latchEnable b := by
  simp only [microSteps, latchRowSteps, List.flatten_cons, List.flatten_nil, List.cons_append, List.nil_append,
    List.append_nil, List.mem_cons, List.not_mem_nil, or_false] at h
  obtain rfl | rfl | rfl | rfl := h
  · exact .inr ⟨true, rfl⟩
  · exact .inl rfl
  · exact .inr ⟨false, rfl⟩
  · exact .inl rfl

/-- Settles O14: the actions of both commands are commits and, in LATCH_ROW, updates of `latch_enable`. -/
theorem writeLatchFrame : Obligations.WriteLatchFrame := by
  intro i s t hi hx
  have hlatch : ∀ a ∈ (microSteps i).flatten, a = .commit ∨ ∃ b, a = .set .latchEnable b := by
    obtain rfl | rfl := hi
    · exact fun a ha => .inl (mem_write_acts.1 ha)
    · exact fun a ha => mem_latchRow_acts ha
  have honly := exec_onlyConfigures hx fun a ha => (hlatch a ha).imp_right fun ⟨b, e⟩ => ⟨.latchEnable, b, e⟩
  obtain ⟨hp, hop, hblk, ha, hb, hf, hr⟩ := exec_fixed hx
  refine ⟨⟨hp, hop, hblk, ha, hb, hf, fun n => by rw [hr]⟩, honly.channel, honly.sameTransfer, honly.fsm, honly.agents,
    ?_, fun g hg => exec_get_cfg hx fun f b hmem => ?_⟩
  · rintro rfl
    exact exec_cfg_of_noSet hx fun f b hmem => nomatch mem_write_acts.1 hmem
  · obtain e | ⟨c, e⟩ := hlatch _ hmem <;> cases e
    exact hg

/-! ### How many commits a command makes (40_config_writer.md R84, R85) -/

section
variable {P : List Act → State → Prop}
  (hact : ∀ a as s t, P (a :: as) s → doAct a s = .done t → P as (nextAct t))
include hact

/-- What holds of the actions left and the state, and is kept by every action that is done, a micro-step that is done
keeps. -/
theorem runActs_done {as bs : List Act} {s t : State} (h : P (as ++ bs) s) (hr : runActs as s = .done t) : P bs t := by
  induction as generalizing s with
  | nil => cases hr; exact h
  | cons a as ih =>
    simp only [runActs] at hr
    split at hr
    · next u hu => exact ih (hact _ _ _ _ h hu) hr
    · cases hr
    · cases hr

/-- Where a run of micro-steps exits with Ok, it holds with nothing left. -/
theorem runSteps_endedOk (hstep : ∀ as s, P as s → P as (nextStep s)) {steps : List MicroStep} {s : State}
    (h : P (actsLeft steps s.act) s) (hb : s.busy = true) (he : endedWith .ok (runSteps steps s)) :
    ∃ u, P [] u ∧ runSteps steps s = returnOk u := by
  induction steps generalizing s with
  | nil => exact ⟨s, h, rfl⟩
  | cons m ms ih =>
    simp only [runSteps] at he ⊢
    cases hr : runActs (m.drop s.act) s with
    | done t =>
      rw [hr] at he
      have hbusy : (nextStep t).busy = true := by simpa [hr, hb] using (runActs_cursor (m.drop s.act) s).1
      exact ih ((actsLeft_zero ms).symm ▸ hstep _ _ (runActs_done hact h hr)) hbusy he
    | error c t =>
      rw [hr] at he
      exact absurd he.2 (runActs_error_ne_ok hr)
    | hold t =>
      rw [hr] at he
      have hbusy : t.busy = true := (runActs_hold hr).1.trans hb
      cases hbusy.symm.trans he.1

end

/-- Only a commit adds a `Cfg` event, and it adds one. -/
theorem doAct_commitTrace_length (a : Act) (s : State) :
    (commitTrace (doAct a s).state).length = (commitTrace s).length + [a].count .commit := by
  cases a with
  | commit => simp [doAct]
  | beginPulse high low blk =>
    simp only [doAct, beginPulse]
    split
    · simp [commitTrace_eq, Event.committed]
    · split <;> simp [commitTrace_eq, Event.committed]
  | awaitPulse => simp only [doAct, awaitPulse]; split <;> simp [commitTrace_eq]
  | checkSlot => simp only [doAct, checkSlot]; split <;> simp
  | collectTransfer => simp only [doAct, collectTransfer]; split <;> simp [commitTrace_eq]
  | _ => simp [doAct, commitTrace_eq, Event.committed]

/-- With `as` left to do, a run is to have made `n` commits at its end. -/
def CommitsInAll (n : Nat) (as : List Act) (s : State) : Prop := (commitTrace s).length + as.count .commit = n

theorem CommitsInAll.doAct {n : Nat} {a : Act} {as : List Act} {s t : State} (h : CommitsInAll n (a :: as) s)
    (hd : doAct a s = .done t) : CommitsInAll n as (nextAct t) := by
  have hcount := doAct_commitTrace_length a s
  rw [hd, ActResult.state_done] at hcount
  rw [CommitsInAll, ← List.singleton_append, List.count_append] at h
  show (commitTrace t).length + _ = n
  omega

/-- A command that ends with Ok in its first step makes all its commits. -/
theorem exec_commitTrace_length {i : Instr} {s t : State} (h0 : s.atStart) (hb : s.busy = true)
    (hx : exec i s = .next t) (he : endedWith .ok t) :
    (commitTrace t).length = (commitTrace s).length + (microSteps i).flatten.count .commit := by
  rw [exec_atStart h0] at hx
  cases hx
  have hall : CommitsInAll ((commitTrace s).length + (microSteps i).flatten.count .commit)
      (actsLeft (microSteps i) s.act) s := by
    rw [h0.2, actsLeft_zero, CommitsInAll]
  obtain ⟨u, hu, e⟩ := runSteps_endedOk (fun _ _ _ _ h hd => h.doAct hd) (fun _ _ h => h) hall hb he
  rw [e, ← hu]
  simp [commitTrace_eq, Event.committed]

/-- Settles O15: a command that ends with Ok has done all its actions, and each commit among them adds one event. -/
theorem commitCountPerCommand : Obligations.CommitCountPerCommand := by
  intro i s t h0 hb hx he
  rw [exec_commitTrace_length h0 hb hx he]
  congr 1
  cases i with
  | pulse high low blocking => cases blocking <;> rfl
  | _ => rfl

end Sys2Proof.Machine

namespace Sys2Proof.Machine

/-! ### How a run of a command can come out -/

section
variable {P : List Act → State → Prop} {Q : State → Prop}
  (hact : ∀ a as s t, P (a :: as) s → doAct a s = .done t → P as (nextAct t))
include hact

/-- A micro-step that errs does so at an action before which the property of the actions left still held. -/
theorem runActs_error {as bs : List Act} {s t : State} {c : Cause} (h : P (as ++ bs) s)
    (hr : runActs as s = .error c t) : ∃ a rest u, P (a :: rest) u ∧ doAct a u = .error c t := by
  induction as generalizing s with
  | nil => cases hr
  | cons a as ih =>
    simp only [runActs] at hr
    split at hr
    · next u hu => exact ih (hact _ _ _ _ h hu) hr
    · next hd => cases hr; exact ⟨a, as ++ bs, s, h, hd⟩
    · cases hr

/-- Where a micro-step is held, the property holds of the actions left there. -/
theorem runActs_held (hhold : ∀ a as s t, P (a :: as) s → doAct a s = .hold t → P (a :: as) t) {as bs : List Act}
    {s t : State} (h : P (as ++ bs) s) (hr : runActs as s = .hold t) : ∃ k, t.act = s.act + k ∧ P (as.drop k ++ bs) t := by
  induction as generalizing s with
  | nil => cases hr
  | cons a as ih =>
    have hcursor := (doAct_cursor a s).2.2
    simp only [runActs] at hr
    split at hr
    · next u hu =>
      obtain ⟨k, hk, hP⟩ := ih (hact _ _ _ _ h hu) hr
      rw [hu, ActResult.state_done] at hcursor
      exact ⟨k + 1, by rw [hk, nextAct_act, hcursor]; omega, hP⟩
    · cases hr
    · next hd =>
      cases hr
      rw [hd, ActResult.state_hold] at hcursor
      exact ⟨0, hcursor, hhold _ _ _ _ h hd⟩

variable (hhold : ∀ a as s t, P (a :: as) s → doAct a s = .hold t → P (a :: as) t)
  (hstep : ∀ as s, P as s → P as (nextStep s)) (hret : ∀ s, P [] s → Q (returnOk s))
  (herror : ∀ a as s c t, P (a :: as) s → doAct a s = .error c t → Q (raise c t))
include hhold hstep hret herror

/-- A property of the actions left and the state, kept by every action, is turned by an exit into the exit's own property,
and holds where a run of micro-steps is held. -/
theorem runSteps_outcome {steps : List MicroStep} {s : State} (h : P (actsLeft steps s.act) s) :
    ((runSteps steps s).busy = false ∧ Q (runSteps steps s)) ∨ (runSteps steps s).busy = s.busy ∧
      ∃ k, (runSteps steps s).step = s.step + k ∧
        P (actsLeft (steps.drop k) (runSteps steps s).act) (runSteps steps s) := by
  induction steps generalizing s with
  | nil => exact .inl ⟨rfl, hret s h⟩
  | cons m ms ih =>
    simp only [runSteps]
    cases hr : runActs (m.drop s.act) s with
    | done t =>
      have hcursor := runActs_cursor (m.drop s.act) s
      rw [hr, ActResult.state_done] at hcursor
      obtain hend | ⟨hbusy, k, hk, hP⟩ :=
        ih (s := nextStep t) ((actsLeft_zero ms).symm ▸ hstep _ _ (runActs_done hact h hr))
      · exact .inl hend
      · exact .inr ⟨hbusy.trans hcursor.1, k + 1, by rw [hk, nextStep_step, hcursor.2]; omega, hP⟩
    | error c t =>
      obtain ⟨a, rest, u, hP, hd⟩ := runActs_error hact h hr
      exact .inl ⟨rfl, herror a rest u c t hP hd⟩
    | hold t =>
      obtain ⟨hbusy, hsame, -⟩ := runActs_hold hr
      obtain ⟨k, hk, hP⟩ := runActs_held hact hhold h hr
      refine .inr ⟨hbusy, 0, hsame, ?_⟩
      simpa [actsLeft, hk, List.drop_drop] using hP

/-- The same of a command, from wherever the sequencer stands in it. -/
theorem exec_outcome {i : Instr} {s t : State} (hx : exec i s = .next t)
    (h : P (actsLeft ((microSteps i).drop s.step) s.act) s) :
    (t.busy = false ∧ Q t) ∨ t.busy = s.busy ∧ P (actsLeft ((microSteps i).drop t.step) t.act) t := by
  obtain rfl := exec_next hx
  refine (runSteps_outcome hact hhold hstep hret herror h).imp_right fun ⟨hbusy, k, hk, hP⟩ => ⟨hbusy, ?_⟩
  rwa [List.drop_drop, ← hk] at hP

end

/-! ### The timing invariant along a command (41_timing_pulse.md R91, R97) -/

theorem microSteps_flatten_paired (i : Instr) : paired (microSteps i).flatten = true := by
  cases i with
  | pulse high low blk => cases blk <;> rfl
  | _ => rfl

/-- An action that is held leaves the state it needs. -/
theorem doAct_hold_stands {a : Act} {s t : State} (hs : StandsAt (some a) s) (hd : doAct a s = .hold t) :
    StandsAt (some a) t := by
  obtain rfl | rfl := doAct_hold hd
  · obtain ⟨u, e, -⟩ | ⟨c, u, e, -⟩ | ⟨u, e, hu⟩ := awaitPulse_pending (s := s) hs
    all_goals cases hd.symm.trans e
    exact hu
  · have hnone : NonePending (doAct .collectTransfer s).state := doAct_nonePending nofun nofun hs
    rwa [hd] at hnone

/-- An action that errs leaves no blocking waveform out (R93, R99). -/
theorem doAct_error_stands {a : Act} {c : Cause} {s t : State} (hs : StandsAt (some a) s)
    (hd : doAct a s = .error c t) : NonePending t := by
  by_cases ha : a = .awaitPulse
  · subst ha
    obtain ⟨u, e, -⟩ | ⟨c, u, e, hu⟩ | ⟨u, e, -⟩ := awaitPulse_pending (s := s) hs
    all_goals cases hd.symm.trans e
    exact hu
  have hnone : NonePending s := by simpa [StandsAt, ha] using hs
  by_cases hb : ∃ high low, a = .beginPulse high low true
  · obtain ⟨high, low, rfl⟩ := hb
    obtain ⟨u, e, -⟩ | ⟨c, u, e, hu⟩ := beginPulse_blocking (high := high) (low := low) hnone
    all_goals cases hd.symm.trans e
    exact hu
  · have h := doAct_nonePending (fun high low e => hb ⟨high, low, e⟩) ha hnone
    rwa [hd] at h

/-- With a command in progress the invariant says no more than what the action at which it stands needs. -/
theorem StandsAt.timingInv {i : Instr} {s : State} (hb : s.busy = true) (hi : s.current = some i)
    (h : StandsAt (actAt i s) s) : TimingInv s := by
  have hwaits : s.waitsForPulse = true ↔ actAt i s = some .awaitPulse := by simp [waitsForPulse_iff, hb, hi]
  simpa only [timingInv_iff, hwaits, StandsAt] using h

/-- With no command in progress the invariant says that no blocking waveform is out. -/
theorem timingInv_iff_nonePending {s : State} (hb : s.busy = false) : TimingInv s ↔ NonePending s := by
  simp [timingInv_iff, State.waitsForPulse, hb]

/-- A command that starts as its next action needs it ends, or is held, within the invariant. -/
theorem timingInv_exec {i : Instr} {s t : State} (hb : s.busy = true) (hi : s.current = some i)
    (hx : exec i s = .next t) (hp : PairedRest (actsLeft ((microSteps i).drop s.step) s.act))
    (hs : StandsAt (actsLeft ((microSteps i).drop s.step) s.act).head? s) : TimingInv t := by
  obtain ⟨hbusy, hnone⟩ | ⟨hbusy, -, hstands⟩ :=
    exec_outcome (P := fun as u => PairedRest as ∧ StandsAt as.head? u) (Q := NonePending)
      (fun _ _ _ _ h hd => doAct_stands h.1 h.2 hd) (fun _ _ _ _ h hd => ⟨h.1, doAct_hold_stands h.2 hd⟩)
      (fun _ _ h => ⟨h.1, h.2.of_eq rfl rfl rfl rfl rfl⟩)
      (fun _ h => NonePending.of_eq (NonePending.interleave h.2) rfl rfl rfl rfl)
      (fun _ _ _ _ _ h hd => (doAct_error_stands h.2 hd).interleave.of_eq rfl rfl rfl rfl) hx ⟨hp, hs⟩
  · exact (timingInv_iff_nonePending hbusy).2 hnone
  · rw [hb] at hbusy
    obtain ⟨a, hat⟩ : ∃ a, actAt i t = some a := by
      obtain hend | ⟨-, hat | hat⟩ := exec_ends hb hx
      · cases hend.symm.trans hbusy
      · exact ⟨_, hat⟩
      · exact ⟨_, hat⟩
    rw [actsLeft_head hat, ← hat] at hstands
    exact hstands.timingInv hbusy ((exec_fixed hx).current.trans hi)

/-- A command in progress stands at one of its actions. -/
theorem ControlInv.stands {s : State} (h : ControlInv s) (hb : s.busy = true) :
    ∃ i a, s.current = some i ∧ actAt i s = some a ∧
      (a = .awaitPulse ∨ a = .collectTransfer ∧ s.tr = .absent) := by
  obtain ⟨-, hwait | ⟨hwait, htr⟩⟩ := h hb
  · obtain ⟨-, i, hi, hat⟩ := waitsForPulse_iff.1 hwait
    exact ⟨i, _, hi, hat, .inl rfl⟩
  · obtain ⟨-, i, hi, hat⟩ := waitsForTransfer_iff.1 hwait
    exact ⟨i, _, hi, hat, .inr ⟨rfl, htr⟩⟩

theorem TimingInv.resume {i : Instr} {s t : State} (h : TimingInv s) (hc : ControlInv s) (hb : s.busy = true)
    (hi : s.current = some i) (hx : exec i s = .next t) : TimingInv t := by
  obtain ⟨j, a, hj, hat, -⟩ := hc.stands hb
  obtain rfl : i = j := Option.some.inj (hi.symm.trans hj)
  have hsuffix : actsLeft ((microSteps i).drop s.step) s.act <:+ (microSteps i).flatten :=
    (actsLeft_suffix _ _).trans (List.drop_suffix _ _).flatten
  refine timingInv_exec hb hi hx (PairedRest.suffix (.inl (microSteps_flatten_paired i)) hsuffix) ?_
  rw [actsLeft_head hat, ← hat]
  exact h.standsAt hb hi

theorem NonePending.accept {s : State} (w : Word) (h : NonePending s) : NonePending (accept w s) := by
  unfold Machine.accept
  exact NonePending.seqEmit _ (h.of_eq rfl rfl rfl rfl)

/-- An accepted command starts at an action that is no wait. -/
theorem NonePending.timingInv_accepted {i : Instr} {s t : State} {w : Word} (h : NonePending s)
    (hd : decode w = .ok i) (hx : exec i (Machine.accept w s) = .next t) : TimingInv t := by
  have hleft : actsLeft ((microSteps i).drop (Machine.accept w s).step) (Machine.accept w s).act =
      (microSteps i).flatten := actsLeft_zero _
  refine timingInv_exec (accept_busy w s) (accept_current hd) hx ?_ ?_ <;> rw [hleft]
  · exact .inl (microSteps_flatten_paired i)
  · simpa [StandsAt, paired_head (microSteps_flatten_paired i)] using h.accept w

theorem NonePending.beforeAccess {s : State} (rest : List HostOp) (h : NonePending s) :
    NonePending (beforeAccess { s with hostq := rest }) :=
  NonePending.of_eq (NonePending.interleave (s := { s with hostq := [] }) (h.of_eq rfl rfl rfl rfl)) rfl rfl rfl rfl

/-- Settles O59: along a command every action leaves the state the next one needs, and outside commands no blocking
waveform is out. -/
theorem stepKeepsTimingInv : Obligations.StepKeepsTimingInv := by
  intro s t hc h hs
  have hnone : s.busy = false → NonePending s := fun hb => (timingInv_iff_nonePending hb).1 h
  have hout : t.busy = false → NonePending t → TimingInv t := fun hb => (timingInv_iff_nonePending hb).2
  cases step_next hs with
  | resumed hb hi hx => exact h.resume hc hb hi hx
  | @accepted w rest i _ hb hf hq hd hw hx =>
    exact NonePending.timingInv_accepted (s := { s with hostq := rest }) ((hnone hb).of_eq rfl rfl rfl rfl) hd hx
  | idle hb hq => exact hout hb (hnone hb).interleave
  | ignored hb => exact hout hb ((hnone hb).beforeAccess _)
  | stored hb hi => exact hout hb (((hnone hb).beforeAccess _).of_eq rfl rfl rfl rfl)
  | read hb => exact hout hb (((hnone hb).beforeAccess _).of_eq rfl rfl rfl rfl)
  | reset hb => exact hout rfl (by simp [NonePending, State.afterReset])

end Sys2Proof.Machine

namespace Sys2Proof.Machine

/-! ### TPG's steps (41_timing_pulse.md R100, R101) -/

theorem segEvents_eq (g : Nat) (level : Level) (ticks : Nat) :
    segEvents g level ticks = if 0 < ticks then [.tpSeg g level ticks] else [] := by
  obtain rfl | h := Nat.eq_zero_or_pos ticks
  · rfl
  · simp [segEvents, h, h.ne']

/-- Settles O22: TPG's step by the phase of the head and, in the queue, by whether it has a high part. -/
theorem tpgSteps : Obligations.TpgSteps := by
  intro d w rest hq
  refine ⟨fun hp hh => ?_, fun hp hh => ?_, fun hp => ?_, fun hp => ?_, fun level => ?_⟩
  · simp [tpgPlay, hq, hp, hh.ne']
  · simp [tpgPlay, hq, hp, hh, segEvents_eq]
  · simp [tpgPlay, hq, hp, segEvents_eq]
  · simp [tpgPlay, hq, hp]
  · simp [tpgFail, hq]

/-! ### PULSE from its start (41_timing_pulse.md R92 to R99, R102) -/

/-- From its start PULSE is one call of `pulse`, then the normal exit (R102). -/
theorem exec_pulse_atStart {s : State} (h0 : s.atStart) (high low : Operand) (blk : Bool) :
    exec (.pulse high low blk) s = .next (runSteps [pulseActs high.toNat low.toNat blk] s) := exec_atStart h0

/-- The first action of `pulse`, blocking or not, fails with the acquisition (R93). -/
theorem runActs_pulse_acquireFailed {s : State} (h : s.tch = .absent) (hok : nextAcq s = false) (high low : Nat)
    (blk : Bool) : runActs (pulseActs high low blk) s = .error .channelUnavailable (acquireFailed s) := by
  cases blk <;> simp [pulseActs, runActs, doAct, beginPulse_failed h hok]

/-- The error exit leaves an empty queue and the latch alone. -/
theorem raise_quiet {s : State} (c : Cause) (h : s.pq = []) : (raise c s).pq = [] ∧ (raise c s).tpr = s.tpr :=
  interleave_quiet h

/-- The normal exit leaves an empty queue and the latch alone. -/
theorem returnOk_quiet {s : State} (h : s.pq = []) : (returnOk s).pq = [] ∧ (returnOk s).tpr = s.tpr :=
  interleave_quiet h

/-- Settles O24: the failed acquisition errs before anything is issued, and a failed waveform lifts the wait with its
error. -/
theorem pulseFails : Obligations.PulseFails := by
  constructor
  · intro s high low blk h0 ht hok
    refine ⟨raise .channelUnavailable (acquireFailed s), ?_, ⟨rfl, rfl⟩, by simpa using ht, by simp,
      (agentsOnly_acquireFailed s).trans (agentsOnly_raise _ _), by simp⟩
    rw [exec_pulse_atStart h0]
    simp [runSteps, h0.2, runActs_pulse_acquireFailed ht hok]
  · rintro s high low h0 hc htpr ⟨hprompt, moves, hmoves, hfails⟩
    obtain ⟨u, hu, htch, hutpr, hupq, hgen, htrace, hcfg, hfsm⟩ :=
      Ready.pulse_fails (high := high.toNat) (low := low.toNat) hc (Nat.le_add_left 3 _) hprompt.ready (by simp [htpr]) hmoves hfails le_rfl
    obtain ⟨hpq, hlatch⟩ := raise_quiet .transmit hupq
    refine ⟨raise .transmit u, ?_, ⟨rfl, rfl⟩, htch, hgen, hpq, hlatch.trans hutpr, hfsm, hcfg, by simp [htrace]⟩
    rw [exec_pulse_atStart h0]
    simp [runSteps, h0.2, hu]

/-- Settles O25: what an issue queues, and the non-blocking PULSE, which ends in its first step. -/
theorem nonBlockingPulseForfeits : Obligations.NonBlockingPulseForfeits :=
  ⟨fun g high low blk s => ⟨issueWave_pq g high low blk s, rfl, rfl, rfl, seqTrace_issueWave g high low blk s⟩,
    fun _ high low h0 hc => exec_pulse_nonBlocking h0 hc high low⟩

/-- Settles O26: on prompt hardware the wait is lifted within the step, by success. -/
theorem blockingPulseCompletes : Obligations.BlockingPulseCompletes := by
  intro s high low h0 hc htpr hprompt
  have hlen : (acquireEvents s).length ≤ 1 := by cases ht : s.tch <;> simp [acquireEvents, ht]
  obtain ⟨u, hu, htch, hutpr, hupq, -, hgen, htrace, -⟩ :=
    Ready.pulse (high := high.toNat) (low := low.toNat) (k := 0) hc (Nat.le_add_left 3 _)
      (hprompt.ready.mono (by omega)) (by simp [htpr])
  obtain ⟨hpq, hlatch⟩ := returnOk_quiet (s := nextStep u) hupq
  refine ⟨returnOk (nextStep u), ?_, ⟨rfl, rfl⟩, htch, hgen, hpq, hlatch.trans hutpr, by simp [htrace]⟩
  rw [exec_pulse_atStart h0]
  simp [runSteps, h0.2, hu]

/-! ### What a lifted wait does (41_timing_pulse.md R98, R99) -/

/-- Where a command waits for a pulse, its meaning is the run of what is left, the wait first. -/
theorem exec_awaitPulse {i : Instr} {s : State} (hat : actAt i s = some .awaitPulse) :
    exec i s = .next (runCommand (microSteps i) s) := by
  refine exec_next_iff.2 ⟨?_, rfl⟩
  rintro ⟨d, l, rfl⟩
  exact absurd (actAt_mem hat) (awaitPulse_notMem_outputRow d l)

theorem awaitPulse_ended {s : State} (h : (interleave s).tpr = .ended) :
    awaitPulse s = .done (reclaim (interleave s)) := by
  simp [awaitPulse, h]

theorem awaitPulse_failed {s : State} (h : (interleave s).tpr = .failed) :
    awaitPulse s = .error .transmit (dropChannel (interleave s)) := by
  simp [awaitPulse, h]

/-- A failed waveform ends the command that waits for it. -/
theorem exec_awaitPulse_failed {i : Instr} {s : State} (hat : actAt i s = some .awaitPulse)
    (h : (interleave s).tpr = .failed) : exec i s = .next (raise .transmit (dropChannel (interleave s))) := by
  obtain ⟨m, ms, as, hsteps, hacts⟩ := actAt_drop hat
  rw [exec_awaitPulse hat, runCommand, hsteps]
  simp [runSteps, hacts, runActs, doAct, awaitPulse_failed h]

/-- A waveform that ends lifts the wait: the command goes on behind it. -/
theorem exec_awaitPulse_ended {i : Instr} {s : State} {m : MicroStep} {ms : List MicroStep} {as : List Act}
    (hat : actAt i s = some .awaitPulse) (h : (interleave s).tpr = .ended) (hsteps : (microSteps i).drop s.step = m :: ms)
    (hacts : m.drop s.act = .awaitPulse :: as) :
    exec i s = .next (runSteps (m :: ms) (nextAct (reclaim (interleave s)))) ∧
      m.drop (nextAct (reclaim (interleave s))).act = as := by
  have hrest : m.drop (s.act + 1) = as := by
    rw [← List.drop_drop, hacts, List.drop_one, List.tail_cons]
  refine ⟨?_, hrest⟩
  rw [exec_awaitPulse hat, runCommand, hsteps]
  simp [runSteps, hacts, hrest, runActs, doAct, awaitPulse_ended h]

/-- At the end of a micro-step the next one begins. -/
theorem runSteps_microStep_done {m : MicroStep} {ms : List MicroStep} {s : State} (h : m.drop s.act = []) :
    runSteps (m :: ms) s = runSteps ms (nextStep s) := by
  simp [runSteps, h, runActs]

/-- PULSE's one wait is its last action (R102). -/
theorem actAt_pulse_awaitPulse {high low : Operand} {s : State} (h : actAt (.pulse high low true) s = some .awaitPulse) :
    s.step = 0 ∧ s.act = 1 := by
  unfold actAt at h
  match hs : s.step, ha : s.act with
  | 0, 0 => simp [hs, ha, microSteps, pulseSteps, pulseActs] at h
  | 0, 1 => exact ⟨rfl, rfl⟩
  | 0, n + 2 => simp [hs, ha, microSteps, pulseSteps, pulseActs] at h
  | n + 1, _ => simp [hs, microSteps, pulseSteps] at h

/-- What FRAME_START and FRAME_END write to FSM after their last pulse (43_frame_scan.md R120, R124). -/
def frameFsm (i : Instr) : Fsm := if i = .frameStart then .frameActive else .idle

theorem frame_waits {i : Instr} (hi : i = .frameStart ∨ i = .frameEnd) :
    (microSteps i).length = 4 ∧ (∀ m ∈ microSteps i, m.length < 6) ∧
      ∀ p < 4, ∀ n < 6, ((microSteps i)[p]?).bind (·[n]?) = some .awaitPulse →
        ((microSteps i)[p]?).map (·.drop n) = some (if p < 3 then [.awaitPulse] else [.awaitPulse, .fsm (frameFsm i)]) := by
  obtain rfl | rfl := hi <;> decide

/-- A pulse of FRAME_START or FRAME_END is the end of its micro-step, but for the write of FSM in the last one. -/
theorem actAt_frame_awaitPulse {i : Instr} {s : State} (hi : i = .frameStart ∨ i = .frameEnd)
    (h : actAt i s = some .awaitPulse) : ∃ m ms, (microSteps i).drop s.step = m :: ms ∧
      (s.step < 3 ∧ m.drop s.act = [.awaitPulse] ∨
        s.step = 3 ∧ ms = [] ∧ m.drop s.act = [.awaitPulse, .fsm (frameFsm i)]) := by
  obtain ⟨hlen, hshort, hwait⟩ := frame_waits hi
  obtain ⟨m, hm, ha⟩ := Option.bind_eq_some_iff.1 h
  obtain ⟨hstep, hget⟩ := List.getElem?_eq_some_iff.1 hm
  have hact : s.act < m.length := (List.getElem?_eq_some_iff.1 ha).1
  have hacts := hwait s.step (hlen ▸ hstep) s.act (hact.trans (hshort m (List.mem_of_getElem? hm))) h
  rw [hm, Option.map_some, Option.some.injEq] at hacts
  refine ⟨m, (microSteps i).drop (s.step + 1), by rw [List.drop_eq_getElem_cons hstep, hget], ?_⟩
  obtain hlt | hlast : s.step < 3 ∨ s.step = 3 := by omega
  · exact .inl ⟨hlt, by simpa [hlt] using hacts⟩
  · exact .inr ⟨hlast, List.drop_eq_nil_of_le (by omega), by simpa [hlast] using hacts⟩

/-- Settles O28: the wait that a result lifts is PULSE's last action, and the end of its micro-step in FRAME_START and
FRAME_END; a failure ends any command there. -/
theorem waitingPulseEnds : Obligations.WaitingPulseEnds := by
  refine ⟨fun s high low hat h => ?_, fun i s hi hat h => ?_, fun i s hat h => ?_⟩
  · obtain ⟨hstep, hact⟩ := actAt_pulse_awaitPulse hat
    obtain ⟨hx, hdone⟩ := exec_awaitPulse_ended (ms := []) (as := []) hat h (by rw [hstep]; rfl) (by rw [hact]; rfl)
    refine ⟨_, hx.trans (congrArg _ (runSteps_microStep_done hdone)), ?_⟩
    exact ⟨⟨rfl, rfl⟩, by simp [runSteps], by simp [runSteps], by simp [runSteps]⟩
  · obtain ⟨m, ms, hsteps, hwait⟩ := actAt_frame_awaitPulse hi hat
    constructor
    · intro hstep
      obtain ⟨-, hacts⟩ := hwait.resolve_right (by omega)
      obtain ⟨hx, hdone⟩ := exec_awaitPulse_ended hat h hsteps hacts
      have hnext : (microSteps i).drop (s.step + 1) = ms := by
        rw [← List.drop_drop, hsteps, List.drop_one, List.tail_cons]
      rw [hx, runSteps_microStep_done hdone, ← hnext]
      obtain rfl | rfl := hi <;> rfl
    · intro hstep
      obtain ⟨-, rfl, hacts⟩ := hwait.resolve_left (by omega)
      obtain ⟨hx, hfsm⟩ := exec_awaitPulse_ended hat h hsteps hacts
      refine ⟨returnOk (nextStep (nextAct (setFsm (frameFsm i) (nextAct (reclaim (interleave s)))))), ?_,
        ⟨rfl, rfl⟩, by simp [frameFsm], by simp, by simp, by simp [SameConfig], by simp [SameTransfer, tbufRead], by simp⟩
      rw [hx]
      simp only [runSteps, hfsm, runActs, doAct]
  · refine ⟨_, exec_awaitPulse_failed hat h, ⟨rfl, rfl⟩, by simp, by simp, by simp, ?_, ?_, by simp⟩
    · simp [SameConfig]
    · simp [SameTransfer, tbufRead]

/-! ### Every channel acquired is fresh (41_timing_pulse.md R94, R103) -/

/-- From `s` to `t` SEQ's events were added, and every number acquired among them is one that `TCH_GEN` passed. -/
def AcquiresFresh (s t : State) : Prop :=
  s.tchGen ≤ t.tchGen ∧ ∃ es, seqTrace t = seqTrace s ++ es ∧ ∀ g, .tpAcquire g ∈ es → s.tchGen < g ∧ g ≤ t.tchGen

theorem AcquiresFresh.trans {s t u : State} (h : AcquiresFresh s t) (k : AcquiresFresh t u) : AcquiresFresh s u := by
  obtain ⟨hle, es, hes, hfresh⟩ := h
  obtain ⟨kle, fs, kfs, kfresh⟩ := k
  refine ⟨hle.trans kle, es ++ fs, by rw [kfs, hes, List.append_assoc], fun g hg => ?_⟩
  obtain hg | hg := List.mem_append.1 hg
  · exact ⟨(hfresh g hg).1, (hfresh g hg).2.trans kle⟩
  · exact ⟨hle.trans_lt (kfresh g hg).1, (kfresh g hg).2⟩

/-- Events that acquire nothing, `TCH_GEN` as it was. -/
theorem AcquiresFresh.of_noAcquire {s t : State} (es : List Event) (hes : ∀ g, .tpAcquire g ∉ es)
    (ht : seqTrace t = seqTrace s ++ es) (hgen : t.tchGen = s.tchGen) : AcquiresFresh s t :=
  ⟨hgen.ge, es, ht, fun g hg => absurd hg (hes g)⟩

/-- An acquisition counts `TCH_GEN` up to the number it takes (R94). -/
theorem acquiresFresh_acquired (s : State) : AcquiresFresh s (acquired s) :=
  ⟨Nat.le_succ _, [.tpAcquire (s.tchGen + 1)], seqTrace_acquired s, by simp⟩

theorem acquiresFresh_issueWave (g high low : Nat) (blk : Bool) (s : State) :
    AcquiresFresh s (issueWave g high low blk s) :=
  .of_noAcquire [.tpIssue g high low blk] (by simp) (by simp) (by simp)

theorem doAct_acquiresFresh (a : Act) (s : State) : AcquiresFresh s (doAct a s).state := by
  have quiet : ∀ {t : State}, seqTrace t = seqTrace s → t.tchGen = s.tchGen → AcquiresFresh s t := fun ht hgen =>
    .of_noAcquire [] (by simp) (by simp [ht]) hgen
  cases a with
  | set f b => exact quiet (by simp [doAct]) (by simp [doAct])
  | commit => exact .of_noAcquire (commitEvents s.cfg) (by simp [commitEvents]) (by simp [doAct]) (by simp [doAct])
  | delay d => exact .of_noAcquire [.delay (delayCycles s.params d)] (by simp) (by simp [doAct]) (by simp [doAct])
  | beginPulse high low blk =>
    simp only [doAct]
    cases ht : s.tch with
    | held g => rw [beginPulse_held ht]; exact acquiresFresh_issueWave g high low blk s
    | absent =>
      cases hok : nextAcq s with
      | true =>
        rw [beginPulse_acquired ht hok]
        exact (acquiresFresh_acquired s).trans (acquiresFresh_issueWave _ high low blk _)
      | false =>
        rw [beginPulse_failed ht hok]
        exact .of_noAcquire [.tpAcquireFail] (by simp) (by simp) (by simp)
  | awaitPulse => simp only [doAct, awaitPulse]; split <;> exact quiet (by simp) (by simp)
  | checkSlot => simp only [doAct, checkSlot]; split <;> exact quiet rfl rfl
  | copyRow len => exact quiet (by simp [doAct]) (by simp [doAct])
  | issueTransfer =>
    exact .of_noAcquire [.xfIssue (rowData (interleave s))] (by simp) (by simp [doAct]) (by simp [doAct])
  | collectTransfer => simp only [doAct, collectTransfer]; split <;> exact quiet (by simp) (by simp)
  | fsm f => exact quiet (by simp [doAct]) (by simp [doAct])

theorem exec_acquiresFresh {i : Instr} {s t : State} (hx : exec i s = .next t) : AcquiresFresh s t :=
  exec_induct (P := AcquiresFresh s) hx (fun a _ u h => h.trans (doAct_acquiresFresh a u))
    (fun _ h => h.trans (.of_noAcquire [] (by simp) (by simp) (by simp)))
    (fun _ h => h.trans (.of_noAcquire [] (by simp) (by simp) (by simp)))
    (fun c _ h => h.trans (.of_noAcquire [.ret c] (by simp) (by simp) (by simp)))
    (fun _ h => h.trans (.of_noAcquire [.ret .ok] (by simp) (by simp) (by simp)))
    (.of_noAcquire [] (by simp) (by simp) rfl)

/-- Settles O29: an acquisition takes the number that it counts `TCH_GEN` up to, and nothing else acquires. -/
theorem acquiredInstancesAreFresh : Obligations.AcquiredInstancesAreFresh := by
  intro i s t hx
  obtain ⟨hle, es, hes, hfresh⟩ := exec_acquiresFresh hx
  refine ⟨hle, fun g hg => hfresh g ?_⟩
  rwa [hes, List.drop_left] at hg

/-! ### The frame of PULSE and SKIP (41_timing_pulse.md R102, 43_frame_scan.md R122) -/

/-- The configuration, the transfer slot, the row buffer and FSM are unchanged, and with no transfer in flight none
begins and the bus lines keep their level. -/
structure OnlyPulses (s t : State) : Prop where
  config : SameConfig s t
  tr : t.tr = s.tr
  tbuf : t.tbuf = s.tbuf
  fsm : t.fsm = s.fsm
  noTransfer : s.xf = .none → t.xf = .none ∧ t.bus = s.bus

/-- An operation that touches none of these. -/
theorem OnlyPulses.of_eq {s t : State} (hc : SameConfig s t) (htr : t.tr = s.tr) (htbuf : t.tbuf = s.tbuf)
    (hfsm : t.fsm = s.fsm) (hxf : t.xf = s.xf) (hbus : t.bus = s.bus) : OnlyPulses s t :=
  ⟨hc, htr, htbuf, hfsm, fun h => ⟨hxf.trans h, hbus⟩⟩

theorem OnlyPulses.trans {s t u : State} (h : OnlyPulses s t) (k : OnlyPulses t u) : OnlyPulses s u := by
  obtain ⟨⟨hcfg, hpanel, hdata, hclk, hstr⟩, htr, htbuf, hfsm, hxf⟩ := h
  obtain ⟨⟨kcfg, kpanel, kdata, kclk, kstr⟩, ktr, ktbuf, kfsm, kxf⟩ := k
  refine ⟨⟨kcfg.trans hcfg, kpanel.trans hpanel, kdata.trans hdata, kclk.trans hclk, kstr.trans hstr⟩, ktr.trans htr,
    ktbuf.trans htbuf, kfsm.trans hfsm, fun h => ?_⟩
  obtain ⟨hnone, hbus⟩ := hxf h
  obtain ⟨knone, kbus⟩ := kxf hnone
  exact ⟨knone, kbus.trans hbus⟩

theorem onlyPulses_interleave (s : State) : OnlyPulses s (interleave s) :=
  ⟨by simp [SameConfig], by simp, by simp, by simp, interleave_xf_none s⟩

theorem onlyPulses_seqEmit (e : Event) (s : State) : OnlyPulses s (seqEmit e s) :=
  (onlyPulses_interleave s).trans (.of_eq (by simp [SameConfig]) rfl rfl rfl rfl rfl)

theorem onlyPulses_issueWave (g high low : Nat) (blk : Bool) (s : State) : OnlyPulses s (issueWave g high low blk s) :=
  (onlyPulses_interleave s).trans (.of_eq (by simp [SameConfig]) rfl rfl rfl rfl rfl)

theorem onlyPulses_acquired (s : State) : OnlyPulses s (acquired s) := by
  unfold acquired
  refine OnlyPulses.trans ?_ (onlyPulses_seqEmit _ _)
  exact .of_eq (by simp [SameConfig]) rfl rfl rfl rfl rfl

theorem onlyPulses_acquireFailed (s : State) : OnlyPulses s (acquireFailed s) := by
  unfold acquireFailed
  refine OnlyPulses.trans ?_ (onlyPulses_seqEmit _ _)
  exact .of_eq (by simp [SameConfig]) rfl rfl rfl rfl rfl

theorem onlyPulses_beginPulse (high low : Nat) (blk : Bool) (s : State) :
    OnlyPulses s (beginPulse high low blk s).state := by
  cases ht : s.tch with
  | held g => rw [beginPulse_held ht]; exact onlyPulses_issueWave g high low blk s
  | absent =>
    cases hok : nextAcq s with
    | true =>
      rw [beginPulse_acquired ht hok]
      exact (onlyPulses_acquired s).trans (onlyPulses_issueWave _ high low blk _)
    | false => rw [beginPulse_failed ht hok]; exact onlyPulses_acquireFailed s

theorem onlyPulses_awaitPulse (s : State) : OnlyPulses s (awaitPulse s).state := by
  refine (onlyPulses_interleave s).trans ?_
  unfold awaitPulse
  split <;> exact .of_eq (by simp [SameConfig]) rfl rfl rfl rfl rfl

/-- PULSE and SKIP are made of the two halves of `pulse` (41_timing_pulse.md R102, 43_frame_scan.md R122). -/
theorem mem_pulse_acts {i : Instr} {a : Act} (hi : (∃ h l b, i = .pulse h l b) ∨ i = .skip)
    (ha : a ∈ (microSteps i).flatten) : (∃ high low blk, a = .beginPulse high low blk) ∨ a = .awaitPulse := by
  have hpulse : ∀ high low blk, a ∈ pulseActs high low blk →
      (∃ high low blk, a = .beginPulse high low blk) ∨ a = .awaitPulse := by
    intro high low blk h
    cases blk <;> simp only [pulseActs, if_true, Bool.false_eq_true, if_false, List.mem_cons, List.not_mem_nil,
      or_false] at h
    · exact .inl ⟨_, _, _, h⟩
    · exact h.imp_left fun e => ⟨_, _, _, e⟩
  obtain ⟨h, l, b, rfl⟩ | rfl := hi
  · exact hpulse (zext h) (zext l) b (by simpa [microSteps, pulseSteps] using ha)
  · exact hpulse 45 5 false (by simpa [microSteps, skipSteps] using ha)

theorem exec_onlyPulses {i : Instr} {s t : State} (hi : (∃ h l b, i = .pulse h l b) ∨ i = .skip)
    (hx : exec i s = .next t) : OnlyPulses s t := by
  refine exec_induct (P := OnlyPulses s) hx (fun a ha u h => h.trans ?_)
    (fun _ h => h.trans (.of_eq (by simp [SameConfig]) rfl rfl rfl rfl rfl))
    (fun _ h => h.trans (.of_eq (by simp [SameConfig]) rfl rfl rfl rfl rfl))
    (fun c u h => (h.trans (onlyPulses_seqEmit (.ret c) u)).trans (.of_eq (by simp [SameConfig]) rfl rfl rfl rfl rfl))
    (fun u h => (h.trans (onlyPulses_seqEmit (.ret .ok) u)).trans (.of_eq (by simp [SameConfig]) rfl rfl rfl rfl rfl))
    (.of_eq (by simp [SameConfig]) rfl rfl rfl rfl rfl)
  obtain ⟨high, low, blk, rfl⟩ | rfl := mem_pulse_acts hi ha
  · exact onlyPulses_beginPulse high low blk u
  · exact onlyPulses_awaitPulse u

/-- Settles O30: the two halves of `pulse` and the exits touch the channel, the queue and the trace alone. -/
theorem pulseSkipFrame : Obligations.PulseSkipFrame := by
  intro i s t hi hx
  obtain ⟨hconfig, htr, htbuf, hfsm, hxf⟩ := exec_onlyPulses hi hx
  obtain ⟨hp, hop, hblk, ha, hb, hf, hr⟩ := exec_fixed hx
  exact ⟨⟨hp, hop, hblk, ha, hb, hf, fun n => by rw [hr]⟩, hconfig, ⟨htr, fun n => by rw [tbufRead, tbufRead, htbuf]⟩,
    hfsm, hxf⟩

end Sys2Proof.Machine

namespace Sys2Proof.Machine

/-! ### An unlifted wait (41_timing_pulse.md R97, 45_command_classes.md R146) -/

/-- Command `i` stands at a wait that the other agents' moves before the next look do not lift. -/
def Unlifted (i : Instr) (s : State) : Prop :=
  (actAt i s = some .awaitPulse ∧ (interleave s).tpr = .none) ∨
    (actAt i s = some .collectTransfer ∧ ∀ ok, (interleave s).xf ≠ .ended ok)

/-- The assertion at the put speaks only when the transfer is over (44_row_output.md R132). -/
theorem putsIntoHeld_of_not_ended {s : State} (h : ∀ ok, (interleave s).xf ≠ .ended ok) : putsIntoHeld s = false := by
  unfold putsIntoHeld
  cases hx : (interleave s).xf with
  | ended ok => exact absurd hx (h ok)
  | _ => simp

theorem collectTransfer_hold {s : State} (h : ∀ ok, (interleave s).xf ≠ .ended ok) :
    collectTransfer s = .hold (interleave s) := by
  unfold collectTransfer
  cases hx : (interleave s).xf with
  | ended ok => exact absurd hx (h ok)
  | _ => rfl

theorem exec_collectTransfer_hold {i : Instr} {s : State} (hat : actAt i s = some .collectTransfer)
    (h : ∀ ok, (interleave s).xf ≠ .ended ok) : exec i s = .next (interleave s) := by
  obtain ⟨m, ms, as, hsteps, hacts⟩ := actAt_drop hat
  rw [exec_eq_next (putsIntoHeld_of_not_ended h), runCommand, hsteps]
  simp [runSteps, hacts, runActs, doAct, collectTransfer_hold h]

theorem Unlifted.exec {i : Instr} {s : State} (h : Unlifted i s) : exec i s = .next (interleave s) := by
  obtain ⟨hat, htpr⟩ | ⟨hat, hxf⟩ := h
  · exact exec_awaitPulse_hold hat htpr
  · exact exec_collectTransfer_hold hat hxf

/-! ### A command that is not held goes on -/

/-- How many actions of the command are left. -/
def leftOf (i : Instr) (s : State) : Nat := (actsLeft ((microSteps i).drop s.step) s.act).length

/-- An OUTPUT_ROW whose transfer is over ends (44_row_output.md R138). -/
theorem exec_collectTransfer_ended {i : Instr} {s t : State} {ok : Bool} (hat : actAt i s = some .collectTransfer)
    (h : (interleave s).xf = .ended ok) (hx : exec i s = .next t) : t.busy = false := by
  obtain ⟨⟨d, l, rfl⟩, hstep, hact⟩ := actAt_collectTransfer_iff.1 hat
  have e : t = runSteps [[.collectTransfer]] s := by
    rw [exec_next hx, runCommand, hstep]
    rfl
  rw [e]
  cases ok <;> simp [runSteps, hact, runActs, doAct, collectTransfer, h]

/-- Behind a wait for a pulse that is lifted, fewer actions are left. -/
theorem leftOf_lt_of_ended {i : Instr} {s t : State} (hat : actAt i s = some .awaitPulse)
    (h : (interleave s).tpr = .ended) (hx : exec i s = .next t) (hbusy : t.busy = true) : leftOf i t < leftOf i s := by
  obtain ⟨m, ms, as, hsteps, hacts⟩ := actAt_drop hat
  obtain ⟨hgo, hrest⟩ := exec_awaitPulse_ended hat h hsteps hacts
  cases hgo.symm.trans hx
  have hleft : leftOf i s = as.length + ms.flatten.length + 1 := by
    simp only [leftOf, hsteps, actsLeft, hacts, List.length_append, List.length_cons]
    omega
  obtain ⟨hend, -⟩ | ⟨-, k, hk, hle⟩ :=
    runSteps_outcome (P := fun bs _ => bs.length ≤ as.length + ms.flatten.length) (Q := fun _ => True)
      (fun _ _ _ _ h _ => (Nat.le_succ _).trans h) (fun _ _ _ _ h _ => h) (fun _ _ h => h) (fun _ _ => trivial)
      (fun _ _ _ _ _ _ _ => trivial) (steps := m :: ms) (s := nextAct (reclaim (interleave s)))
      (by rw [actsLeft, hrest, List.length_append])
  · cases hend.symm.trans hbusy
  · have hplace : (microSteps i).drop (runSteps (m :: ms) (nextAct (reclaim (interleave s)))).step =
        (m :: ms).drop k := by
      rw [hk, ← hsteps, List.drop_drop]
      rfl
    rw [leftOf, hplace, hleft]
    exact Nat.lt_succ_of_le hle

/-- OUTPUT_ROW at its put ends, or is held. -/
theorem unlifted_of_collectTransfer {i : Instr} {s t : State} (hat : actAt i s = some .collectTransfer)
    (hx : exec i s = .next t) (hbusy : t.busy = true) : Unlifted i s :=
  .inr ⟨hat, fun _ h => nomatch (exec_collectTransfer_ended hat h hx).symm.trans hbusy⟩

/-- A command in progress that a step does not end is held where it stands, or has fewer actions left. -/
theorem unlifted_or_leftOf_lt {i : Instr} {s t : State}
    (hat : actAt i s = some .awaitPulse ∨ actAt i s = some .collectTransfer) (hx : exec i s = .next t)
    (hbusy : t.busy = true) : Unlifted i s ∨ leftOf i t < leftOf i s := by
  obtain hat | hat := hat
  · cases h : (interleave s).tpr with
    | none => exact .inl (.inl ⟨hat, h⟩)
    | ended => exact .inr (leftOf_lt_of_ended hat h hx hbusy)
    | failed =>
      cases (exec_awaitPulse_failed hat h).symm.trans hx
      cases hbusy
  · exact .inl (unlifted_of_collectTransfer hat hx hbusy)

/-! ### The other agents' work runs out -/

/-- What every move leaves alone or brings down, a run of moves leaves alone or brings down. -/
theorem runMoves_eq_or_lt {α : Type} {f : Devices → α} {work : α → Nat} {st rs : Word}
    (h : ∀ m d, f (moveDevices st rs m d) = f d ∨ work (f (moveDevices st rs m d)) < work (f d)) (ms : List Move)
    (d : Devices) : f (runMoves st rs ms d) = f d ∨ work (f (runMoves st rs ms d)) < work (f d) := by
  refine runMoves_induct (P := fun e => f e = f d ∨ work (f e) < work (f d)) (fun m e he => ?_) ms d (.inl rfl)
  obtain hm | hm := h m e
  · rwa [hm]
  · obtain he | he := he
    · exact .inr (he ▸ hm)
    · exact .inr (hm.trans he)

theorem Wave.work_pos (w : Wave) : 0 < w.work := by
  unfold Wave.work
  split
  · split <;> omega
  · omega
  · omega

theorem tpgWork_cons (w : Wave) (rest : List Wave) : tpgWork (w :: rest) = w.work + tpgWork rest := by simp [tpgWork]

/-- A move leaves the queue alone, or less of it is left to play: a step of TPG, failures included (R100, R101). -/
theorem moveDevices_pq_or_work (st rs : Word) (m : Move) (d : Devices) :
    (moveDevices st rs m d).pq = d.pq ∨ tpgWork (moveDevices st rs m d).pq < tpgWork d.pq := by
  cases hq : d.pq with
  | nil =>
    left
    obtain ⟨h, -⟩ | ⟨w, rest, p, h, -⟩ | ⟨w, rest, r, h, -⟩ := moveDevices_pq st rs m d
    · exact h.trans hq
    · cases hq.symm.trans h
    · cases hq.symm.trans h
  | cons w rest =>
    cases m with
    | tpg =>
      right
      have hpos := w.work_pos
      rw [moveDevices_work st rs .tpg d rfl, hq, tpgWork_cons]
      simp only [Move.isTpg, if_true]
      omega
    | tpgFail level =>
      right
      have hpos := w.work_pos
      simp only [moveDevices, tpgFail, hq, tpgWork_cons]
      omega
    | xfr v => left; simp only [moveDevices, xfrGo]; split <;> (try split) <;> exact hq
    | xfrFail v => left; simp only [moveDevices, xfrFail]; split <;> exact hq
    | cycle => exact .inl hq
    | poll => left; simp only [moveDevices, hostPoll]; split <;> exact hq

/-- A move leaves the transfer alone, or less of it is left to send: a step of XFR, failures included (44_row_output.md
R135, R136). -/
theorem moveDevices_xf_or_work (st rs : Word) (m : Move) (d : Devices) :
    (moveDevices st rs m d).xf = d.xf ∨ xfrWork (moveDevices st rs m d).xf < xfrWork d.xf := by
  cases m with
  | tpg => left; simp only [moveDevices, tpgPlay]; split <;> (try split) <;> (try split) <;> rfl
  | tpgFail level => left; simp only [moveDevices, tpgFail]; split <;> rfl
  | xfr v =>
    simp only [moveDevices, xfrGo]
    split
    · next data sent hx =>
      right
      split
      · next b hb =>
        have hlt : sent < data.length := (List.getElem?_eq_some_iff.1 hb).1
        simp only [hx, xfrWork]
        omega
      · simp [hx, xfrWork]
    · exact .inl rfl
    · exact .inl rfl
  | xfrFail v =>
    simp only [moveDevices, xfrFail]
    split
    · next data sent hx => right; simp [hx, xfrWork]
    · exact .inl rfl
    · exact .inl rfl
  | cycle => exact .inl rfl
  | poll => left; simp only [moveDevices, hostPoll]; split <;> rfl

theorem interleave_pq_or_work (s : State) :
    (interleave s).pq = s.pq ∨ tpgWork (interleave s).pq < tpgWork s.pq :=
  runMoves_eq_or_lt (f := Devices.pq) (moveDevices_pq_or_work _ _) _ s.devices

theorem interleave_xf_or_work (s : State) : (interleave s).xf = s.xf ∨ xfrWork (interleave s).xf < xfrWork s.xf :=
  runMoves_eq_or_lt (f := Devices.xf) (moveDevices_xf_or_work _ _) _ s.devices

/-! ### A transfer that is waited for is under way or over (44_row_output.md R134) -/

/-- OUTPUT_ROW waits only for a transfer it has issued. -/
def TransferOut (s : State) : Prop := s.waitsForTransfer = true → s.xf ≠ .none

theorem moveDevices_xf_ne_none (st rs : Word) (m : Move) (d : Devices) (h : d.xf ≠ .none) :
    (moveDevices st rs m d).xf ≠ .none := by
  cases m with
  | tpg => simp only [moveDevices, tpgPlay]; split <;> (try split) <;> (try split) <;> exact h
  | tpgFail level => simp only [moveDevices, tpgFail]; split <;> exact h
  | xfr v =>
    simp only [moveDevices, xfrGo]
    split
    · split <;> simp
    · exact h
    · exact h
  | xfrFail v =>
    simp only [moveDevices, xfrFail]
    split
    · simp
    · exact h
    · exact h
  | cycle => exact h
  | poll => simp only [moveDevices, hostPoll]; split <;> exact h

/-- Only SEQ takes a transfer away (44_row_output.md R132). -/
theorem interleave_xf_ne_none {s : State} (h : s.xf ≠ .none) : (interleave s).xf ≠ .none :=
  runMoves_induct (P := fun d => d.xf ≠ .none) (fun m d hd => moveDevices_xf_ne_none _ _ m d hd) _ s.devices h

theorem waitsForTransfer_outputRow {s : State} (h : s.waitsForTransfer = true) :
    s.busy = true ∧ ∃ d l, s.current = some (.outputRow d l) ∧ actAt (.outputRow d l) s = some .collectTransfer := by
  obtain ⟨hb, i, hi, hat⟩ := waitsForTransfer_iff.1 h
  obtain ⟨⟨d, l, rfl⟩, -⟩ := actAt_collectTransfer_iff.1 hat
  exact ⟨hb, d, l, hi, hat⟩

/-- OUTPUT_ROW in progress under the control invariant waits for its transfer, with the slot taken. -/
theorem ControlInv.outputRow {d l : Operand} {s : State} (h : ControlInv s) (hb : s.busy = true)
    (hi : s.current = some (.outputRow d l)) : actAt (.outputRow d l) s = some .collectTransfer ∧ s.tr = .absent := by
  obtain ⟨j, a, hj, hat, rfl | ⟨rfl, htr⟩⟩ := h.stands hb <;> obtain rfl := Option.some.inj (hi.symm.trans hj)
  · exact absurd (actAt_mem hat) (awaitPulse_notMem_outputRow d l)
  · exact ⟨hat, htr⟩

theorem ArbiterInv.transferOut {s : State} (h : ArbiterInv s) (hc : ControlInv s) : TransferOut s := by
  intro hw
  obtain ⟨hb, d, l, hi, -⟩ := waitsForTransfer_outputRow hw
  obtain ⟨hfailed, habsent, -⟩ := h
  cases hf : s.initFail with
  | true => cases (hfailed hf).2.1.symm.trans hb
  | false =>
    obtain ⟨-, -, -, -, hxf⟩ := habsent hf (hc.outputRow hb hi).2
    exact hxf

/-- An accepted OUTPUT_ROW that waits has issued its transfer. -/
theorem outputRow_issues {d l : Operand} {s t : State} (h0 : s.atStart) (hx : exec (.outputRow d l) s = .next t)
    (hbusy : t.busy = true) : t.xf ≠ .none := by
  rw [exec_atStart h0, microSteps_outputRow] at hx
  cases hx
  obtain ⟨u, hu, e⟩ := runSteps_past (rowBeforeIssue_noWait d l) h0.2 hbusy
  have hissue : runSteps [[.issueTransfer], [.collectTransfer]] u =
      runSteps [[.collectTransfer]] (nextStep (nextAct (issueTransfer u))) := by
    simp [runSteps, hu, runActs, doAct]
  rw [e, hissue] at hbusy ⊢
  rw [runSteps_collectTransfer rfl hbusy]
  refine interleave_xf_ne_none ?_
  simp [issueTransfer]

/-- A step of a command in progress is the command's. -/
theorem step_busy {s t : State} (hs : step s = .next t) (hb : s.busy = true) :
    ∃ i, s.current = some i ∧ exec i s = .next t := by
  have hidle : ¬ s.busy = false := by simp [hb]
  cases step_next hs with
  | resumed _ hi hx => exact ⟨_, hi, hx⟩
  | _ => contradiction

theorem TransferOut.step {s t : State} (h : TransferOut s) (hc : ControlInv s) (hs : step s = .next t) :
    TransferOut t := by
  intro hw
  obtain ⟨hbusy, d, l, hi, hat⟩ := waitsForTransfer_outputRow hw
  have hidle : ∀ {u : State}, s.busy = false → u.busy = s.busy → u.busy = true → u.xf ≠ .none := fun h1 h2 h3 =>
    nomatch (h2.trans h1).symm.trans h3
  cases step_next hs with
  | resumed hb hj hx =>
    obtain rfl := Option.some.inj (((exec_fixed hx).current.trans hj).symm.trans hi)
    obtain ⟨hat, -⟩ := hc.outputRow hb hj
    have hxf : s.xf ≠ .none := h (waitsForTransfer_iff.2 ⟨hb, _, hj, hat⟩)
    cases (unlifted_of_collectTransfer hat hx hbusy).exec.symm.trans hx
    exact interleave_xf_ne_none hxf
  | @accepted w rest j _ hb hf hq hd hw hx =>
    have hj : t.current = some j := (exec_fixed hx).current.trans (accept_current hd)
    obtain rfl := Option.some.inj (hj.symm.trans hi)
    exact outputRow_issues ⟨accept_step w _, accept_act w _⟩ hx hbusy
  | idle hb hq => exact hidle hb rfl hbusy
  | ignored hb => exact hidle hb rfl hbusy
  | stored hb hi => exact hidle hb rfl hbusy
  | read hb => exact hidle hb rfl hbusy
  | reset hb => cases hbusy

/-! ### Runs that are never idle -/

/-- Where a natural number never rises, and at every moment something holds or the number falls, the something holds from
some moment on. -/
theorem eventually_of_fall {f : Nat → Nat} {R : Nat → Prop} {n : Nat}
    (h : ∀ k, n ≤ k → (R k ∧ f (k + 1) = f k) ∨ f (k + 1) < f k) : ∃ N, n ≤ N ∧ ∀ k, N ≤ k → R k := by
  obtain ⟨N, hN, hmin⟩ := exists_minimalFor_of_wellFoundedLT (fun k => n ≤ k) f ⟨n, le_rfl⟩
  have hle : ∀ k, N ≤ k → f k ≤ f N := fun k hk => by
    induction k, hk using Nat.le_induction with
    | base => exact le_rfl
    | succ k hk ih =>
      obtain ⟨-, he⟩ | hlt := h k (hN.trans hk)
      · exact he.le.trans ih
      · exact hlt.le.trans ih
  refine ⟨N, hN, fun k hk => ?_⟩
  obtain ⟨hR, -⟩ | hlt := h k (hN.trans hk)
  · exact hR
  · have hN' : f N ≤ f (k + 1) := hmin (hN.trans (hk.trans (Nat.le_succ k))) (hle _ (hk.trans (Nat.le_succ k)))
    have := hle k hk
    omega

/-- The three invariants that say what a command in progress waits for. -/
structure WaitInv (s : State) : Prop where
  control : ControlInv s
  timing : TimingInv s
  transfer : TransferOut s

theorem WaitInv.step {s t : State} (h : WaitInv s) (hs : step s = .next t) : WaitInv t :=
  ⟨stepKeepsControlInv s t h.control hs, stepKeepsTimingInv s t h.control h.timing hs, h.transfer.step h.control hs⟩

/-- Command `i` is in progress in every state of the run from moment `n` on. -/
def RunsFrom (i : Instr) (run : Nat → State) (n : Nat) : Prop :=
  ∀ k, n ≤ k → WaitInv (run k) ∧ (run k).busy = true ∧ (run k).current = some i ∧ exec i (run k) = .next (run (k + 1))

/-- A run that is never idle again is one command's. -/
theorem exists_runsFrom {run : Nat → State} {n : Nat} (hrun : IsRun run) (h0 : WaitInv (run 0))
    (hbusy : ∀ k, n ≤ k → (run k).busy = true) : ∃ i, RunsFrom i run n := by
  have hinv : ∀ k, WaitInv (run k) := fun k => by
    induction k with
    | zero => exact h0
    | succ k ih => exact ih.step (hrun k)
  obtain ⟨i, hi, -⟩ := step_busy (hrun n) (hbusy n le_rfl)
  have hcurrent : ∀ k, n ≤ k → (run k).current = some i := fun k hk => by
    induction k, hk using Nat.le_induction with
    | base => exact hi
    | succ k hk ih =>
      obtain ⟨j, hj, hx⟩ := step_busy (hrun k) (hbusy k hk)
      exact (exec_fixed hx).current.trans ih
  refine ⟨i, fun k hk => ⟨hinv k, hbusy k hk, hcurrent k hk, ?_⟩⟩
  obtain ⟨j, hj, hx⟩ := step_busy (hrun k) (hbusy k hk)
  rwa [Option.some.inj ((hcurrent k hk).symm.trans hj)]

/-- It is held at one wait from some moment on, since at every other step fewer actions are left. -/
theorem RunsFrom.eventually_unlifted {i : Instr} {run : Nat → State} {n : Nat} (h : RunsFrom i run n) :
    ∃ N, n ≤ N ∧ ∀ k, N ≤ k → Unlifted i (run k) := by
  refine eventually_of_fall (f := fun k => leftOf i (run k)) fun k hk => ?_
  obtain ⟨hinv, hb, hi, hx⟩ := h k hk
  obtain ⟨-, hb', -⟩ := h (k + 1) (hk.trans (Nat.le_succ k))
  obtain ⟨j, a, hj, hat, ha⟩ := hinv.control.stands hb
  obtain rfl : i = j := Option.some.inj (hi.symm.trans hj)
  have hwait : actAt i (run k) = some .awaitPulse ∨ actAt i (run k) = some .collectTransfer := by
    obtain rfl | ⟨rfl, -⟩ := ha
    · exact .inl hat
    · exact .inr hat
  refine (unlifted_or_leftOf_lt hwait hx hb').imp_left fun hheld => ⟨hheld, ?_⟩
  have e : run (k + 1) = interleave (run k) := Host.Outcome.next.inj (hx.symm.trans hheld.exec)
  rw [e]
  rfl

/-- While only the other agents step, what they work off stands still from some moment on. -/
theorem eventually_still {α : Type} {f : State → α} {work : α → Nat} {run : Nat → State} {n : Nat}
    (h : ∀ s, f (interleave s) = f s ∨ work (f (interleave s)) < work (f s))
    (hrun : ∀ k, n ≤ k → run (k + 1) = interleave (run k)) : ∃ N, n ≤ N ∧ ∀ k, N ≤ k → f (run (k + 1)) = f (run k) := by
  refine eventually_of_fall (f := fun k => work (f (run k))) fun k hk => ?_
  rw [hrun k hk]
  exact (h (run k)).imp_left fun e => ⟨e, by rw [e]⟩

theorem RunsFrom.mono {i : Instr} {run : Nat → State} {n N : Nat} (h : RunsFrom i run n) (hN : n ≤ N) :
    RunsFrom i run N := fun k hk => h k (hN.trans hk)

/-- With TPG fair no command waits for ever for a pulse: its waveform stays queued, and a queue that is played runs out. -/
theorem RunsFrom.not_awaitsPulse {i : Instr} {run : Nat → State} {n : Nat} (h : RunsFrom i run n) (hfair : FairTpg run)
    (hrun : ∀ k, n ≤ k → run (k + 1) = interleave (run k))
    (hheld : ∀ k, n ≤ k → actAt i (run k) = some .awaitPulse ∧ (run (k + 1)).tpr = .none) : False := by
  have hqueued : ∀ k, n + 1 ≤ k → (run k).pq ≠ [] := by
    intro k hk
    obtain ⟨k, rfl⟩ : ∃ j, k = j + 1 := ⟨k - 1, by omega⟩
    obtain ⟨hinv, hb, hi, -⟩ := h (k + 1) (by omega)
    have hpending : PulsePending (run (k + 1)) := by
      simpa [StandsAt, (hheld (k + 1) (by omega)).1] using hinv.timing.standsAt hb hi
    obtain ⟨-, ⟨-, ⟨-, ws, w, hq, -⟩ | ⟨hlatched, -⟩⟩, -⟩ := hpending
    · simp [hq]
    · exact absurd (hheld k (by omega)).2 hlatched
  obtain ⟨N, hN, hstill⟩ := eventually_still (f := State.pq) interleave_pq_or_work hrun
  obtain ⟨k, hk, hmoved⟩ := hfair (N + 1) fun k hk => hqueued k (by omega)
  exact hmoved (by rw [hstill k (by omega)])

/-- With XFR fair no command waits for ever for its transfer: it is in flight, and a transfer has an end. -/
theorem RunsFrom.not_awaitsTransfer {i : Instr} {run : Nat → State} {n : Nat} (h : RunsFrom i run n)
    (hfair : FairXfr run) (hrun : ∀ k, n ≤ k → run (k + 1) = interleave (run k))
    (hheld : ∀ k, n ≤ k → actAt i (run k) = some .collectTransfer ∧ ∀ ok, (run (k + 1)).xf ≠ .ended ok) : False := by
  have hflight : ∀ k, n + 1 ≤ k → ∃ data sent, (run k).xf = .active data sent := by
    intro k hk
    obtain ⟨k, rfl⟩ : ∃ j, k = j + 1 := ⟨k - 1, by omega⟩
    obtain ⟨hinv, hb, hi, -⟩ := h (k + 1) (by omega)
    have hout : (run (k + 1)).xf ≠ .none :=
      hinv.transfer (waitsForTransfer_iff.2 ⟨hb, i, hi, (hheld (k + 1) (by omega)).1⟩)
    cases hx : (run (k + 1)).xf with
    | none => exact absurd hx hout
    | ended ok => exact absurd hx ((hheld k (by omega)).2 ok)
    | active data sent => exact ⟨data, sent, rfl⟩
  obtain ⟨N, hN, hstill⟩ := eventually_still (f := State.xf) interleave_xf_or_work hrun
  obtain ⟨k, hk, hmoved⟩ := hfair (N + 1) fun k hk => hflight k (by omega)
  exact hmoved (hstill k (by omega))

/-- On a fair run no command is in progress for ever. -/
theorem RunsFrom.not_fair {i : Instr} {run : Nat → State} {n : Nat} (h : RunsFrom i run n) (htpg : FairTpg run)
    (hxfr : FairXfr run) : False := by
  obtain ⟨N, hN, hheld⟩ := h.eventually_unlifted
  have hrun : ∀ k, N ≤ k → run (k + 1) = interleave (run k) := fun k hk =>
    Host.Outcome.next.inj ((h k (hN.trans hk)).2.2.2.symm.trans (hheld k hk).exec)
  have hplace : ∀ k, N ≤ k → actAt i (run k) = actAt i (run N) := fun k hk => by
    induction k, hk using Nat.le_induction with
    | base => rfl
    | succ k hk ih =>
      rw [hrun k hk, ← ih]
      rfl
  obtain ⟨hat, -⟩ | ⟨hat, -⟩ := hheld N le_rfl
  · refine (h.mono hN).not_awaitsPulse htpg hrun fun k hk => ⟨(hplace k hk).trans hat, ?_⟩
    rw [hrun k hk]
    obtain ⟨-, htpr⟩ | ⟨hat', -⟩ := hheld k hk
    · exact htpr
    · cases hat'.symm.trans ((hplace k hk).trans hat)
  · refine (h.mono hN).not_awaitsTransfer hxfr hrun fun k hk => ⟨(hplace k hk).trans hat, ?_⟩
    rw [hrun k hk]
    obtain ⟨hat', -⟩ | ⟨-, hxf⟩ := hheld k hk
    · cases hat'.symm.trans ((hplace k hk).trans hat)
    · exact hxf

/-- Settles O27: an unlifted wait only lets the other agents step, and a command in progress for ever would be held at one
wait for ever, at which the agent waited for has work left and does none of it. -/
theorem waitsEndUnderFairness : Obligations.WaitsEndUnderFairness := by
  refine ⟨fun i s h => Unlifted.exec h, fun run hrun htpg hxfr hc ha ht n => ?_⟩
  by_contra hnever
  have hbusy : ∀ k, n ≤ k → (run k).busy = true := fun k hk => by
    cases hb : (run k).busy with
    | true => rfl
    | false => exact absurd ⟨k, hk, hb⟩ hnever
  obtain ⟨i, hi⟩ := exists_runsFrom hrun ⟨hc, ht, ha.transferOut hc⟩ hbusy
  exact hi.not_fair htpg hxfr

end Sys2Proof.Machine

namespace Sys2Proof.Machine

/-! ### Actions that only configure (42_power_sequencing.md R110 to R112) -/

/-- The actions that neither hold nor fail and touch no slot: field updates, commits, delays and writes of FSM. -/
def Act.configures : Act → Bool
  | .set _ _ => true
  | .commit => true
  | .delay _ => true
  | .fsm _ => true
  | .beginPulse _ _ _ => false
  | .awaitPulse => false
  | .checkSlot => false
  | .copyRow _ => false
  | .issueTransfer => false
  | .collectTransfer => false

theorem doAct_configures {a : Act} (ha : a.configures = true) (s : State) : doAct a s = .done (doAct a s).state := by
  cases a with
  | set | commit | delay | fsm => rfl
  | _ => cases ha

/-- Every action of POWER_ON and POWER_OFF is such an action (R111, R112). -/
theorem power_configures {i : Instr} (hi : i = .powerOn ∨ i = .powerOff) :
    ∀ a ∈ (microSteps i).flatten, a.configures = true := by
  obtain rfl | rfl := hi <;> decide

/-- What configuring actions have done so far: the register, the last value committed, FSM, SEQ's events, and the cycles
waited at least. -/
structure ConfigEffect where
  cfg : Byte
  driven : Option Byte
  fsm : Fsm
  events : List Event
  cycles : Nat

/-- Nothing done yet. -/
def ConfigEffect.start (s : State) : ConfigEffect := ⟨s.cfg, none, s.fsm, [], 0⟩

/-- What one more configuring action adds; no other action is described, and adds nothing. -/
def ConfigEffect.add (p : Params) (e : ConfigEffect) : Act → ConfigEffect
  | .set f b => { e with cfg := f.set b e.cfg }
  | .commit => { e with driven := some e.cfg, events := e.events ++ commitEvents e.cfg }
  | .delay d => { e with events := e.events ++ [.delay (delayCycles p d)], cycles := delayCycles p d + e.cycles }
  | .fsm f => { e with fsm := f }
  | _ => e

/-- What all the actions of a command do, run from its start. -/
def configEffect (i : Instr) (s : State) : ConfigEffect :=
  (microSteps i).flatten.foldl (ConfigEffect.add s.params) (.start s)

/-- From `s`, SEQ has come to `t` with the effect `e`. -/
structure Performed (s : State) (e : ConfigEffect) (t : State) : Prop where
  params : t.params = s.params
  cfg : t.cfg = e.cfg
  driven : ∀ v, e.driven = some v →
    t.panelCfg = some v ∧ t.cfgStr = true ∧ t.cfgClk = true ∧ t.cfgData = v.getLsbD 0
  fsm : t.fsm = e.fsm
  trace : seqTrace t = seqTrace s ++ e.events
  cyc : s.cyc + e.cycles ≤ t.cyc

theorem Performed.start (s : State) : Performed s (.start s) s :=
  ⟨rfl, rfl, (fun _ h => nomatch h), rfl, (List.append_nil _).symm, Nat.le_refl _⟩

theorem Performed.nextAct {s t : State} {e : ConfigEffect} (h : Performed s e t) : Performed s e (nextAct t) :=
  ⟨h.params, h.cfg, h.driven, h.fsm, h.trace, h.cyc⟩

theorem Performed.nextStep {s t : State} {e : ConfigEffect} (h : Performed s e t) : Performed s e (nextStep t) :=
  ⟨h.params, h.cfg, h.driven, h.fsm, h.trace, h.cyc⟩

/-- Each action adds its own effect. -/
theorem Performed.doAct {s t : State} {e : ConfigEffect} {a : Act} (ha : a.configures = true) (h : Performed s e t) :
    Performed s (e.add s.params a) (doAct a t).state := by
  obtain ⟨hparams, hcfg, hdriven, hfsm, htrace, hcyc⟩ := h
  cases a with
  | set f b => exact ⟨hparams, congrArg (f.set b) hcfg, hdriven, hfsm, htrace, hcyc⟩
  | commit =>
    refine ⟨(commit_params t).trans hparams, (commit_cfg t).trans hcfg, ?_, (commit_fsm t).trans hfsm, ?_,
      hcyc.trans (commit_cyc t)⟩
    · rintro v ⟨⟩
      simp [Machine.doAct, hcfg]
    · simp [Machine.doAct, ConfigEffect.add, htrace, hcfg]
  | delay d =>
    refine ⟨hparams, hcfg, hdriven, hfsm, ?_, ?_⟩
    · simp [Machine.doAct, ConfigEffect.add, htrace, hparams]
    · have := delay_cyc (delayCycles t.params d) t
      rw [hparams] at this
      simp only [Machine.doAct, ActResult.state_done, ConfigEffect.add, hparams]
      omega
  | fsm f => exact ⟨hparams, hcfg, hdriven, rfl, htrace, hcyc⟩
  | _ => cases ha

/-- A micro-step of configuring actions is done, with the effect of them all. -/
theorem Performed.runActs {as : List Act} {s t : State} {e : ConfigEffect} (ha : ∀ a ∈ as, a.configures = true)
    (h : Performed s e t) :
    ∃ u, runActs as t = .done u ∧ Performed s (as.foldl (ConfigEffect.add s.params) e) u := by
  induction as generalizing t e with
  | nil => exact ⟨t, rfl, h⟩
  | cons a as ih =>
    obtain ⟨ha, has⟩ := List.forall_mem_cons.1 ha
    rw [Machine.runActs, doAct_configures ha]
    exact ih has (h.doAct ha).nextAct

/-- Micro-steps of configuring actions end in the normal exit. -/
theorem Performed.runSteps {steps : List MicroStep} {s t : State} {e : ConfigEffect} (hact : t.act = 0)
    (ha : ∀ a ∈ steps.flatten, a.configures = true) (h : Performed s e t) :
    ∃ u, runSteps steps t = returnOk u ∧ Performed s (steps.flatten.foldl (ConfigEffect.add s.params) e) u := by
  induction steps generalizing t e with
  | nil => exact ⟨t, rfl, h⟩
  | cons m steps ih =>
    rw [List.flatten_cons, List.forall_mem_append] at ha
    obtain ⟨hm, hsteps⟩ := ha
    obtain ⟨u, hu, h⟩ := h.runActs hm
    rw [Machine.runSteps, hact, List.drop_zero, hu, List.flatten_cons, List.foldl_append]
    exact ih rfl hsteps h.nextStep

/-- A command of configuring actions completes from every state, with their effect and the event of its exit. -/
theorem exec_configures {i : Instr} {s : State} (h0 : s.atStart) (ha : ∀ a ∈ (microSteps i).flatten, a.configures = true) :
    ∃ t, exec i s = .next t ∧ endedWith .ok t ∧ t.fsm = (configEffect i s).fsm ∧ t.cfg = (configEffect i s).cfg ∧
      ((configEffect i s).driven = some (configEffect i s).cfg → t.panelCfg = some t.cfg ∧ linesAfterCommit t) ∧
      s.cyc + (configEffect i s).cycles ≤ t.cyc ∧
      seqTrace t = seqTrace s ++ (configEffect i s).events ++ [.ret .ok] := by
  obtain ⟨u, hu, h⟩ := (Performed.start s).runSteps h0.2 ha
  refine ⟨returnOk u, by rw [exec_atStart h0, hu], ⟨rfl, rfl⟩, h.fsm, h.cfg, fun hd => ?_, h.cyc.trans (returnOk_cyc u),
    by rw [seqTrace_returnOk, h.trace]; rfl⟩
  obtain ⟨hpanel, hstr, hclk, hdata⟩ := h.driven _ hd
  have hcfg : (returnOk u).cfg = (configEffect i s).cfg := h.cfg
  rw [linesAfterCommit, hcfg]
  exact ⟨hpanel, hstr, hclk, hdata⟩

/-! ### POWER_ON and POWER_OFF (42_power_sequencing.md R111, R112) -/

/-- The rails switched on one after the other, as masks. -/
theorem railsOn_masks (c : Byte) :
    CfgField.set .posPowerEnable true (CfgField.set .negPowerEnable true c) = c ||| 0x0C ∧
    CfgField.set .startOfFrame true (c ||| 0x0C) = c ||| 0x1C :=
  ⟨BitVec.or_assoc c 0x08 0x04, BitVec.or_assoc c 0x0C 0x10⟩

/-- The rails switched off one after the other, as masks. -/
theorem railsOff_masks (c : Byte) :
    CfgField.set .negPowerEnable false (CfgField.set .posPowerEnable false c) = c &&& ~~~0x0C ∧
    CfgField.set .startOfFrame false (CfgField.set .powerDisable true (c &&& ~~~0x0C)) = (c &&& ~~~0x1C) ||| 0x02 := by
  refine ⟨BitVec.and_assoc c (~~~0x04) (~~~0x08), ?_⟩
  rw [CfgField.set_comm (by decide)]
  exact congrArg (· ||| 0x02) (BitVec.and_assoc c (~~~0x0C) (~~~0x10))

/-- POWER_ON's actions, their field updates read as masks (R111). -/
theorem configEffect_powerOn (s : State) : configEffect .powerOn s =
    let c0 := (s.cfg ||| 0x20) &&& ~~~0x02
    { cfg := c0 ||| 0x1C
      driven := some (c0 ||| 0x1C)
      fsm := .idle
      events := commitEvents c0 ++ [.delay s.params.d1] ++ commitEvents (c0 ||| 0x08) ++ [.delay s.params.d2] ++
        commitEvents (c0 ||| 0x0C) ++ [.delay s.params.d1] ++ commitEvents (c0 ||| 0x1C)
      cycles := s.params.d1 + (s.params.d2 + s.params.d1) } := by
  simp only [← (railsOn_masks _).2, ← (railsOn_masks _).1]
  rfl

/-- POWER_OFF's actions, their field updates read as masks (R112). -/
theorem configEffect_powerOff (s : State) : configEffect .powerOff s =
    { cfg := (s.cfg &&& ~~~0x1C) ||| 0x02
      driven := some ((s.cfg &&& ~~~0x1C) ||| 0x02)
      fsm := .poweredOff
      events := commitEvents (s.cfg &&& ~~~0x04) ++ [.delay s.params.d4] ++ commitEvents (s.cfg &&& ~~~0x0C) ++
        [.delay s.params.d5] ++ commitEvents ((s.cfg &&& ~~~0x1C) ||| 0x02)
      cycles := s.params.d5 + s.params.d4 } := by
  simp only [← (railsOff_masks _).2, ← (railsOff_masks _).1]
  rfl

/-- Settles O17: POWER_ON's actions only configure, so it completes with their effect. -/
theorem powerOnStagesRails : Obligations.PowerOnStagesRails := by
  intro s h0
  obtain ⟨t, hx, hend, hfsm, hcfg, hdriven, hcyc, htrace⟩ := exec_configures h0 (power_configures (.inl rfl))
  rw [configEffect_powerOn] at hfsm hcfg hdriven hcyc htrace
  obtain ⟨hpanel, hlines⟩ := hdriven rfl
  exact ⟨t, hx, hend, hfsm, hcfg, hpanel, hlines, by dsimp only at hcyc; omega, by simpa using htrace⟩

/-- Settles O18: POWER_OFF's actions only configure, so it completes with their effect. -/
theorem powerOffDropsRails : Obligations.PowerOffDropsRails := by
  intro s h0
  obtain ⟨t, hx, hend, hfsm, hcfg, hdriven, hcyc, htrace⟩ := exec_configures h0 (power_configures (.inr rfl))
  rw [configEffect_powerOff] at hfsm hcfg hdriven hcyc htrace
  obtain ⟨hpanel, hlines⟩ := hdriven rfl
  exact ⟨t, hx, hend, hfsm, hcfg, hpanel, hlines, by dsimp only at hcyc; omega, by simpa using htrace⟩

/-- R113: what the two commands' masks leave together. -/
theorem powerCycle_masks (c : Byte) :
    ((((c ||| 0x20) &&& ~~~0x02) ||| 0x1C) &&& ~~~0x1C) ||| 0x02 = (c &&& 0xC1) ||| 0x22 := by
  refine BitVec.eq_of_getLsbD_eq fun n hn => ?_
  interval_cases n <;> simp

/-- Settles O20: the registers of the two completions, one after the other. -/
theorem powerCycleLeaves : Obligations.PowerCycleLeaves := by
  intro s t u v h0 hon h0' hu hoff
  obtain ⟨t', ht, -, -, htcfg, -⟩ := powerOnStagesRails s h0
  obtain ⟨v', hv, -, -, hvcfg, -⟩ := powerOffDropsRails u h0'
  cases hon.symm.trans ht
  cases hoff.symm.trans hv
  have hcfg : v.cfg = (s.cfg &&& 0xC1) ||| 0x22 := by rw [hvcfg, hu, htcfg, powerCycle_masks]
  rw [hcfg]
  refine ⟨rfl, fun h => ?_, fun h => ?_, ?_, ?_, ?_⟩
  · rw [h]; decide
  · rw [h]; decide
  all_goals simp [CfgField.get, CfgField.bit]

/-- What two runs of SEQ's events differ by, the commit traces differ by (10_state.md R30). -/
theorem commitTrace_drop {s t : State} {es : List Event} (h : seqTrace t = seqTrace s ++ es) :
    (commitTrace t).drop (commitTrace s).length = es.filterMap Event.committed := by
  rw [commitTrace_eq, commitTrace_eq, h, List.filterMap_append, List.drop_left]

/-- The positive rail is on only if the negative rail is (R115). -/
def PosNeedsNeg (v : Byte) : Prop := CfgField.get .posPowerEnable v = true → CfgField.get .negPowerEnable v = true

/-- The values that POWER_ON commits, from the register `c` (R111). -/
def powerOnCommits (c : Byte) : List Byte :=
  let on := CfgField.set .powerDisable false (CfgField.set .scanDirection true c)
  let neg := CfgField.set .negPowerEnable true on
  let pos := CfgField.set .posPowerEnable true neg
  [on, neg, pos, CfgField.set .startOfFrame true pos]

/-- The values that POWER_OFF commits, from the register `c` (R112). -/
def powerOffCommits (c : Byte) : List Byte :=
  let posOff := CfgField.set .posPowerEnable false c
  let negOff := CfgField.set .negPowerEnable false posOff
  [posOff, negOff, CfgField.set .startOfFrame false (CfgField.set .powerDisable true negOff)]

/-- The negative rail is on before the positive one goes on, and no later update of POWER_ON touches either. -/
theorem posNeedsNeg_powerOnCommits {c : Byte} (h : PosNeedsNeg c) : ∀ v ∈ powerOnCommits c, PosNeedsNeg v := by
  simpa [powerOnCommits, PosNeedsNeg] using h

/-- The positive rail is off before the negative one goes off, and stays off in POWER_OFF. -/
theorem posNeedsNeg_powerOffCommits (c : Byte) : ∀ v ∈ powerOffCommits c, PosNeedsNeg v := by
  simp [powerOffCommits, PosNeedsNeg]

theorem committed_powerOn (s : State) :
    (configEffect .powerOn s).events.filterMap Event.committed = powerOnCommits s.cfg := by
  rw [configEffect_powerOn]
  simp only [powerOnCommits, railsOn_masks, List.filterMap_append, committed_commitEvents]
  rfl

theorem committed_powerOff (s : State) :
    (configEffect .powerOff s).events.filterMap Event.committed = powerOffCommits s.cfg := by
  rw [configEffect_powerOff]
  simp only [powerOffCommits, railsOff_masks, List.filterMap_append, committed_commitEvents]
  rfl

/-- Settles O21: the commits of the two completions, each of which keeps R115. -/
theorem railsNeverPositiveAlone : Obligations.RailsNeverPositiveAlone := by
  intro i s t hi h0 hx
  obtain ⟨t', ht, -, -, -, -, -, htrace⟩ := exec_configures h0 (power_configures hi)
  cases hx.symm.trans ht
  have hcommits : (commitTrace t).drop (commitTrace s).length = (configEffect i s).events.filterMap Event.committed := by
    rw [commitTrace_drop (List.append_assoc .. ▸ htrace), List.filterMap_append]
    exact List.append_nil _
  rw [hcommits]
  obtain rfl | rfl := hi
  · rw [committed_powerOn]
    exact ⟨fun _ => rfl, nofun, posNeedsNeg_powerOnCommits⟩
  · rw [committed_powerOff]
    exact ⟨nofun, fun _ => rfl, fun _ => posNeedsNeg_powerOffCommits s.cfg⟩

/-! ### What delays and power sequences leave alone (42_power_sequencing.md R110 to R112) -/

/-- Settles O16: a delay is an event of SEQ that lets the other agents step, and a wait for the count. -/
theorem delayWaitsAtLeast : Obligations.DelayWaitsAtLeast := by
  intro n s
  refine ⟨delay_cyc n s, seqTrace_delay n s, ⟨rfl, rfl, rfl, rfl, rfl⟩, ⟨rfl, rfl, rfl⟩, ⟨rfl, fun _ => rfl⟩,
    ⟨rfl, rfl, rfl, rfl, rfl, rfl, fun _ => rfl⟩, rfl, rfl, rfl, rfl, rfl, agentsOnly_delay n s⟩

/-- No slot is touched and no byte of the row buffer changes, but by steps of the other agents. -/
structure KeepsSlots (s t : State) : Prop where
  channel : SameChannel s t
  transfer : SameTransfer s t
  agents : AgentsOnly s t

theorem KeepsSlots.trans {s t u : State} (h : KeepsSlots s t) (k : KeepsSlots t u) : KeepsSlots s u := by
  obtain ⟨⟨hc, hg, hp⟩, ⟨hr, hb⟩, ha⟩ := h
  obtain ⟨⟨kc, kg, kp⟩, ⟨kr, kb⟩, ka⟩ := k
  exact ⟨⟨kc.trans hc, kg.trans hg, kp.trans hp⟩, ⟨kr.trans hr, fun n => (kb n).trans (hb n)⟩, ha.trans ka⟩

theorem OnlyConfigures.keepsSlots {s t : State} (h : OnlyConfigures s t) : KeepsSlots s t :=
  ⟨h.channel, h.sameTransfer, h.agents⟩

/-- An operation that writes none of these and lets only the other agents step. -/
theorem AgentsOnly.keepsSlots {s t : State} (h : AgentsOnly s t) (hc : SameChannel s t) (htr : t.tr = s.tr)
    (htbuf : t.tbuf = s.tbuf) : KeepsSlots s t :=
  ⟨hc, ⟨htr, fun n => by rw [tbufRead, tbufRead, htbuf]⟩, h⟩

theorem doAct_keepsSlots {a : Act} (ha : a.configures = true) (s : State) : KeepsSlots s (doAct a s).state := by
  cases a with
  | set f b => exact (onlyConfigures_setField f b s).keepsSlots
  | commit => exact (onlyConfigures_commit s).keepsSlots
  | delay d => exact (agentsOnly_delay _ s).keepsSlots ⟨rfl, rfl, rfl⟩ rfl rfl
  | fsm f => exact (agentsOnly_setFsm f s).keepsSlots ⟨rfl, rfl, rfl⟩ rfl rfl
  | _ => cases ha

/-- A command of configuring actions keeps these, from wherever the sequencer stands in it. -/
theorem exec_keepsSlots {i : Instr} {s t : State} (hx : exec i s = .next t)
    (ha : ∀ a ∈ (microSteps i).flatten, a.configures = true) : KeepsSlots s t :=
  exec_induct (P := KeepsSlots s) hx (fun a hmem u h => h.trans (doAct_keepsSlots (ha a hmem) u))
    (fun u h => h.trans ((agentsOnly_nextAct u).keepsSlots ⟨rfl, rfl, rfl⟩ rfl rfl))
    (fun u h => h.trans ((agentsOnly_nextStep u).keepsSlots ⟨rfl, rfl, rfl⟩ rfl rfl))
    (fun c u h => h.trans ((agentsOnly_raise c u).keepsSlots ⟨rfl, rfl, rfl⟩ rfl rfl))
    (fun u h => h.trans ((agentsOnly_returnOk u).keepsSlots ⟨rfl, rfl, rfl⟩ rfl rfl))
    ((AgentsOnly.refl s).keepsSlots ⟨rfl, rfl, rfl⟩ rfl rfl)

/-- A field that a command never updates keeps its value. -/
theorem exec_get_cfg_of_notMem {i : Instr} {s t : State} {g : CfgField} (hx : exec i s = .next t)
    (hg : ∀ b, .set g b ∉ (microSteps i).flatten) : g.get t.cfg = g.get s.cfg :=
  exec_get_cfg hx fun _ b hmem e => hg b (e ▸ hmem)

/-- POWER_ON and POWER_OFF update neither OE, MODE nor LE (R111, R112). -/
theorem power_noUpdate {i : Instr} {g : CfgField} (hi : i = .powerOn ∨ i = .powerOff)
    (hg : g = .outputEnable ∨ g = .mode ∨ g = .latchEnable) : ∀ b, .set g b ∉ (microSteps i).flatten := by
  obtain rfl | rfl := hi <;> obtain rfl | rfl | rfl := hg <;> decide

/-- Settles O19: the actions only configure, and update neither OE, MODE and LE nor, in POWER_OFF, DIR. -/
theorem powerFrame : Obligations.PowerFrame := by
  intro i s t hi hx
  obtain ⟨hchannel, htransfer, hagents⟩ := exec_keepsSlots hx (power_configures hi)
  obtain ⟨hp, hop, hblk, ha, hb, hf, hr⟩ := exec_fixed hx
  refine ⟨⟨hp, hop, hblk, ha, hb, hf, fun n => by rw [hr]⟩, hchannel, htransfer, hagents,
    fun g hg => exec_get_cfg_of_notMem hx (power_noUpdate hi hg), ?_⟩
  rintro rfl
  exact exec_get_cfg_of_notMem hx (by decide)

end Sys2Proof.Machine

namespace Sys2Proof.Machine

/-! ### LATCH_ROW (43_frame_scan.md R121) -/

/-- LATCH_ROW's actions only configure (R121). -/
theorem latchRow_configures : ∀ a ∈ (microSteps .latchRow).flatten, a.configures = true := by decide

/-- The latch enable switched on and off again, as masks. -/
theorem latchRow_masks (c : Byte) : CfgField.set .latchEnable false (c ||| 0x01) = c &&& 0xFE := by
  refine BitVec.eq_of_getLsbD_eq fun n hn => ?_
  rw [CfgField.getLsbD_set _ _ _ hn]
  interval_cases n <;> simp [CfgField.bit]

/-- LATCH_ROW's actions, their field updates read as masks (R121). -/
theorem configEffect_latchRow (s : State) : configEffect .latchRow s =
    { cfg := s.cfg &&& 0xFE
      driven := some (s.cfg &&& 0xFE)
      fsm := s.fsm
      events := commitEvents (s.cfg ||| 0x01) ++ commitEvents (s.cfg &&& 0xFE)
      cycles := 0 } := by
  simp only [← latchRow_masks]
  rfl

/-- Settles O13: LATCH_ROW's actions only configure, so it completes with their effect. -/
theorem latchRowCommitsTwice : Obligations.LatchRowCommitsTwice := by
  intro s h0
  obtain ⟨t, hx, hend, hfsm, hcfg, hdriven, -, htrace⟩ := exec_configures h0 latchRow_configures
  rw [configEffect_latchRow] at hfsm hcfg hdriven htrace
  obtain ⟨hpanel, hlines⟩ := hdriven rfl
  exact ⟨t, hx, hend, hcfg, hpanel, hlines, hfsm, by simpa using htrace⟩

/-! ### FSM along a command (10_state.md R13, 43_frame_scan.md R126) -/

/-- FSM after an action, from FSM before it (R13). -/
def Act.fsmAfter (f : Fsm) : Act → Fsm
  | .fsm g => g
  | _ => f

/-- FSM after a command's normal exit, from FSM at its start (R126). -/
def exitFsm (i : Instr) (f : Fsm) : Fsm :=
  match i with
  | .powerOn => .idle
  | .powerOff => .poweredOff
  | .frameStart => .frameActive
  | .frameEnd => .idle
  | _ => f

/-- Only the action `fsm` writes FSM. -/
theorem doAct_fsm (a : Act) (s : State) : (doAct a s).state.fsm = a.fsmAfter s.fsm := by
  cases a with
  | beginPulse high low blk => exact (onlyPulses_beginPulse high low blk s).fsm
  | awaitPulse => exact (onlyPulses_awaitPulse s).fsm
  | checkSlot => simp only [doAct, checkSlot]; split <;> rfl
  | collectTransfer => simp only [doAct, collectTransfer]; split <;> rfl
  | commit => exact commit_fsm s
  | _ => rfl

/-- A command writes FSM in its last action, if at all. -/
theorem microSteps_fsm_last (i : Instr) : ∃ before a, (microSteps i).flatten = before ++ [a] ∧
    (∀ b ∈ before, ∀ f, b.fsmAfter f = f) ∧ ∀ f, a.fsmAfter f = exitFsm i f := by
  have hne : (microSteps i).flatten ≠ [] := by
    cases i with
    | pulse high low blk => cases blk <;> nofun
    | _ => nofun
  refine ⟨_, _, (List.dropLast_append_getLast hne).symm, ?_, fun f => ?_⟩
  · cases i with
    | pulse high low blk => cases blk <;> simp [microSteps, pulseSteps, pulseActs, Act.fsmAfter]
    | _ =>
      simp [microSteps, writeSteps, powerOnSteps, powerOffSteps, frameStartSteps, latchRowSteps, outputRowSteps, skipSteps,
        frameEndSteps, pulseActs, Act.fsmAfter]
  · cases i with
    | pulse high low blk => cases blk <;> rfl
    | _ => rfl

/-- FSM with `as` left to do: as at the start, until nothing is left. -/
def FsmKept (i : Instr) (f : Fsm) (as : List Act) (t : State) : Prop :=
  as <:+ (microSteps i).flatten ∧ t.fsm = if as = [] then exitFsm i f else f

theorem FsmKept.doAct {i : Instr} {f : Fsm} {a : Act} {as : List Act} {s t : State} (h : FsmKept i f (a :: as) s)
    (hd : doAct a s = .done t) : FsmKept i f as (nextAct t) := by
  obtain ⟨hsuffix, hfsm⟩ := h
  obtain ⟨before, b, hsteps, hbefore, hlast⟩ := microSteps_fsm_last i
  have hafter : t.fsm = a.fsmAfter f := by
    rw [← ActResult.state_done t, ← hd, doAct_fsm, hfsm]
    rfl
  refine ⟨(List.suffix_cons a as).trans hsuffix, hafter.trans ?_⟩
  obtain ⟨pre, hpre⟩ := hsuffix
  rw [hsteps] at hpre
  obtain rfl | ⟨init, c, rfl⟩ := List.eq_nil_or_concat as
  · obtain ⟨-, hab⟩ := List.append_inj' hpre rfl
    cases hab
    exact hlast f
  · rw [List.concat_eq_append, ← List.cons_append, ← List.append_assoc] at hpre
    obtain ⟨hinit, -⟩ := List.append_inj' hpre rfl
    rw [if_neg (by simp)]
    exact hbefore a (by simp [← hinit]) f

/-- Where the sequencer stands at an action, that action is left to do. -/
theorem actsLeft_ne_nil {i : Instr} {s : State} {a : Act} (h : actAt i s = some a) :
    actsLeft ((microSteps i).drop s.step) s.act ≠ [] := by
  intro hnil
  have hhead := actsLeft_head h
  rw [hnil] at hhead
  cases hhead

/-- An action that errs or is held does not write FSM. -/
theorem doAct_fsm_of_not_done {a : Act} {s : State} (h : ∀ t, doAct a s ≠ .done t) : (doAct a s).state.fsm = s.fsm := by
  rw [doAct_fsm]
  cases a with
  | fsm f => exact absurd rfl (h _)
  | _ => rfl

/-- A command that has an action left ends with FSM as its exit leaves it, or is held with FSM as it was. -/
theorem exec_fsm {i : Instr} {s t : State} {a : Act} (hat : actAt i s = some a) (hb : s.busy = true)
    (hx : exec i s = .next t) :
    t.fsm = if t.busy = false ∧ t.result = .ok then exitFsm i s.fsm else s.fsm := by
  have hsuffix : actsLeft ((microSteps i).drop s.step) s.act <:+ (microSteps i).flatten :=
    (actsLeft_suffix _ _).trans (List.drop_suffix _ _).flatten
  have hsame : ∀ {b : Act} {bs : List Act} {u v : State}, FsmKept i s.fsm (b :: bs) u → (doAct b u).state = v →
      (∀ w, doAct b u ≠ .done w) → v.fsm = s.fsm := by
    rintro b bs u _ h rfl hd
    exact (doAct_fsm_of_not_done hd).trans h.2
  obtain ⟨hbusy, hexit⟩ | ⟨hbusy, -, hheld⟩ :=
    exec_outcome (P := FsmKept i s.fsm) (Q := fun t => t.fsm = if t.result = .ok then exitFsm i s.fsm else s.fsm)
      (fun _ _ _ _ h hd => h.doAct hd)
      (fun _ _ _ _ h hd => ⟨h.1, hsame h (congrArg ActResult.state hd) (by simp [hd])⟩)
      (fun _ _ h => h) (fun _ h => h.2)
      (fun _ _ _ _ v h hd =>
        (hsame (v := v) h (congrArg ActResult.state hd) (by simp [hd])).trans (if_neg (doAct_error_ne_ok hd)).symm)
      hx ⟨hsuffix, (if_neg (actsLeft_ne_nil hat)).symm⟩
  · simpa [hbusy] using hexit
  · rw [hb] at hbusy
    obtain hend | ⟨-, hwait | hwait⟩ := exec_ends hb hx
    · cases hbusy.symm.trans hend
    all_goals simpa [hbusy, actsLeft_ne_nil hwait] using hheld

/-- At its start a command stands at its first action. -/
theorem actAt_atStart {i : Instr} {s : State} (h0 : s.atStart) : ∃ a, actAt i s = some a := by
  obtain ⟨hstep, hact⟩ := h0
  simp only [actAt, hstep, hact]
  cases i with
  | pulse high low blk => cases blk <;> exact ⟨_, rfl⟩
  | _ => exact ⟨_, rfl⟩

/-- Settles O44: FSM is written by a command's last action alone, which only the normal exit follows. -/
theorem fsmTransitions : Obligations.FsmTransitions := by
  intro i s t hs hb hx
  obtain ⟨a, hat⟩ : ∃ a, actAt i s = some a := by
    obtain h0 | hat | hat := hs
    · exact actAt_atStart h0
    · exact ⟨_, hat⟩
    · exact ⟨_, hat⟩
  rw [exec_fsm hat hb hx]
  cases i <;> rfl

/-! ### The frame of FRAME_START and FRAME_END (43_frame_scan.md R120, R124) -/

/-- The other agents begin no transfer, and with none in flight the bus lines keep their level. -/
theorem AgentsOnly.xf_none {s t : State} (h : AgentsOnly s t) (hx : s.xf = .none) : t.xf = .none ∧ t.bus = s.bus := by
  obtain ⟨moves, h⟩ := h
  obtain ⟨-, -, -, hxf, hbus⟩ := h 0 0
  rw [hxf, hbus]
  exact runMoves_induct (P := fun d => d.xf = .none ∧ d.bus = s.bus)
    (fun m d hd => (moveDevices_xf_none 0 0 m d hd.1).imp_right (·.trans hd.2)) moves s.devices ⟨hx, rfl⟩

/-- The transfer slot and the row buffer are unchanged, and with no transfer in flight none begins and the bus lines keep
their level. -/
structure KeepsTransfer (s t : State) : Prop where
  transfer : SameTransfer s t
  noTransfer : s.xf = .none → t.xf = .none ∧ t.bus = s.bus

theorem KeepsTransfer.trans {s t u : State} (h : KeepsTransfer s t) (k : KeepsTransfer t u) : KeepsTransfer s u := by
  obtain ⟨⟨htr, htbuf⟩, hxf⟩ := h
  obtain ⟨⟨ktr, ktbuf⟩, kxf⟩ := k
  refine ⟨⟨ktr.trans htr, fun n => (ktbuf n).trans (htbuf n)⟩, fun hnone => ?_⟩
  obtain ⟨hnone, hbus⟩ := hxf hnone
  exact (kxf hnone).imp_right (·.trans hbus)

theorem KeepsSlots.keepsTransfer {s t : State} (h : KeepsSlots s t) : KeepsTransfer s t :=
  ⟨h.transfer, h.agents.xf_none⟩

theorem OnlyPulses.keepsTransfer {s t : State} (h : OnlyPulses s t) : KeepsTransfer s t :=
  ⟨⟨h.tr, fun n => by rw [tbufRead, tbufRead, h.tbuf]⟩, h.noTransfer⟩

/-- The two halves of `pulse` (41_timing_pulse.md R97). -/
def Act.pulses : Act → Bool
  | .beginPulse _ _ _ => true
  | .awaitPulse => true
  | _ => false

theorem doAct_onlyPulses {a : Act} (ha : a.pulses = true) (s : State) : OnlyPulses s (doAct a s).state := by
  cases a with
  | beginPulse high low blk => exact onlyPulses_beginPulse high low blk s
  | awaitPulse => exact onlyPulses_awaitPulse s
  | _ => cases ha

/-- A command that only configures and pulses keeps these, from wherever the sequencer stands in it. -/
theorem exec_keepsTransfer {i : Instr} {s t : State} (hx : exec i s = .next t)
    (ha : ∀ a ∈ (microSteps i).flatten, a.configures = true ∨ a.pulses = true) : KeepsTransfer s t := by
  refine exec_induct (P := KeepsTransfer s) hx (fun a hmem u h => h.trans ?_)
    (fun u h => h.trans ((agentsOnly_nextAct u).keepsSlots ⟨rfl, rfl, rfl⟩ rfl rfl).keepsTransfer)
    (fun u h => h.trans ((agentsOnly_nextStep u).keepsSlots ⟨rfl, rfl, rfl⟩ rfl rfl).keepsTransfer)
    (fun c u h => h.trans ((agentsOnly_raise c u).keepsSlots ⟨rfl, rfl, rfl⟩ rfl rfl).keepsTransfer)
    (fun u h => h.trans ((agentsOnly_returnOk u).keepsSlots ⟨rfl, rfl, rfl⟩ rfl rfl).keepsTransfer)
    ((AgentsOnly.refl s).keepsSlots ⟨rfl, rfl, rfl⟩ rfl rfl).keepsTransfer
  obtain hconf | hpulse := ha a hmem
  · exact (doAct_keepsSlots hconf u).keepsTransfer
  · exact (doAct_onlyPulses hpulse u).keepsTransfer

/-- FRAME_START and FRAME_END only configure and pulse (R120, R124). -/
theorem frame_acts {i : Instr} (hi : i = .frameStart ∨ i = .frameEnd) :
    ∀ a ∈ (microSteps i).flatten, a.configures = true ∨ a.pulses = true := by
  obtain rfl | rfl := hi <;> decide

/-- They update OE, MODE and, in FRAME_START, SOF alone. -/
theorem frame_noUpdate {i : Instr} {g : CfgField} (hi : i = .frameStart ∨ i = .frameEnd) (hoe : g ≠ .outputEnable)
    (hmode : g ≠ .mode) (hsof : g ≠ .startOfFrame) : ∀ b, .set g b ∉ (microSteps i).flatten := by
  obtain rfl | rfl := hi <;>
    simp [microSteps, frameStartSteps, frameEndSteps, pulseActs, hoe, hmode, hsof]

/-- Settles O35: both commands only configure and pulse, and update no field but OE, MODE and, in FRAME_START, SOF. -/
theorem frameScanFrame : Obligations.FrameScanFrame := by
  intro i s t hi hx
  obtain ⟨htransfer, hxf⟩ := exec_keepsTransfer hx (frame_acts hi)
  obtain ⟨hp, hop, hblk, ha, hb, hf, hr⟩ := exec_fixed hx
  refine ⟨⟨hp, hop, hblk, ha, hb, hf, fun n => by rw [hr]⟩, htransfer, hxf,
    fun g hoe hmode hsof => exec_get_cfg_of_notMem hx (frame_noUpdate hi hoe hmode hsof), ?_⟩
  rintro rfl
  exact exec_get_cfg_of_notMem hx (by decide)

end Sys2Proof.Machine

namespace Sys2Proof.Machine

/-! ### Micro-steps of configuring actions and blocking pulses on prompt hardware (43_frame_scan.md R120, R124) -/

/-- The other agents only play what is queued. -/
theorem AgentsOnly.work_le {s t : State} (h : AgentsOnly s t) : tpgWork t.pq ≤ tpgWork s.pq := by
  obtain ⟨moves, h⟩ := h
  rw [(h 0 0).1]
  obtain heq | hlt := runMoves_eq_or_lt (f := Devices.pq) (moveDevices_pq_or_work 0 0) moves s.devices
  · exact (congrArg tpgWork heq).le
  · exact hlt.le

/-- With the queue empty, the other agents leave it and the latch alone. -/
theorem AgentsOnly.quiet {s t : State} (h : AgentsOnly s t) (hq : s.pq = []) : t.pq = [] ∧ t.tpr = s.tpr := by
  obtain ⟨moves, h⟩ := h
  obtain ⟨hpq, htpr, -⟩ := h 0 0
  rw [hpq, htpr]
  refine runMoves_induct (P := fun d => d.pq = [] ∧ d.tpr = s.tpr) (fun m d ⟨hd, hr⟩ => ?_) moves s.devices ⟨hq, rfl⟩
  obtain ⟨hm, hmr⟩ | ⟨w, rest, p, hw, -⟩ | ⟨w, rest, r, hw, -⟩ := moveDevices_pq 0 0 m d
  · exact ⟨hm.trans hd, hmr.trans hr⟩
  · cases hd.symm.trans hw
  · cases hd.symm.trans hw

/-- How many bursts of ENV's script a configuring action draws: one for each of its events (20_memory.md R46). -/
def Act.draws : Act → Nat
  | .commit => 27
  | .delay _ => 1
  | _ => 0

theorem doAct_draws {a : Act} (ha : a.configures = true) (s : State) :
    (doAct a s).state.bursts = s.bursts.drop a.draws ∧ (doAct a s).state.drawn = s.drawn + a.draws ∧
      (doAct a s).state.acqs = s.acqs := by
  cases a with
  | set | fsm => exact ⟨rfl, rfl, rfl⟩
  | commit => simp [doAct, Act.draws]
  | delay d => simp [doAct, Act.draws, List.drop_one]
  | _ => cases ha

theorem Ready.doAct_notFailed {k n m : Nat} {a : Act} {s : State} (ha : a.configures = true)
    (h : Ready (k + a.draws) n m s) (hf : s.tpr ≠ .failed) : (doAct a s).state.tpr ≠ .failed := by
  cases a with
  | set | fsm => exact hf
  | commit => exact (Ready.commit h hf).2.2
  | delay d => exact h.notFailed hf
  | _ => cases ha

/-- A part of a micro-step: an action that only configures, or a whole blocking pulse. -/
inductive Part where
  | act (a : Act)
  | pulse (high low : Nat)

/-- The actions of a part. -/
def Part.acts : Part → List Act
  | .act a => [a]
  | .pulse high low => pulseActs high low true

/-- An action that stands as a part of its own only configures. -/
def Part.ok : Part → Bool
  | .act a => a.configures
  | .pulse _ _ => true

/-- A micro-step made of parts. -/
def microOf (parts : List Part) : MicroStep := parts.flatMap Part.acts

/-- FRAME_START's micro-steps in parts (R120). -/
def frameStartParts : List (List Part) :=
  [ [.act (.set .mode true), .act .commit, .pulse 1 1],
    [.act (.set .startOfFrame false), .act .commit, .act (.delay .d3), .pulse 10 10],
    [.act (.set .startOfFrame true), .act .commit, .pulse 0 10],
    [.act (.set .outputEnable true), .act .commit, .pulse 1 1, .act (.fsm .frameActive)] ]

/-- FRAME_END's micro-steps in parts (R124). -/
def frameEndParts : List (List Part) :=
  [ [.act (.set .outputEnable false), .act .commit],
    [.act (.set .mode true), .act .commit],
    [.pulse 10 10],
    [.pulse 10 10, .act (.fsm .idle)] ]

theorem microSteps_frameStart : microSteps .frameStart = frameStartParts.map microOf := rfl

theorem microSteps_frameEnd : microSteps .frameEnd = frameEndParts.map microOf := rfl

/-- What parts of a command have done so far on prompt hardware: the effect on the configuration and SEQ's events, the
bursts drawn, and how many of them were drawn before the first pulse, if there was one. -/
structure ScanEffect where
  config : ConfigEffect
  draws : Nat
  firstPulse : Option Nat

/-- Nothing done yet. -/
def ScanEffect.start (s : State) : ScanEffect := ⟨.start s, 0, none⟩

/-- The acquisition events of the next pulse: only the first one can need any (41_timing_pulse.md R94, R98). -/
def ScanEffect.acquires (s : State) (e : ScanEffect) : List Event :=
  if e.firstPulse.isSome then [] else acquireEvents s

theorem acquireEvents_length_le (s : State) : (acquireEvents s).length ≤ 1 := by
  cases h : s.tch <;> simp [acquireEvents, h]

/-- What one more part adds, in a command that began at `s`. A pulse draws one burst for each of its events, and one for
its look. -/
def ScanEffect.add (s : State) (e : ScanEffect) : Part → ScanEffect
  | .act a => { e with config := e.config.add s.params a, draws := e.draws + a.draws }
  | .pulse high low =>
    { config := { e.config with
        events := e.config.events ++ (e.acquires s ++ [.tpIssue (nextInstance s) high low true]) }
      draws := e.draws + (e.acquires s).length + 2
      firstPulse := some (e.firstPulse.getD e.draws) }

@[simp] theorem ScanEffect.add_act_firstPulse (s : State) (e : ScanEffect) (a : Act) :
    (e.add s (.act a)).firstPulse = e.firstPulse := rfl

@[simp] theorem ScanEffect.add_act_draws (s : State) (e : ScanEffect) (a : Act) :
    (e.add s (.act a)).draws = e.draws + a.draws := rfl

@[simp] theorem ScanEffect.add_pulse_draws (s : State) (e : ScanEffect) (high low : Nat) :
    (e.add s (.pulse high low)).draws = e.draws + (e.acquires s).length + 2 := rfl

/-- What a list of parts does, from a command's start. -/
def scanEffect (s : State) (parts : List Part) : ScanEffect := parts.foldl (ScanEffect.add s) (.start s)

/-- The first `k` bursts are enough, and the first pulse gets a channel. -/
def ScanEffect.within (s : State) (k : Nat) (e : ScanEffect) : Prop :=
  e.draws ≤ k ∧ ∀ d, e.firstPulse = some d → channelAfter d s

theorem ScanEffect.within_of_add {s : State} {k : Nat} {e : ScanEffect} {p : Part} (h : (e.add s p).within s k) :
    e.within s k := by
  obtain ⟨hdraws, hchannel⟩ := h
  cases p with
  | act a => exact ⟨(Nat.le_add_right _ _).trans hdraws, hchannel⟩
  | pulse high low =>
    refine ⟨by rw [add_pulse_draws] at hdraws; omega, fun d hd => hchannel d ?_⟩
    simp [add, hd]

theorem ScanEffect.within_of_foldl {s : State} {k : Nat} {parts : List Part} {e : ScanEffect}
    (h : (parts.foldl (add s) e).within s k) : e.within s k := by
  induction parts generalizing e with
  | nil => exact h
  | cons p parts ih => exact within_of_add (ih h)

/-- The channel before the first pulse, as it was, and after one, held with nothing queued. -/
def ScanEffect.channel (s : State) (e : ScanEffect) (t : State) : Prop :=
  if e.firstPulse.isSome then t.tch = .held (nextInstance s) ∧ t.tchGen = genAfterPulse s ∧ t.pq = [] ∧ t.tpr = .none
  else t.tch = s.tch ∧ t.tchGen = s.tchGen ∧ t.acqs = s.acqs ∧ t.drawn = s.drawn + e.draws

/-- From its start at `s`, a command has come to `t` between two of its parts, with the effect `e`. -/
structure Scanned (s : State) (e : ScanEffect) (t : State) : Prop where
  performed : Performed s e.config t
  bursts : t.bursts = s.bursts.drop e.draws
  work : tpgWork t.pq ≤ tpgWork s.pq + 3
  notFailed : t.tpr ≠ .failed
  channel : e.channel s t

theorem Scanned.start {s : State} (h : s.tpr = .none) : Scanned s (.start s) s :=
  ⟨.start s, rfl, Nat.le_add_right _ _, by simp [h], rfl, rfl, rfl, rfl⟩

theorem Scanned.nextStep {s t : State} {e : ScanEffect} (h : Scanned s e t) : Scanned s e (nextStep t) :=
  ⟨h.performed.nextStep, h.bursts, h.work, h.notFailed, h.channel⟩

/-- Of a script prompt for `k` events, those not drawn yet are left. -/
theorem Scanned.ready {j k : Nat} {s t : State} {e : ScanEffect} (h : Scanned s e t) (hp : s.promptFor k)
    (hj : j + e.draws ≤ k) : Ready j (tpgWork s.pq + 3) (s.params.rowWidth + 1) t := by
  obtain ⟨hlen, hprompt⟩ := hp
  refine ⟨by rw [h.bursts, List.length_drop]; omega, fun moves hm => hprompt moves ?_, h.work⟩
  rw [h.bursts, List.take_drop] at hm
  exact List.take_subset_take_left _ (by omega) (List.mem_of_mem_drop hm)

/-- A pulse begun between two parts takes the same channel number, and acquires only if it is the first. -/
theorem Scanned.nextPulse {s t : State} {e : ScanEffect} (h : Scanned s e t) :
    nextInstance t = nextInstance s ∧ genAfterPulse t = genAfterPulse s ∧ acquireEvents t = e.acquires s ∧
      (channelAfter (e.firstPulse.getD e.draws) s → t.tch ≠ .absent ∨ nextAcq t = true) := by
  have hchannel := h.channel
  cases hfirst : e.firstPulse with
  | some d =>
    simp only [ScanEffect.channel, hfirst, Option.isSome_some, if_true] at hchannel
    obtain ⟨htch, hgen, -⟩ := hchannel
    simp [nextInstance, genAfterPulse, acquireEvents, ScanEffect.acquires, htch, hgen, hfirst]
  | none =>
    simp only [ScanEffect.channel, hfirst, Option.isSome_none, Bool.false_eq_true, if_false] at hchannel
    obtain ⟨htch, hgen, hacqs, hdrawn⟩ := hchannel
    simp [nextInstance, genAfterPulse, acquireEvents, ScanEffect.acquires, htch, hgen, hfirst, channelAfter, acqAfter,
      nextAcq, hacqs, hdrawn]

/-- A configuring action between two parts. -/
theorem Scanned.act {k : Nat} {a : Act} {s t : State} {e : ScanEffect} (h : Scanned s e t) (ha : a.configures = true)
    (hp : s.promptFor k) (hk : (e.add s (.act a)).within s k) :
    ∃ u, runActs [a] t = .done u ∧ Scanned s (e.add s (.act a)) u := by
  obtain ⟨hdraws, -⟩ := hk
  obtain ⟨hbursts, hdrawn, hacqs⟩ := doAct_draws ha t
  obtain ⟨⟨htch, hgen, -⟩, -, hagents⟩ := doAct_keepsSlots ha t
  have hready := h.ready (j := 0 + a.draws) hp (by rw [ScanEffect.add_act_draws] at hdraws; omega)
  refine ⟨nextAct (doAct a t).state, by rw [runActs, doAct_configures ha]; rfl, (h.performed.doAct ha).nextAct, ?_,
    hagents.work_le.trans h.work, hready.doAct_notFailed ha h.notFailed, ?_⟩
  · exact hbursts.trans (by rw [h.bursts, List.drop_drop]; rfl)
  · have hchannel := h.channel
    rw [ScanEffect.channel] at hchannel
    rw [ScanEffect.channel, ScanEffect.add_act_firstPulse, ScanEffect.add_act_draws, ← Nat.add_assoc]
    split at hchannel
    · next hfirst =>
      rw [if_pos hfirst]
      obtain ⟨h1, h2, h3, h4⟩ := hchannel
      obtain ⟨hpq, htpr⟩ := hagents.quiet h3
      exact ⟨htch.trans h1, hgen.trans h2, hpq, htpr.trans h4⟩
    · next hfirst =>
      rw [if_neg hfirst]
      obtain ⟨h1, h2, h3, h4⟩ := hchannel
      exact ⟨htch.trans h1, hgen.trans h2, hacqs.trans h3, hdrawn.trans (congrArg (· + a.draws) h4)⟩

theorem acquired_cyc (s : State) : s.cyc ≤ (acquired s).cyc :=
  interleave_cyc { s with acqs := s.acqs.tail, drawn := s.drawn + 1, tchGen := s.tchGen + 1, tch := .held (s.tchGen + 1) }

theorem acquireFailed_cyc (s : State) : s.cyc ≤ (acquireFailed s).cyc :=
  interleave_cyc { s with acqs := s.acqs.tail, drawn := s.drawn + 1 }

theorem beginPulse_cyc (high low : Nat) (blk : Bool) (s : State) : s.cyc ≤ (beginPulse high low blk s).state.cyc := by
  unfold beginPulse
  split
  · exact interleave_cyc s
  · split
    · exact (acquired_cyc s).trans (interleave_cyc (acquired s))
    · exact acquireFailed_cyc s

theorem awaitPulse_cyc (s : State) : s.cyc ≤ (awaitPulse s).state.cyc := by
  unfold awaitPulse
  split <;> exact interleave_cyc s

/-- A pulse leaves the configuration alone, however it comes out, and `CYC` does not go back. -/
theorem runActs_pulse_onlyPulses (high low : Nat) (blk : Bool) (s : State) :
    OnlyPulses s (runActs (pulseActs high low blk) s).state ∧ s.cyc ≤ (runActs (pulseActs high low blk) s).state.cyc := by
  refine runActs_induct (P := fun t => OnlyPulses s t ∧ s.cyc ≤ t.cyc) (fun a ha t h => ?_)
    (fun t h => ⟨h.1.trans (.of_eq ⟨rfl, rfl, rfl, rfl, rfl⟩ rfl rfl rfl rfl rfl), h.2⟩) s
    ⟨.of_eq ⟨rfl, rfl, rfl, rfl, rfl⟩ rfl rfl rfl rfl rfl, le_rfl⟩
  obtain ⟨hsame, hcyc⟩ := h
  obtain rfl | rfl : a = .beginPulse high low blk ∨ a = .awaitPulse := by
    cases blk <;> simp [pulseActs] at ha <;> tauto
  · exact ⟨hsame.trans (onlyPulses_beginPulse high low blk t), hcyc.trans (beginPulse_cyc high low blk t)⟩
  · exact ⟨hsame.trans (onlyPulses_awaitPulse t), hcyc.trans (awaitPulse_cyc t)⟩

theorem runActs_fixed (as : List Act) (s : State) : FixedData s (runActs as s).state :=
  runActs_induct (P := FixedData s) (fun a _ t h => h.trans (doAct_fixed a t)) (fun _ h => h) s
    ⟨rfl, rfl, rfl, rfl, rfl, rfl, rfl⟩

/-- A pulse adds its events to what was performed before it. -/
theorem Performed.pulse {s t u : State} {e : ConfigEffect} {high low : Nat} {blk : Bool} (h : Performed s e t)
    (hr : (Machine.runActs (pulseActs high low blk) t).state = u) {es : List Event} (htrace : seqTrace u = seqTrace t ++ es) :
    Performed s { e with events := e.events ++ es } u := by
  subst hr
  obtain ⟨⟨⟨hcfg, hpanel, hdata, hclk, hstr⟩, -, -, hfsm, -⟩, hcyc⟩ := runActs_pulse_onlyPulses high low blk t
  obtain ⟨hparams, -⟩ := runActs_fixed (pulseActs high low blk) t
  refine ⟨hparams.trans h.params, hcfg.trans h.cfg, ?_, hfsm.trans h.fsm, by rw [htrace, h.trace, List.append_assoc],
    h.cyc.trans hcyc⟩
  rw [hpanel, hdata, hclk, hstr]
  exact h.driven

/-- A blocking pulse between two parts. -/
theorem Scanned.pulse {k high low : Nat} {s t : State} {e : ScanEffect} (h : Scanned s e t) (hp : s.promptFor k)
    (hk : (e.add s (.pulse high low)).within s k) :
    ∃ u, runActs (pulseActs high low true) t = .done u ∧ Scanned s (e.add s (.pulse high low)) u := by
  obtain ⟨hdraws, hchannel⟩ := hk
  obtain ⟨hinst, hgen, hacq, hgets⟩ := h.nextPulse
  have hready := h.ready (j := 0 + 2 + (acquireEvents t).length) hp
    (by rw [ScanEffect.add_pulse_draws] at hdraws; rw [hacq]; omega)
  obtain ⟨u, hu, htch, htpr, hpq, hready', hugen, htrace, -, -, -, -, hbursts⟩ :=
    Ready.pulse (high := high) (low := low) (hgets (hchannel _ rfl)) (Nat.le_add_left 3 _) hready h.notFailed
  rw [hinst, hacq, List.append_assoc] at htrace
  refine ⟨u, hu, h.performed.pulse (congrArg ActResult.state hu) htrace, ?_, hready'.work, by simp [htpr],
    htch.trans (congrArg _ hinst), hugen.trans hgen, hpq, htpr⟩
  rw [hbursts, h.bursts, List.drop_drop, hacq, ScanEffect.add_pulse_draws]
  congr 1
  omega

/-- One part on prompt hardware is done, with its effect. -/
theorem Scanned.part {k : Nat} {p : Part} {s t : State} {e : ScanEffect} (h : Scanned s e t) (hok : p.ok = true)
    (hp : s.promptFor k) (hk : (e.add s p).within s k) : ∃ u, runActs p.acts t = .done u ∧ Scanned s (e.add s p) u := by
  cases p with
  | act a => exact h.act hok hp hk
  | pulse high low => exact h.pulse hp hk

/-- A micro-step on prompt hardware is done, with the effect of all its parts. -/
theorem Scanned.microStep {k : Nat} {parts : List Part} {s t : State} {e : ScanEffect} (h : Scanned s e t)
    (hok : ∀ p ∈ parts, p.ok = true) (hp : s.promptFor k) (hk : (parts.foldl (ScanEffect.add s) e).within s k) :
    ∃ u, runActs (microOf parts) t = .done u ∧ Scanned s (parts.foldl (ScanEffect.add s) e) u := by
  induction parts generalizing t e with
  | nil => exact ⟨t, rfl, h⟩
  | cons p parts ih =>
    obtain ⟨hpok, hok⟩ := List.forall_mem_cons.1 hok
    obtain ⟨u, hu, h⟩ := h.part hpok hp (ScanEffect.within_of_foldl hk)
    rw [microOf, List.flatMap_cons, runActs_append, hu]
    exact ih h hok hk

/-- Micro-steps on prompt hardware are done, with the effect of all their parts. -/
theorem Scanned.runSteps {k : Nat} {steps : List (List Part)} {rest : List MicroStep} {s t : State} {e : ScanEffect}
    (h : Scanned s e t) (hact : t.act = 0) (hok : ∀ p ∈ steps.flatten, p.ok = true) (hp : s.promptFor k)
    (hk : (steps.flatten.foldl (ScanEffect.add s) e).within s k) :
    ∃ u, runSteps (steps.map microOf ++ rest) t = runSteps rest u ∧ u.act = 0 ∧
      Scanned s (steps.flatten.foldl (ScanEffect.add s) e) u := by
  induction steps generalizing t e with
  | nil => exact ⟨t, rfl, hact, h⟩
  | cons m steps ih =>
    rw [List.flatten_cons, List.forall_mem_append] at hok
    rw [List.flatten_cons, List.foldl_append] at hk ⊢
    obtain ⟨u, hu, h⟩ := h.microStep hok.1 hp (ScanEffect.within_of_foldl hk)
    rw [List.map_cons, List.cons_append, Machine.runSteps, hact, List.drop_zero, hu]
    exact ih h.nextStep rfl hok.2 hk

/-- A command of parts that pulses, and commits its last update, completes on prompt hardware with the effect of them all:
the channel is held again and nothing is queued. -/
theorem exec_scan {i : Instr} {k draws cycles d : Nat} {steps : List (List Part)} {s : State} {c : Byte} {f : Fsm}
    {events : List Event} (h0 : s.atStart) (htpr : s.tpr = .none) (hp : s.promptFor k)
    (hi : microSteps i = steps.map microOf) (hok : ∀ p ∈ steps.flatten, p.ok = true)
    (he : scanEffect s steps.flatten = ⟨⟨c, some c, f, events, cycles⟩, draws, some d⟩) (hdraws : draws ≤ k)
    (hchannel : channelAfter d s) :
    ∃ t, exec i s = .next t ∧ endedWith .ok t ∧ t.fsm = f ∧ t.cfg = c ∧ t.panelCfg = some t.cfg ∧ linesAfterCommit t ∧
      t.tch = .held (nextInstance s) ∧ t.tchGen = genAfterPulse s ∧ t.pq = [] ∧ t.tpr = .none ∧
      seqTrace t = seqTrace s ++ events ++ [.ret .ok] := by
  have hwithin : (scanEffect s steps.flatten).within s k := by
    rw [he]
    exact ⟨hdraws, by rintro _ ⟨⟩; exact hchannel⟩
  obtain ⟨u, hu, -, h⟩ := (Scanned.start htpr).runSteps (rest := []) h0.2 hok hp hwithin
  rw [List.append_nil, runSteps] at hu
  rw [← scanEffect, he] at h
  obtain ⟨hperformed, -, -, -, htch, hgen, hupq, hutpr⟩ := h
  obtain ⟨hpq, hlatch⟩ := returnOk_quiet hupq
  obtain ⟨hpanel, hstr, hclk, hdata⟩ := hperformed.driven c rfl
  have hcfg : (returnOk u).cfg = c := hperformed.cfg
  refine ⟨returnOk u, by rw [exec_atStart h0, hi, hu], ⟨rfl, rfl⟩, hperformed.fsm, hcfg, ?_, ?_, htch, hgen, hpq,
    hlatch.trans hutpr, by rw [seqTrace_returnOk, hperformed.trace]⟩
  · rw [hcfg]; exact hpanel
  · rw [linesAfterCommit, hcfg]; exact ⟨hstr, hclk, hdata⟩

/-! ### A blocking pulse that fails behind parts that are done (43_frame_scan.md R120, R124) -/

/-- Behind the effect `e` a command's pulse has failed: the channel is dropped and nothing is queued
(41_timing_pulse.md R99). -/
structure ScanFailed (s : State) (e : ScanEffect) (t : State) : Prop where
  performed : Performed s e.config t
  tch : t.tch = .absent
  tchGen : t.tchGen = genAfterPulse s
  pq : t.pq = []
  tpr : t.tpr = .none

/-- Before a pulse whose look draws burst number `k`, `k` bursts are enough. -/
theorem ScanEffect.within_of_add_pulse {k high low : Nat} {s : State} {e : ScanEffect}
    (h : (e.add s (.pulse high low)).within s (k + 1)) : e.within s k := by
  refine ⟨?_, (within_of_add h).2⟩
  have hdraws := h.1
  rw [add_pulse_draws] at hdraws
  omega

/-- A blocking pulse between two parts, its waveform failing before the look. -/
theorem Scanned.pulse_fails {k w high low : Nat} {s t : State} {e : ScanEffect} (h : Scanned s e t)
    (hfails : s.failsAt k w) (hk : (e.add s (.pulse high low)).draws = k + 1)
    (hchannel : channelAfter (e.firstPulse.getD e.draws) s) (hw : w ≤ if high = 0 then 2 else 3) :
    ∃ u, runActs (pulseActs high low true) t = .error .transmit u ∧ ScanFailed s (e.add s (.pulse high low)) u := by
  obtain ⟨hp, moves, hmoves, hburst⟩ := hfails
  obtain ⟨hinst, hgen, hacq, hgets⟩ := h.nextPulse
  rw [ScanEffect.add_pulse_draws] at hk
  have hready := h.ready (j := 1 + (acquireEvents t).length) hp (by rw [hacq]; omega)
  have hnext : t.bursts[1 + (acquireEvents t).length]? = some moves := by
    rw [h.bursts, List.getElem?_drop, hacq, ← hmoves]
    congr 1
    omega
  obtain ⟨u, hu, htch, htpr, hpq, hugen, htrace, -⟩ :=
    Ready.pulse_fails (hgets hchannel) (Nat.le_add_left 3 _) hready h.notFailed hnext hburst hw
  rw [hinst, hacq, List.append_assoc] at htrace
  exact ⟨u, hu, h.performed.pulse (congrArg ActResult.state hu) htrace, htch, hugen.trans hgen, hpq, htpr⟩

/-- A command of parts that is prompt up to a pulse whose waveform fails ends there with Transmit, with the effect of the
parts so far. -/
theorem exec_scan_fails {i : Instr} {k w draws cycles d high low : Nat} {before after : List (List Part)}
    {parts rest : List Part} {s : State} {c : Byte} {events : List Event} (h0 : s.atStart) (htpr : s.tpr = .none)
    (hi : microSteps i = (before ++ (parts ++ .pulse high low :: rest) :: after).map microOf)
    (hok : ∀ p ∈ before.flatten ++ parts, p.ok = true)
    (he : scanEffect s (before.flatten ++ parts ++ [.pulse high low]) =
      ⟨⟨c, some c, s.fsm, events, cycles⟩, draws, some d⟩)
    (hchannel : channelAfter d s) (hfails : s.failsAt k w) (hdraws : draws = k + 1) (hw : w ≤ if high = 0 then 2 else 3) :
    ∃ t, exec i s = .next t ∧ endedWith .transmit t ∧ t.fsm = s.fsm ∧ t.cfg = c ∧ t.panelCfg = some t.cfg ∧
      t.tch = .absent ∧ t.tchGen = genAfterPulse s ∧ t.pq = [] ∧ t.tpr = .none ∧
      seqTrace t = seqTrace s ++ events ++ [.ret .transmit] := by
  rw [List.forall_mem_append] at hok
  rw [scanEffect, List.foldl_append, List.foldl_append, List.foldl_cons, List.foldl_nil] at he
  have hadded : (ScanEffect.add s (parts.foldl (ScanEffect.add s) (before.flatten.foldl (ScanEffect.add s) (.start s)))
      (.pulse high low)).within s (k + 1) := by
    rw [he]
    exact ⟨hdraws.le, by rintro _ ⟨⟩; exact hchannel⟩
  have hwithin := ScanEffect.within_of_add_pulse hadded
  obtain ⟨u, hu, hact, h⟩ := (Scanned.start htpr).runSteps
    (rest := microOf (parts ++ .pulse high low :: rest) :: after.map microOf) h0.2 hok.1 hfails.1
    (ScanEffect.within_of_foldl hwithin)
  obtain ⟨v, hv, h⟩ := h.microStep hok.2 hfails.1 hwithin
  obtain ⟨x, hx, h⟩ := h.pulse_fails hfails (by rw [he]; exact hdraws) (hadded.2 _ rfl) hw
  have hmicro : runActs (microOf (parts ++ .pulse high low :: rest)) u = .error .transmit x := by
    rw [microOf, List.flatMap_append, List.flatMap_cons, runActs_append, ← microOf, hv]
    dsimp only [Part.acts]
    rw [runActs_append, hx]
  rw [he] at h
  obtain ⟨hperformed, htch, hgen, hxpq, hxtpr⟩ := h
  obtain ⟨hpq, hlatch⟩ := raise_quiet .transmit hxpq
  have hcfg : (raise .transmit x).cfg = c := hperformed.cfg
  refine ⟨raise .transmit x, ?_, ⟨rfl, rfl⟩, hperformed.fsm, hcfg, ?_, htch, hgen, hpq, hlatch.trans hxtpr,
    by rw [seqTrace_raise, hperformed.trace]⟩
  · rw [exec_atStart h0, hi, List.map_append, List.map_cons, hu, runSteps, hact, List.drop_zero, hmicro]
  · rw [hcfg]; exact (hperformed.driven c rfl).1

/-! ### FRAME_START and FRAME_END (43_frame_scan.md R120, R124) -/

/-- FRAME_START's updates one after the other, as masks (R120). -/
theorem frameStart_masks (c : Byte) :
    CfgField.set .startOfFrame true ((c ||| 0x40) &&& ~~~0x10) = c ||| 0x50 ∧
    CfgField.set .outputEnable true (c ||| 0x50) = c ||| 0xD0 := by
  refine ⟨BitVec.eq_of_getLsbD_eq fun n hn => ?_, BitVec.or_assoc c 0x50 0x80⟩
  rw [CfgField.getLsbD_set _ _ _ hn]
  interval_cases n <;> simp [CfgField.bit]

/-- FRAME_START's parts up to each pulse and in all, the field updates read as masks (R120). -/
theorem scanEffect_frameStart (s : State) :
    let g := nextInstance s
    let a := (acquireEvents s).length
    let c0 := s.cfg ||| 0x40
    let c1 := c0 &&& ~~~0x10
    let c2 := s.cfg ||| 0x50
    let c3 := s.cfg ||| 0xD0
    let start0 := commitEvents c0 ++ acquireEvents s ++ [Event.tpIssue g 1 1 true]
    let start1 := start0 ++ commitEvents c1 ++ [Event.delay s.params.d3, .tpIssue g 10 10 true]
    let start2 := start1 ++ commitEvents c2 ++ [Event.tpIssue g 0 10 true]
    let start3 := start2 ++ commitEvents c3 ++ [Event.tpIssue g 1 1 true]
    scanEffect s (frameStartParts.flatten.take 3) = ⟨⟨c0, some c0, s.fsm, start0, 0⟩, 27 + a + 2, some 27⟩ ∧
    scanEffect s (frameStartParts.flatten.take 7) = ⟨⟨c1, some c1, s.fsm, start1, s.params.d3⟩, 27 + a + 32, some 27⟩ ∧
    scanEffect s (frameStartParts.flatten.take 10) = ⟨⟨c2, some c2, s.fsm, start2, s.params.d3⟩, 27 + a + 61, some 27⟩ ∧
    scanEffect s (frameStartParts.flatten.take 13) = ⟨⟨c3, some c3, s.fsm, start3, s.params.d3⟩, 27 + a + 90, some 27⟩ ∧
    scanEffect s frameStartParts.flatten = ⟨⟨c3, some c3, .frameActive, start3, s.params.d3⟩, 27 + a + 90, some 27⟩ := by
  have hpulse := fun es => List.append_assoc es (acquireEvents s) [.tpIssue (nextInstance s) 1 1 true]
  have hdelay := fun es => List.append_cons es (Event.delay s.params.d3) [Event.tpIssue (nextInstance s) 10 10 true]
  obtain ⟨hsof, hoe⟩ := frameStart_masks s.cfg
  simp only [← hoe, ← hsof, hpulse, hdelay]
  exact ⟨rfl, rfl, rfl, rfl, rfl⟩

/-- FRAME_END's parts up to each pulse and in all, the field updates read as masks (R124). -/
theorem scanEffect_frameEnd (s : State) :
    let g := nextInstance s
    let a := (acquireEvents s).length
    let c := s.cfg &&& ~~~0x80
    let e := c ||| 0x40
    let end2 := commitEvents c ++ commitEvents e ++ acquireEvents s ++ [Event.tpIssue g 10 10 true]
    scanEffect s (frameEndParts.flatten.take 5) = ⟨⟨e, some e, s.fsm, end2, 0⟩, 54 + a + 2, some 54⟩ ∧
    scanEffect s (frameEndParts.flatten.take 6) =
      ⟨⟨e, some e, s.fsm, end2 ++ [Event.tpIssue g 10 10 true], 0⟩, 54 + a + 4, some 54⟩ ∧
    scanEffect s frameEndParts.flatten =
      ⟨⟨e, some e, .idle, end2 ++ [Event.tpIssue g 10 10 true], 0⟩, 54 + a + 4, some 54⟩ := by
  have hpulse := fun es => List.append_assoc es (acquireEvents s) [.tpIssue (nextInstance s) 10 10 true]
  simp only [hpulse]
  exact ⟨rfl, rfl, rfl⟩

/-- Settles O32: FRAME_START is four micro-steps of parts, done one after the other on prompt hardware. -/
theorem frameStartCompletes : Obligations.FrameStartCompletes := by
  intro s h0 hchannel htpr hp g
  obtain ⟨-, -, -, -, he⟩ := scanEffect_frameStart s
  have hacq := acquireEvents_length_le s
  obtain ⟨t, hx, hend, hfsm, hcfg, hpanel, hlines, htch, hgen, hpq, hlatch, htrace⟩ :=
    exec_scan h0 htpr hp microSteps_frameStart (by decide) he (by omega) hchannel
  exact ⟨t, hx, hend, hfsm, hcfg, hpanel, hlines, htch, hgen, hpq, hlatch, by simpa using htrace⟩

/-- Settles O34: FRAME_END is four micro-steps of parts, done one after the other on prompt hardware. -/
theorem frameEndCompletes : Obligations.FrameEndCompletes := by
  intro s h0 hchannel htpr hp g
  obtain ⟨-, -, he⟩ := scanEffect_frameEnd s
  have hacq := acquireEvents_length_le s
  obtain ⟨t, hx, hend, hfsm, hcfg, hpanel, hlines, htch, hgen, hpq, hlatch, htrace⟩ :=
    exec_scan h0 htpr hp microSteps_frameEnd (by decide) he (by omega) hchannel
  exact ⟨t, hx, hend, hfsm, hcfg, hpanel, hlines, htch, hgen, hpq, hlatch, by simpa using htrace⟩

/-- One field update, committed, as actions of a micro-step. -/
def setCommit (f : CfgField) (b : Bool) (s : State) : State := nextAct (commit (nextAct (setField f b s)))

@[simp] theorem setCommit_cfg (f : CfgField) (b : Bool) (s : State) : (setCommit f b s).cfg = f.set b s.cfg := by
  simp [setCommit]

@[simp] theorem setCommit_panelCfg (f : CfgField) (b : Bool) (s : State) :
    (setCommit f b s).panelCfg = some (f.set b s.cfg) := by simp [setCommit]

@[simp] theorem setCommit_fsm (f : CfgField) (b : Bool) (s : State) : (setCommit f b s).fsm = s.fsm := by simp [setCommit]
@[simp] theorem setCommit_tch (f : CfgField) (b : Bool) (s : State) : (setCommit f b s).tch = s.tch := by simp [setCommit]
@[simp] theorem setCommit_tchGen (f : CfgField) (b : Bool) (s : State) : (setCommit f b s).tchGen = s.tchGen := by
  simp [setCommit]

@[simp] theorem setCommit_acqs (f : CfgField) (b : Bool) (s : State) : (setCommit f b s).acqs = s.acqs := by
  simp [setCommit]

@[simp] theorem setCommit_drawn (f : CfgField) (b : Bool) (s : State) : (setCommit f b s).drawn = s.drawn + 27 := by
  simp [setCommit]

@[simp] theorem seqTrace_setCommit (f : CfgField) (b : Bool) (s : State) :
    seqTrace (setCommit f b s) = seqTrace s ++ commitEvents (f.set b s.cfg) := by simp [setCommit]

theorem runActs_setCommit (f : CfgField) (b : Bool) (as : List Act) (s : State) :
    runActs (.set f b :: .commit :: as) s = runActs as (setCommit f b s) := rfl

/-- FRAME_START whose acquisition fails has made its first commit (R120). -/
theorem exec_frameStart_acquireFailed {s : State} (h0 : s.atStart) (htch : s.tch = .absent)
    (hacq : acqAfter 27 s = false) :
    exec .frameStart s = .next (raise .channelUnavailable (acquireFailed (setCommit .mode true s))) := by
  have hpulse := runActs_pulse_acquireFailed (s := setCommit .mode true s) (by simpa using htch)
    (by simpa [nextAcq, acqAfter] using hacq) 1 1 true
  rw [exec_atStart h0]
  simp [microSteps, frameStartSteps, runSteps, h0.2, runActs_setCommit, hpulse]

/-- FRAME_END whose acquisition fails has made both its commits (R124). -/
theorem exec_frameEnd_acquireFailed {s : State} (h0 : s.atStart) (htch : s.tch = .absent)
    (hacq : acqAfter 54 s = false) :
    exec .frameEnd s = .next (raise .channelUnavailable
      (acquireFailed (nextStep (setCommit .mode true (nextStep (setCommit .outputEnable false s)))))) := by
  have hpulse := runActs_pulse_acquireFailed
    (s := nextStep (setCommit .mode true (nextStep (setCommit .outputEnable false s)))) (by simpa using htch)
    (by simpa [nextAcq, acqAfter] using hacq) 10 10 true
  rw [exec_atStart h0]
  simp [microSteps, frameEndSteps, runSteps, h0.2, runActs_setCommit, runActs, hpulse]

/-- Settles O33: the first pulse errs at its acquisition, behind commits alone; and any pulse, behind parts that are done
on prompt hardware, errs with its waveform. -/
theorem frameScanFails : Obligations.FrameScanFails := by
  refine ⟨fun s h0 htch hacq => ?_, fun s h0 htch hacq => ?_, ?_⟩
  · have hagents : AgentsOnly s (setCommit .mode true s) := agentsOnly_setCommit .mode true s
    exact ⟨_, exec_frameStart_acquireFailed h0 htch hacq, ⟨rfl, rfl⟩, by simp, by simp; rfl, by simp,
      by simpa using htch, by simp, (hagents.trans (agentsOnly_acquireFailed _)).trans (agentsOnly_raise _ _),
      by simp; rfl⟩
  · have hagents : AgentsOnly s (nextStep (setCommit .mode true (nextStep (setCommit .outputEnable false s)))) :=
      (((agentsOnly_setCommit .outputEnable false s).trans (agentsOnly_nextStep _)).trans
        (agentsOnly_setCommit .mode true _)).trans (agentsOnly_nextStep _)
    exact ⟨_, exec_frameEnd_acquireFailed h0 htch hacq, ⟨rfl, rfl⟩, by simp, by simp; rfl, by simp,
      by simpa using htch, by simp, (hagents.trans (agentsOnly_acquireFailed _)).trans (agentsOnly_raise _ _),
      by simp; rfl⟩
  · intro s h0 htpr g a failed c0 start0 start1 start2 start3 e end2
    obtain ⟨he0, he1, he2, he3, -⟩ := scanEffect_frameStart s
    obtain ⟨he4, he5, -⟩ := scanEffect_frameEnd s
    refine ⟨fun hchannel => ?_, fun hchannel => ?_⟩
    · refine List.forall_mem_cons.2 ⟨fun hfails => ?_, List.forall_mem_cons.2 ⟨fun hfails => ?_,
        List.forall_mem_cons.2 ⟨fun hfails => ?_, List.forall_mem_cons.2 ⟨fun hfails => ?_, List.forall_mem_nil _⟩⟩⟩⟩
      · exact exec_scan_fails (before := []) (parts := [.act (.set .mode true), .act .commit]) h0 htpr
          microSteps_frameStart (by decide) he0 hchannel hfails (by dsimp only; omega) le_rfl
      · exact exec_scan_fails (before := frameStartParts.take 1)
          (parts := [.act (.set .startOfFrame false), .act .commit, .act (.delay .d3)]) h0 htpr
          microSteps_frameStart (by decide) he1 hchannel hfails (by dsimp only; omega) le_rfl
      · exact exec_scan_fails (before := frameStartParts.take 2)
          (parts := [.act (.set .startOfFrame true), .act .commit]) h0 htpr
          microSteps_frameStart (by decide) he2 hchannel hfails (by dsimp only; omega) le_rfl
      · exact exec_scan_fails (before := frameStartParts.take 3)
          (parts := [.act (.set .outputEnable true), .act .commit]) h0 htpr
          microSteps_frameStart (by decide) he3 hchannel hfails (by dsimp only; omega) le_rfl
    · refine List.forall_mem_cons.2 ⟨fun hfails => ?_, List.forall_mem_cons.2 ⟨fun hfails => ?_, List.forall_mem_nil _⟩⟩
      · exact exec_scan_fails (before := frameEndParts.take 2) (parts := []) h0 htpr
          microSteps_frameEnd (by decide) he4 hchannel hfails (by dsimp only; omega) le_rfl
      · exact exec_scan_fails (before := frameEndParts.take 3) (parts := []) h0 htpr
          microSteps_frameEnd (by decide) he5 hchannel hfails (by dsimp only; omega) le_rfl

end Sys2Proof.Machine

namespace Sys2Proof.Machine

/-! ### The transfer slot along a command (44_row_output.md R131 to R134) -/

/-- The slot is held by SEQ, and no transfer is out (R133). -/
def SlotFree (s : State) : Prop := s.tr = .held ∧ s.xf = .none

/-- The slot is taken by a transfer of the whole buffer, under way or over (R134). -/
def SlotTaken (s : State) : Prop := s.tr = .absent ∧ transferGoesOn (rowData s) s.xf

theorem rowData_length (s : State) : (rowData s).length = s.params.rowWidth := by simp [rowData]

/-- A transfer of the whole buffer, as the arbiter invariant puts it (R134). -/
theorem transferGoesOn_rowData_iff {s : State} : transferGoesOn (rowData s) s.xf ↔
    s.xf ≠ .none ∧ ∀ data sent, s.xf = .active data sent → data = rowData s ∧ sent ≤ s.params.rowWidth := by
  cases hx : s.xf with
  | none => simp [transferGoesOn]
  | active data sent =>
    constructor
    · rintro (⟨k, ⟨⟩, hle⟩ | ⟨ok, ⟨⟩⟩)
      refine ⟨nofun, ?_⟩
      rintro _ _ ⟨⟩
      exact ⟨rfl, rowData_length s ▸ hle⟩
    · rintro ⟨-, h⟩
      obtain ⟨rfl, hle⟩ := h data sent rfl
      exact .inl ⟨sent, rfl, (rowData_length s).symm ▸ hle⟩
  | ended ok => simp [transferGoesOn]

/-- The invariant by cases: after a failed reset nothing is there; else the slot is free, or taken by the OUTPUT_ROW that
waits (R133). -/
theorem arbiterInv_iff {s : State} : ArbiterInv s ↔
    (s.initFail = true ∧ s.tr = .absent ∧ s.busy = false ∧ s.xf = .none) ∨
      s.initFail = false ∧
        (SlotFree s ∨ s.busy = true ∧ s.op = 7 ∧ s.step = 6 ∧ s.act = 0 ∧ SlotTaken s) := by
  rw [SlotTaken, transferGoesOn_rowData_iff]
  unfold ArbiterInv SlotFree
  cases hf : s.initFail with
  | true =>
    cases ht : s.tr with
    | absent => simp +contextual [iff_def]
    | held => simp
  | false =>
    cases ht : s.tr with
    | absent => simp [and_assoc]
    | held => simp +contextual [iff_def]

theorem ArbiterInv.of_free {s : State} (hf : s.initFail = false) (h : SlotFree s) : ArbiterInv s :=
  arbiterInv_iff.2 (.inr ⟨hf, .inl h⟩)

/-- While no command runs, no transfer is out, and the slot is free unless the reset failed (R133). -/
theorem ArbiterInv.idle {s : State} (h : ArbiterInv s) (hb : s.busy = false) :
    s.xf = .none ∧ (s.initFail = false → SlotFree s) := by
  obtain ⟨hf, -, -, hx⟩ | ⟨-, ⟨ht, hx⟩ | ⟨hb', -⟩⟩ := arbiterInv_iff.1 h
  · exact ⟨hx, fun hf' => nomatch hf.symm.trans hf'⟩
  · exact ⟨hx, fun _ => ⟨ht, hx⟩⟩
  · cases hb.symm.trans hb'

/-- Without a transfer out, only the slot, BUSY and INIT_FAIL matter. -/
theorem ArbiterInv.of_eq {s t : State} (h : ArbiterInv s) (hb : s.busy = false) (hb' : t.busy = false)
    (hf : t.initFail = s.initFail) (ht : t.tr = s.tr) (hx : t.xf = .none) : ArbiterInv t := by
  obtain ⟨hfs, hts, -⟩ | ⟨hfs, ⟨hts, -⟩ | ⟨hbs, -⟩⟩ := arbiterInv_iff.1 h
  · exact arbiterInv_iff.2 (.inl ⟨hf.trans hfs, ht.trans hts, hb', hx⟩)
  · exact .of_free (hf.trans hfs) ⟨ht.trans hts, hx⟩
  · cases hb.symm.trans hbs

theorem SlotFree.interleave {s : State} (h : SlotFree s) : SlotFree (interleave s) :=
  ⟨h.1, (interleave_xf_none s h.2).1⟩

theorem SlotFree.returnOk {s : State} (h : SlotFree s) : SlotFree (returnOk s) := ⟨h.1, h.interleave.2⟩

theorem SlotFree.raise {s : State} (c : Cause) (h : SlotFree s) : SlotFree (raise c s) := ⟨h.1, h.interleave.2⟩

theorem slotFree_putSlot (s : State) : SlotFree (putSlot s) := ⟨rfl, rfl⟩

theorem SlotTaken.interleave {s : State} (h : SlotTaken s) : SlotTaken (interleave s) :=
  ⟨h.1, interleave_xf_active s (rowData s) h.2⟩

/-- An issue takes the slot for the whole buffer (R131, R134). -/
theorem slotTaken_issueTransfer (s : State) : SlotTaken (issueTransfer s) :=
  ⟨rfl, .inl ⟨0, rfl, Nat.zero_le _⟩⟩

/-- Only the issue takes the slot. -/
theorem SlotFree.doAct {a : Act} {s : State} (ha : a ≠ .issueTransfer) (h : SlotFree s) : SlotFree (doAct a s).state := by
  cases a with
  | issueTransfer => exact absurd rfl ha
  | commit => exact ⟨(commit_tr s).trans h.1, ((agentsOnly_commit s).xf_none h.2).1⟩
  | delay d => exact h.interleave
  | beginPulse high low blk =>
    have hpulse := onlyPulses_beginPulse high low blk s
    exact ⟨hpulse.tr.trans h.1, (hpulse.noTransfer h.2).1⟩
  | awaitPulse =>
    have hpulse := onlyPulses_awaitPulse s
    exact ⟨hpulse.tr.trans h.1, (hpulse.noTransfer h.2).1⟩
  | checkSlot => simp only [Machine.doAct, checkSlot]; split <;> exact h
  | collectTransfer =>
    rw [Machine.doAct, collectTransfer, h.interleave.2]
    exact h.interleave
  | _ => exact h

/-- A collection puts the slot back, whatever the outcome of the transfer, or is held (R132, R138). -/
theorem collectTransfer_slot (s : State) :
    SlotFree (collectTransfer s).state ∨ collectTransfer s = .hold (interleave s) := by
  unfold collectTransfer
  split
  · exact .inl (slotFree_putSlot _)
  · exact .inl (slotFree_putSlot _)
  · exact .inr rfl
  · exact .inr rfl

/-- With `as` of command `i` left to do, the slot is free; or only the collection is left, and the slot is taken. -/
def SlotStands (i : Instr) (as : List Act) (s : State) : Prop :=
  as <:+ (microSteps i).flatten ∧ (SlotFree s ∨ as = [.collectTransfer] ∧ SlotTaken s)

/-- The issue is OUTPUT_ROW's last action but one, before the collection (R138). -/
theorem issueTransfer_suffix {i : Instr} {as : List Act} (h : .issueTransfer :: as <:+ (microSteps i).flatten) :
    as = [.collectTransfer] := by
  rw [← List.mem_tails] at h
  cases i with
  | outputRow d l => simpa [microSteps, outputRowSteps, latchRowSteps, pulseActs] using h
  | pulse high low blk => cases blk <;> simp [microSteps, pulseSteps, pulseActs] at h
  | _ =>
    simp [microSteps, writeSteps, powerOnSteps, powerOffSteps, frameStartSteps, latchRowSteps, skipSteps, frameEndSteps,
      pulseActs] at h

/-- An action leaves the slot free, takes it with only the collection left, or is the collection, held. -/
theorem SlotStands.act {i : Instr} {a : Act} {as : List Act} {s : State} (h : SlotStands i (a :: as) s) :
    SlotFree (doAct a s).state ∨
      (∃ t, doAct a s = .done t ∧ as = [.collectTransfer] ∧ SlotTaken t) ∨
      ∃ t, doAct a s = .hold t ∧ a :: as = [.collectTransfer] ∧ SlotTaken t := by
  obtain ⟨hsuffix, hfree | ⟨e, htaken⟩⟩ := h
  · by_cases ha : a = .issueTransfer
    · subst ha
      exact .inr (.inl ⟨_, rfl, issueTransfer_suffix hsuffix, slotTaken_issueTransfer s⟩)
    · exact .inl (hfree.doAct ha)
  · cases e
    obtain hfree | hheld := collectTransfer_slot s
    · exact .inl hfree
    · exact .inr (.inr ⟨_, hheld, rfl, htaken.interleave⟩)

theorem SlotStands.done {i : Instr} {a : Act} {as : List Act} {s t : State} (h : SlotStands i (a :: as) s)
    (hd : doAct a s = .done t) : SlotStands i as (nextAct t) := by
  refine ⟨(List.suffix_cons a as).trans h.1, ?_⟩
  obtain hfree | ⟨u, e, has, htaken⟩ | ⟨u, e, -⟩ := h.act
  · rw [hd] at hfree
    exact .inl hfree
  · cases hd.symm.trans e
    exact .inr ⟨has, htaken⟩
  · cases hd.symm.trans e

theorem SlotStands.held {i : Instr} {a : Act} {as : List Act} {s t : State} (h : SlotStands i (a :: as) s)
    (hd : doAct a s = .hold t) : SlotStands i (a :: as) t := by
  refine ⟨h.1, ?_⟩
  obtain hfree | ⟨u, e, -⟩ | ⟨u, e, has, htaken⟩ := h.act
  · rw [hd] at hfree
    exact .inl hfree
  · cases hd.symm.trans e
  · cases hd.symm.trans e
    exact .inr ⟨has, htaken⟩

theorem SlotStands.free_of_error {i : Instr} {a : Act} {as : List Act} {s t : State} {c : Cause}
    (h : SlotStands i (a :: as) s) (hd : doAct a s = .error c t) : SlotFree t := by
  obtain hfree | ⟨u, e, -⟩ | ⟨u, e, -⟩ := h.act
  · rwa [hd] at hfree
  · cases hd.symm.trans e
  · cases hd.symm.trans e

/-- The latches of a command in progress are its fields (30_encoding.md R62). -/
theorem State.current_fields {s : State} {i : Instr} (h : s.current = some i) :
    i.fields = ⟨s.op, s.blk, 0, s.a, s.b⟩ := by
  unfold State.current at h
  cases hd : decode (Fields.word ⟨s.op, s.blk, 0, s.a, s.b⟩) with
  | error e =>
    rw [hd] at h
    cases h
  | ok j =>
    rw [hd] at h
    cases h
    exact (decode_ok hd).trans (fields_word _)

/-- OUTPUT_ROW alone has operation 7 (30_encoding.md R61). -/
theorem State.current_op_iff {s : State} {i : Instr} (h : s.current = some i) :
    s.op = 7 ↔ ∃ d l, i = .outputRow d l := by
  have hop : s.op = i.fields.op := by rw [State.current_fields h]
  rw [hop]
  cases i <;> simp [Instr.fields]

/-- A command that starts with the slot as it needs it ends with the slot free, or waits with the slot as the invariant
says. -/
theorem arbiterInv_exec {i : Instr} {s t : State} (hf : s.initFail = false) (hb : s.busy = true) (hi : s.current = some i)
    (hx : exec i s = .next t) (hs : SlotStands i (actsLeft ((microSteps i).drop s.step) s.act) s) : ArbiterInv t := by
  have hcur : t.current = some i := (exec_fixed hx).current.trans hi
  obtain ⟨-, -, -, -, -, hinit, -⟩ := exec_fixed hx
  rw [hf] at hinit
  obtain ⟨-, hfree⟩ | ⟨hbusy, hstands⟩ :=
    exec_outcome (P := SlotStands i) (Q := SlotFree) (fun _ _ _ _ h hd => h.done hd) (fun _ _ _ _ h hd => h.held hd)
      (fun _ _ h => h) (fun _ h => (h.2.resolve_right (by simp)).returnOk)
      (fun _ _ _ _ _ h hd => (h.free_of_error hd).raise _) hx hs
  · exact .of_free hinit hfree
  · rw [hb] at hbusy
    obtain ⟨-, hfree | ⟨hleft, htaken⟩⟩ := hstands
    · exact .of_free hinit hfree
    · have hat : actAt i t = some .collectTransfer := by
        obtain hend | ⟨-, hat | hat⟩ := exec_ends hb hx
        · cases hend.symm.trans hbusy
        · have := actsLeft_head hat
          rw [hleft] at this
          cases this
        · exact hat
      obtain ⟨hrow, hstep, hact⟩ := actAt_collectTransfer_iff.1 hat
      exact arbiterInv_iff.2 (.inr ⟨hinit, .inr ⟨hbusy, (State.current_op_iff hcur).2 hrow, hstep, hact, htaken⟩⟩)

theorem ArbiterInv.resume {i : Instr} {s t : State} (h : ArbiterInv s) (hb : s.busy = true) (hi : s.current = some i)
    (hx : exec i s = .next t) : ArbiterInv t := by
  have hsuffix : actsLeft ((microSteps i).drop s.step) s.act <:+ (microSteps i).flatten :=
    (actsLeft_suffix _ _).trans (List.drop_suffix _ _).flatten
  obtain ⟨-, -, hidle, -⟩ | ⟨hf, hfree | ⟨-, hop, hstep, hact, htaken⟩⟩ := arbiterInv_iff.1 h
  · cases hb.symm.trans hidle
  · exact arbiterInv_exec hf hb hi hx ⟨hsuffix, .inl hfree⟩
  · obtain ⟨d, l, rfl⟩ := (State.current_op_iff hi).1 hop
    refine arbiterInv_exec hf hb hi hx ⟨hsuffix, .inr ⟨?_, htaken⟩⟩
    rw [hstep, hact]
    rfl

theorem SlotFree.accept {s : State} (w : Word) (h : SlotFree s) : SlotFree (accept w s) :=
  ⟨h.1, accept_xf_none w h.2⟩

/-- Settles O56: along a command the slot is free but between OUTPUT_ROW's issue and its put, and outside commands no
transfer is out. -/
theorem stepKeepsArbiterInv : Obligations.StepKeepsArbiterInv := by
  intro s t h hs
  have hidle : ∀ {u : State}, s.busy = false → AgentsOnly s u → u.busy = s.busy → u.initFail = s.initFail →
      u.tr = s.tr → ArbiterInv u := fun hb ha hb' hf ht =>
    h.of_eq hb (hb'.trans hb) hf ht (ha.xf_none (h.idle hb).1).1
  cases step_next hs with
  | resumed hb hi hx => exact h.resume hb hi hx
  | @accepted w rest i _ hb hf hq hd hw hx =>
    have hfree : SlotFree { s with hostq := rest } := (h.idle hb).2 hf
    refine arbiterInv_exec (s := accept w { s with hostq := rest }) hf rfl (accept_current hd) hx
      ⟨?_, .inl (hfree.accept w)⟩
    exact (actsLeft_suffix _ _).trans (List.drop_suffix _ _).flatten
  | idle hb hq => exact hidle hb (agentsOnly_interleave s) rfl rfl rfl
  | @ignored rest hb => exact hidle hb (seqStill_beforeAccess s rest).1 rfl rfl rfl
  | @stored rest i v hb hi => exact hidle hb (seqStill_beforeAccess s rest).1 rfl rfl rfl
  | @read rest reads hb => exact hidle hb (seqStill_beforeAccess s rest).1 rfl rfl rfl
  | @reset d rest reads bursts acqs drawn filled hb =>
    refine arbiterInv_iff.2 ?_
    cases hd : d.initOk <;> simp [State.afterReset, SlotFree, hd]

/-! ### The assertion at the put (44_row_output.md R132) -/

/-- The assertion fails at OUTPUT_ROW's put alone: the transfer is over, and the slot is held already. -/
theorem putsIntoHeld_iff {s : State} :
    putsIntoHeld s = true ↔ s.step = 6 ∧ s.act = 0 ∧ s.tr = .held ∧ ∃ ok, (interleave s).xf = .ended ok := by
  cases hx : (interleave s).xf <;> simp [putsIntoHeld, hx, and_assoc]

/-- A command faults only by this assertion, which OUTPUT_ROW alone makes (decision D27). -/
theorem exec_fault_iff {i : Instr} {s : State} {f : Fault} :
    exec i s = .fault f ↔ f = .putIntoHeldSlot ∧ (∃ d l, i = .outputRow d l) ∧ putsIntoHeld s = true := by
  cases i with
  | outputRow d l => cases hp : putsIntoHeld s <;> simp [exec, execOutputRow, hp, eq_comm]
  | _ =>
    simp [exec, execWrite, execPulse, execPowerOn, execPowerOff, execFrameStart, execLatchRow, execSkip, execFrameEnd]

/-- Under the arbiter invariant no transfer is over while the slot is held (R133). -/
theorem ArbiterInv.not_putsIntoHeld {s : State} (h : ArbiterInv s) : putsIntoHeld s ≠ true := by
  intro hp
  obtain ⟨-, -, htr, ok, hx⟩ := putsIntoHeld_iff.1 hp
  obtain ⟨-, -, hfree, -⟩ := h
  cases hx.symm.trans (interleave_xf_none s (hfree htr)).1

/-- A command just accepted does not fault. -/
theorem submitCommand_ne_fault (w : Word) (s : State) (f : Fault) : submitCommand w s ≠ .fault f := by
  unfold submitCommand
  split
  · split
    · rw [exec_atStart ⟨accept_step w s, accept_act w s⟩]
      exact nofun
    · exact nofun
  · exact nofun

theorem hostRead_ne_fault (offset width : Nat) (s : State) (f : Fault) : hostRead offset width s ≠ .fault f := by
  unfold hostRead
  split <;> exact nofun

theorem hostWrite_ne_fault (offset width : Nat) (v : Word) (s : State) (f : Fault) :
    hostWrite offset width v s ≠ .fault f := by
  unfold hostWrite
  split
  · split
    · exact nofun
    · exact submitCommand_ne_fault v s f
  all_goals exact nofun

theorem hostStep_ne_fault (op : HostOp) (s : State) (f : Fault) : hostStep op s ≠ .fault f := by
  cases op with
  | read offset width => exact hostRead_ne_fault offset width s f
  | write offset width v => exact hostWrite_ne_fault offset width v s f
  | reset d => simp only [hostStep, hostReset]; split <;> exact nofun
  | awaitIdle => exact nofun

theorem resume_ne_fault {s : State} {f : Fault} (hc : ∃ i, s.current = some i) (ha : ArbiterInv s) :
    resume s ≠ .fault f := by
  obtain ⟨i, hi⟩ := hc
  rw [resume, hi]
  exact fun hx => ha.not_putsIntoHeld (exec_fault_iff.1 hx).2.2

/-- Settles O60: a command in progress is one the latches hold, and no other step can fault. -/
theorem stepNeverFaults : Obligations.StepNeverFaults := by
  intro s f hc ha
  unfold step advance
  split
  · next hb =>
    split
    · exact nofun
    · obtain ⟨⟨i, hi, -⟩, -⟩ := hc hb
      exact resume_ne_fault ⟨i, hi⟩ ha
  · split
    · exact nofun
    · exact hostStep_ne_fault _ _ f

end Sys2Proof.Machine

namespace Sys2Proof.Machine

/-! ### The copy of a row (44_row_output.md R137) -/

theorem rowByte_of_read {s : State} {len i : Nat} {v : Byte} (hi : i < len) (h : s.rsrc.read i = some v) :
    rowByte s len i = v := by
  simp [rowByte, hi, rsrcByte, h]

theorem rowByte_of_le {s : State} {len i : Nat} (hi : len ≤ i) : rowByte s len i = 0 := if_neg (Nat.not_lt.2 hi)

/-- The copy writes every byte of the buffer. -/
theorem tbufRead_copyRow {s : State} {m : Memory} (hm : s.tbuf = some m) (len : Nat) {i : Nat}
    (hi : i < s.params.rowWidth) : tbufRead (copyRow len s) i = some (rowByte s len i) := by
  simp [tbufRead, hm, fillBelow_read, hi]

/-- The copy stays within the buffer. -/
theorem tbufRead_copyRow_of_le (len : Nat) {s : State} {i : Nat} (hi : s.params.rowWidth ≤ i) :
    tbufRead (copyRow len s) i = tbufRead s i := by
  cases hm : s.tbuf <;> simp [tbufRead, hm, fillBelow_read, Nat.not_lt.2 hi]

/-- Settles O37: the copy is a fill with the row's bytes and zeros. -/
theorem copyZeroFillsRow : Obligations.CopyZeroFillsRow := by
  intro s len m hm hlen
  refine ⟨fun i hi v hv => ?_, fun i hi => ?_, fun i hi hw => ?_, fun i hi => tbufRead_copyRow_of_le len hi, rfl⟩
  · rw [tbufRead_copyRow hm len (by omega), rowByte_of_read hi hv]
  · rw [tbufRead_copyRow hm len (by omega)]
    exact nofun
  · rw [tbufRead_copyRow hm len hw, rowByte_of_le hi]

/-! ### XFR's steps (44_row_output.md R135, R136) -/

/-- The devices `k` beats into a transfer of `data` that was begun at `d`, with the level the bus lines are at. -/
def Devices.afterBeats (d : Devices) (data : List Byte) (k : Nat) (bus : Byte) : Devices :=
  { d with xf := .active data k, bus := bus, trace := d.trace ++ (beatEvents data).take k }

theorem xfrGo_afterBeats {data : List Byte} {k : Nat} {v : Byte} (hv : data[k]? = some v) (idle bus : Byte) (d : Devices) :
    xfrGo idle (d.afterBeats data k bus) = d.afterBeats data (k + 1) v := by
  simp [xfrGo, Devices.afterBeats, hv, beatEvents_take data k v hv]

theorem take_beatEvents_length (data : List Byte) : (beatEvents data).take data.length = beatEvents data :=
  List.take_of_length_le (by simp [beatEvents])

/-- After as many beats as bytes the transfer ends (R136). -/
theorem xfrGo_afterBeats_length (data : List Byte) (idle bus : Byte) (d : Devices) :
    xfrGo idle (d.afterBeats data data.length bus) =
      { d with xf := .ended true, bus := idle, trace := d.trace ++ beatEvents data ++ [.xfEnd true] } := by
  simp [xfrGo, Devices.afterBeats, take_beatEvents_length]

theorem runMoves_replicate_succ (st rs : Word) (m : Move) (k : Nat) (d : Devices) :
    runMoves st rs (List.replicate (k + 1) m) d = moveDevices st rs m (runMoves st rs (List.replicate k m) d) := by
  rw [List.replicate_succ', runMoves_append]
  rfl

/-- Beats send the bytes one by one, and the last one sent stands on the bus. -/
theorem runMoves_xfr (st rs : Word) (idle : Byte) {data : List Byte} {d : Devices} (hd : d.xf = .active data 0) {k : Nat}
    (hk : k ≤ data.length) :
    ∃ bus, runMoves st rs (List.replicate k (.xfr idle)) d = d.afterBeats data k bus ∧
      ∀ j, k = j + 1 → data[j]? = some bus := by
  induction k with
  | zero => exact ⟨d.bus, by simp [Devices.afterBeats, ← hd], nofun⟩
  | succ k ih =>
    obtain ⟨bus, h, -⟩ := ih (Nat.le_of_succ_le hk)
    have hv : data[k]? = some data[k] := List.getElem?_eq_getElem hk
    refine ⟨data[k], ?_, ?_⟩
    · rw [runMoves_replicate_succ, h]
      exact xfrGo_afterBeats hv idle bus d
    · rintro j ⟨⟩
      exact hv

/-- Settles O42: by induction on the beats, and one step more for the end or the failure. -/
theorem xfrSendsBytesInOrder : Obligations.XfrSendsBytesInOrder := by
  intro st rs idle data d hd after
  have hafter : ∀ {k}, k ≤ data.length → ∃ bus, after k = d.afterBeats data k bus ∧
      ∀ j, k = j + 1 → data[j]? = some bus := fun hk => runMoves_xfr st rs idle hd hk
  refine ⟨fun k hk => ⟨?_, fun level => ?_⟩, fun k hk => ?_, ?_⟩
  · obtain ⟨bus, h, -⟩ := hafter hk
    rw [h]
    rfl
  · obtain ⟨bus, h, -⟩ := hafter hk
    have hfail : runMoves st rs (List.replicate k (.xfr idle) ++ [.xfrFail level]) d = xfrFail level (after k) :=
      runMoves_append st rs _ _ d
    rw [hfail, h]
    rfl
  · obtain ⟨bus, h, hbus⟩ := hafter (Nat.succ_le_of_lt hk)
    rw [h, hbus k rfl]
    rfl
  · obtain ⟨bus, h, -⟩ := hafter le_rfl
    have hend : after (data.length + 1) = xfrGo idle (after data.length) := runMoves_replicate_succ st rs _ _ d
    rw [hend, h, xfrGo_afterBeats_length]

/-! ### OUTPUT_ROW's put (44_row_output.md R132, R138, R139) -/

/-- OUTPUT_ROW with its transfer over, its slot taken: the put, and the exit that the transfer's outcome asks for. -/
theorem exec_collectTransfer_puts {s : State} {d l : Operand} {ok : Bool}
    (hat : actAt (.outputRow d l) s = some .collectTransfer) (htr : s.tr = .absent) (hx : (interleave s).xf = .ended ok) :
    exec (.outputRow d l) s = .next (if ok then returnOk (nextStep (nextAct (putSlot (interleave s))))
      else raise .transferError (putSlot (interleave s))) := by
  obtain ⟨-, hstep, hact⟩ := actAt_collectTransfer_iff.1 hat
  have hp : putsIntoHeld s = false := by
    rw [← Bool.not_eq_true, putsIntoHeld_iff]
    simp [htr]
  have hsteps : (microSteps (.outputRow d l)).drop s.step = [[.collectTransfer]] := by rw [hstep]; rfl
  rw [exec_eq_next hp, runCommand, hsteps]
  cases ok <;> simp [runSteps, hact, runActs, doAct, collectTransfer, hx]

/-- Settles O41: both exits come behind the put, and the one fault is the assertion before it. -/
theorem outputRowPutsBack : Obligations.OutputRowPutsBack := by
  constructor
  · intro s d l ok hat htr hx
    have hx' := exec_collectTransfer_puts hat htr hx
    cases ok with
    | true =>
      have hfree : SlotFree (returnOk (nextStep (nextAct (putSlot (interleave s))))) :=
        SlotFree.returnOk (slotFree_putSlot (interleave s))
      exact ⟨_, hx', ⟨rfl, rfl⟩, hfree.1, hfree.2, by simp, by simp [SameConfig], by simp [SameChannel],
        by simp [tbufRead], by simp⟩
    | false =>
      have hfree : SlotFree (raise .transferError (putSlot (interleave s))) :=
        (slotFree_putSlot (interleave s)).raise .transferError
      exact ⟨_, hx', ⟨rfl, rfl⟩, hfree.1, hfree.2, by simp, by simp [SameConfig], by simp [SameChannel],
        by simp [tbufRead], by simp⟩
  · intro s d l f
    rw [exec_fault_iff, putsIntoHeld_iff, actAt_collectTransfer_iff]
    tauto

/-! ### The frame of OUTPUT_ROW (44_row_output.md R137, R138) -/

/-- OUTPUT_ROW writes neither FSM nor any field but `latch_enable` (R138). -/
theorem outputRow_acts (d l : Operand) {a : Act} (ha : a ∈ (microSteps (.outputRow d l)).flatten) :
    (∀ f, a.fsmAfter f = f) ∧ ∀ g, g ≠ .latchEnable → ∀ b, a ≠ .set g b := by
  have hacts : (microSteps (.outputRow d l)).flatten = [.set .latchEnable true, .commit, .set .latchEnable false, .commit,
    .beginPulse (zext d) 50 false, .checkSlot, .copyRow (zext l), .issueTransfer, .collectTransfer] := rfl
  rw [hacts] at ha
  simp only [List.mem_cons, List.not_mem_nil, or_false] at ha
  obtain rfl | rfl | rfl | rfl | rfl | rfl | rfl | rfl | rfl := ha <;>
    refine ⟨fun _ => rfl, fun g hg b => ?_⟩ <;> simp [Ne.symm hg]

theorem exec_outputRow_fsm {d l : Operand} {s t : State} (hx : exec (.outputRow d l) s = .next t) : t.fsm = s.fsm :=
  exec_induct (P := fun t => t.fsm = s.fsm) hx
    (fun a ha u h => by rw [doAct_fsm, (outputRow_acts d l ha).1, h]) (fun _ h => h) (fun _ h => h) (fun _ _ h => h)
    (fun _ h => h) rfl

/-- No command writes `TBUF` at or past `ROW_WIDTH`. -/
theorem exec_tbufRead_of_le {i : Instr} {s t : State} (hx : exec i s = .next t) {n : Nat} (hn : s.params.rowWidth ≤ n) :
    tbufRead t n = tbufRead s n := by
  refine (exec_induct (P := fun t => t.params = s.params ∧ tbufRead t n = tbufRead s n) hx (fun a _ u ⟨hp, h⟩ => ?_)
    (fun _ h => h) (fun _ h => h) (fun _ _ h => h) (fun _ h => h) ⟨rfl, rfl⟩).2
  refine ⟨(doAct_fixed a u).1.trans hp, ?_⟩
  obtain e | ⟨len, e⟩ := doAct_tbuf a u
  · rw [tbufRead, e]
    exact h
  · rw [e, tbufRead_copyRow_of_le len (hp ▸ hn)]
    exact h

/-- Settles O43: no action of OUTPUT_ROW writes FSM or another field, and the copy stays within the buffer. -/
theorem outputRowFrame : Obligations.OutputRowFrame := by
  intro s t d l hx
  obtain ⟨hp, hop, hblk, ha, hb, hf, hr⟩ := exec_fixed hx
  exact ⟨⟨hp, hop, hblk, ha, hb, hf, fun n => by rw [hr]⟩, exec_outputRow_fsm hx,
    fun g hg => exec_get_cfg_of_notMem hx fun b hmem => (outputRow_acts d l hmem).2 g hg b rfl,
    fun _ _ hn => exec_tbufRead_of_le hx hn⟩

end Sys2Proof.Machine

namespace Sys2Proof.Machine

/-! ### OUTPUT_ROW up to its drive waveform (44_row_output.md R138) -/

@[simp] theorem setCommit_tr (f : CfgField) (b : Bool) (s : State) : (setCommit f b s).tr = s.tr := by simp [setCommit]
@[simp] theorem setCommit_tbuf (f : CfgField) (b : Bool) (s : State) : (setCommit f b s).tbuf = s.tbuf := by
  simp [setCommit]
@[simp] theorem setCommit_params (f : CfgField) (b : Bool) (s : State) : (setCommit f b s).params = s.params := by
  simp [setCommit]
@[simp] theorem setCommit_rsrc (f : CfgField) (b : Bool) (s : State) : (setCommit f b s).rsrc = s.rsrc := by
  simp [setCommit]
@[simp] theorem setCommit_bursts (f : CfgField) (b : Bool) (s : State) :
    (setCommit f b s).bursts = s.bursts.drop 27 := by simp [setCommit]

/-- The state behind OUTPUT_ROW's first two micro-steps, which are LATCH_ROW's (R138). -/
def latchPair (s : State) : State :=
  nextStep (setCommit .latchEnable false (nextStep (setCommit .latchEnable true s)))

@[simp] theorem latchPair_act (s : State) : (latchPair s).act = 0 := rfl
@[simp] theorem latchPair_tch (s : State) : (latchPair s).tch = s.tch := by simp [latchPair]
@[simp] theorem latchPair_tchGen (s : State) : (latchPair s).tchGen = s.tchGen := by simp [latchPair]
@[simp] theorem latchPair_tr (s : State) : (latchPair s).tr = s.tr := by simp [latchPair]
@[simp] theorem latchPair_tbuf (s : State) : (latchPair s).tbuf = s.tbuf := by simp [latchPair]
@[simp] theorem latchPair_fsm (s : State) : (latchPair s).fsm = s.fsm := by simp [latchPair]
@[simp] theorem latchPair_params (s : State) : (latchPair s).params = s.params := by simp [latchPair]
@[simp] theorem latchPair_rsrc (s : State) : (latchPair s).rsrc = s.rsrc := by simp [latchPair]
@[simp] theorem latchPair_bursts (s : State) : (latchPair s).bursts = s.bursts.drop 54 := by simp [latchPair]

@[simp] theorem latchPair_cfg (s : State) : (latchPair s).cfg = s.cfg &&& 0xFE := by
  rw [← latchRow_masks]
  simp [latchPair]
  rfl

@[simp] theorem latchPair_panelCfg (s : State) : (latchPair s).panelCfg = some (s.cfg &&& 0xFE) := by
  rw [← latchPair_cfg]
  simp [latchPair]

@[simp] theorem seqTrace_latchPair (s : State) :
    seqTrace (latchPair s) = seqTrace s ++ commitEvents (s.cfg ||| 0x01) ++ commitEvents (s.cfg &&& 0xFE) := by
  rw [← latchRow_masks]
  simp [latchPair]
  rfl

theorem SameTransfer.trans {s t u : State} (h : SameTransfer s t) (k : SameTransfer t u) : SameTransfer s u :=
  ⟨k.1.trans h.1, fun i => (k.2 i).trans (h.2 i)⟩

theorem sameTransfer_latchPair (s : State) : SameTransfer s (latchPair s) := by simp [SameTransfer, tbufRead]

theorem agentsOnly_latchPair (s : State) : AgentsOnly s (latchPair s) :=
  (((agentsOnly_setCommit .latchEnable true s).trans (agentsOnly_nextStep _)).trans
    (agentsOnly_setCommit .latchEnable false _)).trans (agentsOnly_nextStep _)

theorem State.noTransfer.latchPair {es : List Event} {s : State} (h : s.noTransfer es) : (latchPair s).noTransfer es :=
  ((((h.setField _ _).nextAct.commit.nextAct.nextStep.setField _ _).nextAct).commit.nextAct).nextStep

/-- A draw taken behind the pair is one taken 54 events later. -/
theorem acqAfter_latchPair (k : Nat) (s : State) : acqAfter k (latchPair s) = acqAfter (54 + k) s := by
  simp [acqAfter, latchPair, Nat.add_assoc]

/-- From its start OUTPUT_ROW commits the pair and goes on to its pulse. -/
theorem exec_outputRow_atStart {s : State} (h0 : s.atStart) (d l : Operand) :
    exec (.outputRow d l) s = .next (runSteps [pulseActs d.toNat 50 false, [.checkSlot], [.copyRow l.toNat],
      [.issueTransfer], [.collectTransfer]] (latchPair s)) := by
  rw [exec_atStart h0]
  simp [microSteps, outputRowSteps, latchRowSteps, runSteps, h0.2, runActs_setCommit, runActs, latchPair, zext]

/-- A failed acquisition and the error exit touch neither CFG, the channel, the slot nor the buffer (R93, R156). -/
theorem raise_acquireFailed_frame (c : Cause) (s : State) :
    SameTransfer s (raise c (acquireFailed s)) ∧ (raise c (acquireFailed s)).cfg = s.cfg ∧
      (raise c (acquireFailed s)).tch = s.tch ∧ (raise c (acquireFailed s)).tchGen = s.tchGen := by
  simp [SameTransfer, tbufRead]

/-- Settles O40: the acquisition fails behind the latch pair, and nothing has touched the slot or the buffer. -/
theorem outputRowAcquisitionFails : Obligations.OutputRowAcquisitionFails := by
  intro s d l h0 htch hacq
  have hpulse := runActs_pulse_acquireFailed (s := latchPair s) (by simpa using htch)
    ((acqAfter_latchPair 0 s).trans hacq) d.toNat 50 false
  obtain ⟨htransfer, hcfg, hch, hgen⟩ := raise_acquireFailed_frame .channelUnavailable (latchPair s)
  refine ⟨raise .channelUnavailable (acquireFailed (latchPair s)), ?_, ⟨rfl, rfl⟩,
    (sameTransfer_latchPair s).trans htransfer, hcfg.trans (latchPair_cfg s), hch.trans ((latchPair_tch s).trans htch), hgen.trans (latchPair_tchGen s), by simp⟩
  rw [exec_outputRow_atStart h0, runSteps, latchPair_act, List.drop_zero, hpulse]

/-- The agents' steps in events that draw `j` bursts of a prompt script leave it prompt for the others. -/
theorem Ready.later {j k n m : Nat} {s t : State} (h : Ready (j + k) n m s) (ha : AgentsOnly s t)
    (hb : t.bursts = s.bursts.drop j) : Ready k n m t := by
  obtain ⟨hlen, hprompt, hwork⟩ := h
  refine ⟨by rw [hb, List.length_drop]; omega, fun moves hm => hprompt moves ?_, ha.work_le.trans hwork⟩
  rw [hb, List.take_drop] at hm
  exact List.mem_of_mem_drop hm

/-- An issue behind a prompt burst queues the one waveform. -/
theorem Ready.issue {k n m : Nat} {s : State} (g high low : Nat) (blk : Bool) (hn : 3 ≤ n) (h : Ready (k + 1) n m s) :
    Ready k n m (Machine.issueWave g high low blk s) := by
  obtain ⟨hq, hr⟩ := h.interleave
  refine ⟨hr.len, hr.prompt, ?_⟩
  rw [issueWave_pq, hq]
  simp only [List.nil_append, tpgWork_cons, Wave.work]
  simp only [tpgWork, List.map_nil, List.sum_nil]
  split <;> omega

/-- A pulse that gets a channel draws at most two bursts. -/
theorem Ready.beginPulse {k n m high low : Nat} {blk : Bool} {s t : State} (hn : 3 ≤ n) (h : Ready (k + 2) n m s)
    (hd : Machine.beginPulse high low blk s = .done t) : Ready k n m t := by
  cases ht : s.tch with
  | held g =>
    cases (beginPulse_held ht high low blk).symm.trans hd
    exact (Ready.issue (k := k + 1) g high low blk hn h).mono (Nat.le_succ k)
  | absent =>
    cases hok : nextAcq s with
    | true =>
      cases (beginPulse_acquired ht hok high low blk).symm.trans hd
      refine Ready.issue _ high low blk hn ?_
      exact Ready.later (j := 1) (h.mono (by omega)) (agentsOnly_acquired s) (by simp)
    | false => cases (beginPulse_failed ht hok high low blk).symm.trans hd

theorem State.noTransfer.beginPulse {es : List Event} {high low : Nat} {blk : Bool} {s t : State} (h : s.noTransfer es)
    (hd : Machine.beginPulse high low blk s = .done t) : t.noTransfer es := by
  cases ht : s.tch with
  | held g =>
    cases (beginPulse_held ht high low blk).symm.trans hd
    exact h.issueWave g high low blk
  | absent =>
    cases hok : nextAcq s with
    | true =>
      cases (beginPulse_acquired ht hok high low blk).symm.trans hd
      exact h.acquired.issueWave _ high low blk
    | false => cases (beginPulse_failed ht hok high low blk).symm.trans hd

/-- From `s`, OUTPUT_ROW has come to `u`, behind its drive waveform of `high` ticks: the latch pair is committed, the
waveform queued, the channel forfeited, and nothing else of SEQ's has changed (R138). -/
structure RowDriven (s : State) (high : Nat) (u : State) : Prop where
  act : u.act = 0
  tr : u.tr = s.tr
  tbuf : u.tbuf = s.tbuf
  fsm : u.fsm = s.fsm
  params : u.params = s.params
  rsrc : u.rsrc = s.rsrc
  cfg : u.cfg = s.cfg &&& 0xFE
  panelCfg : u.panelCfg = some u.cfg
  tch : u.tch = .absent
  tchGen : u.tchGen = genAfterPulse s
  wave : QueuesWave ⟨nextInstance s, high, 50, false, .queued⟩ s u
  trace : seqTrace u = seqTrace s ++ commitEvents (s.cfg ||| 0x01) ++ commitEvents (s.cfg &&& 0xFE) ++ acquireEvents s ++
    [.tpIssue (nextInstance s) high 50 false]
  noTransfer : ∀ es, s.noTransfer es → u.noTransfer es
  ready : ∀ k, s.promptFor (k + 56) → Ready k (tpgWork s.pq + 3) (s.params.rowWidth + 1) u

/-- OUTPUT_ROW that gets a channel comes to its slot (R138). -/
theorem exec_outputRow_driven {s : State} (h0 : s.atStart) (hc : channelAfter 54 s) (d l : Operand) :
    ∃ u, RowDriven s d.toNat u ∧ exec (.outputRow d l) s =
      .next (runSteps [[.checkSlot], [.copyRow l.toNat], [.issueTransfer], [.collectTransfer]] u) := by
  have hchannel : channelAfter 0 (latchPair s) := by simpa [channelAfter, acqAfter_latchPair] using hc
  obtain ⟨u, hu, htch, hgen, hwave, htrace⟩ := beginPulse_done hchannel d.toNat 50 false
  have hinst : nextInstance (latchPair s) = nextInstance s := by simp [nextInstance]
  have hsame : OnlyPulses (latchPair s) u := by simpa [hu] using onlyPulses_beginPulse d.toNat 50 false (latchPair s)
  have hfixed : FixedData (latchPair s) u := by
    simpa [doAct, hu] using doAct_fixed (.beginPulse d.toNat 50 false) (latchPair s)
  obtain ⟨⟨hcfg, hpanel, -⟩, htr, htbuf, hfsm, -⟩ := hsame
  obtain ⟨hparams, -, -, -, -, -, hrsrc⟩ := hfixed
  refine ⟨nextStep (nextAct u), ⟨rfl, by simpa using htr, by simpa using htbuf, by simpa using hfsm,
    by simpa using hparams, by simpa using hrsrc, by simpa using hcfg, by simp [hcfg, hpanel], htch, ?_, ?_, ?_,
    fun es hes => ?_, fun k hp => ?_⟩, ?_⟩
  · simpa [genAfterPulse] using hgen
  · rw [hinst] at hwave
    exact (hwave.before (agentsOnly_latchPair s).tpgOnly).after (.of_tpg rfl)
  · simp [htrace, hinst, acquireEvents]
  · exact (hes.latchPair.beginPulse hu).nextAct.nextStep
  · have hready : Ready (54 + (k + 2)) (tpgWork s.pq + 3) (s.params.rowWidth + 1) s := hp.ready.mono (by omega)
    exact ((hready.later (agentsOnly_latchPair s) (latchPair_bursts s)).beginPulse (Nat.le_add_left 3 _) hu).of_eq rfl rfl
  · rw [exec_outputRow_atStart h0]
    simp [runSteps, pulseActs, runActs, doAct, hu]

/-- Settles O39: the check for the slot fails behind the drive waveform. -/
theorem outputRowWithoutResource : Obligations.OutputRowWithoutResource := by
  intro s d l h0 hc htr
  obtain ⟨u, hu, hx⟩ := exec_outputRow_driven h0 hc d l
  refine ⟨raise .resourceUnavailable u, ?_, ⟨rfl, rfl⟩, ⟨by simpa using hu.tr, fun n => ?_⟩, by simpa using hu.cfg,
    by simpa using hu.tch, by simp [hu.trace]⟩
  · rw [hx]
    simp [runSteps, hu.act, runActs, doAct, checkSlot, hu.tr, htr]
  · simp [tbufRead, hu.tbuf]

/-! ### OUTPUT_ROW's row (44_row_output.md R131 to R137) -/

/-- The state in which OUTPUT_ROW waits for its transfer, from the one before its slot is checked: the row is copied and
issued. -/
def rowIssued (len : Nat) (u : State) : State :=
  nextStep (nextAct (issueTransfer (nextStep (nextAct (copyRow len (nextStep (nextAct u)))))))

/-- The state OUTPUT_ROW ends in when its transfer is over in time, without a failure: the put and the normal exit. -/
def rowDone (len : Nat) (u : State) : State :=
  returnOk (nextStep (nextAct (putSlot (interleave (rowIssued len u)))))

@[simp] theorem rowDone_tch (len : Nat) (u : State) : (rowDone len u).tch = u.tch := by simp [rowDone, rowIssued]
@[simp] theorem rowDone_tchGen (len : Nat) (u : State) : (rowDone len u).tchGen = u.tchGen := by
  simp [rowDone, rowIssued]
@[simp] theorem rowDone_cfg (len : Nat) (u : State) : (rowDone len u).cfg = u.cfg := by simp [rowDone, rowIssued]
@[simp] theorem rowDone_panelCfg (len : Nat) (u : State) : (rowDone len u).panelCfg = u.panelCfg := by
  simp [rowDone, rowIssued]
@[simp] theorem rowDone_fsm (len : Nat) (u : State) : (rowDone len u).fsm = u.fsm := by simp [rowDone, rowIssued]

theorem rowIssued_xf (len : Nat) (u : State) : (rowIssued len u).xf = .active (rowData (copyRow len u)) 0 := rfl

@[simp] theorem seqTrace_rowIssued (len : Nat) (u : State) :
    seqTrace (rowIssued len u) = seqTrace u ++ [.xfIssue (rowData (copyRow len u))] := by
  simp [rowIssued]
  rfl

theorem seqTrace_rowDone (len : Nat) (u : State) :
    seqTrace (rowDone len u) = seqTrace u ++ [.xfIssue (rowData (copyRow len u)), .ret .ok] := by simp [rowDone]

theorem slotFree_rowDone (len : Nat) (u : State) : SlotFree (rowDone len u) :=
  SlotFree.returnOk (slotFree_putSlot (interleave (rowIssued len u)))

theorem rowIssued_tbuf (len : Nat) (u : State) : (rowIssued len u).tbuf = (copyRow len u).tbuf := rfl

theorem tbufRead_rowDone (len : Nat) (u : State) (i : Nat) : tbufRead (rowDone len u) i = tbufRead (copyRow len u) i := by
  simp [tbufRead, rowDone, rowIssued_tbuf]

/-- The bytes captured are the row's, copied and filled (R134, R137). -/
theorem rowData_copyRow {u : State} {m : Memory} (hm : u.tbuf = some m) (len : Nat) {i : Nat}
    (hi : i < u.params.rowWidth) : (rowData (copyRow len u))[i]? = some (rowByte u len i) := by
  simp [rowData, hi, tbufByte, hm, fillBelow_read]

theorem tpgOnly_issueTransfer (s : State) : TpgOnly s (issueTransfer s) :=
  (agentsOnly_interleave s).tpgOnly.trans (.of_tpg rfl)

theorem tpgOnly_putSlot (s : State) : TpgOnly s (putSlot s) := .of_tpg rfl

theorem tpgOnly_copyRow (len : Nat) (s : State) : TpgOnly s (copyRow len s) := .of_tpg rfl

/-- A micro-step of one action that lets TPG alone step ends likewise. -/
theorem TpgOnly.microStep {s t : State} (h : TpgOnly s t) : TpgOnly s (nextStep (nextAct t)) := h.trans (.of_tpg rfl)

/-- Behind the drive waveform TPG alone touches the queue. -/
theorem tpgOnly_rowDone (len : Nat) (u : State) : TpgOnly u (rowDone len u) := by
  have hissued : TpgOnly u (rowIssued len u) :=
    (((AgentsOnly.refl u).tpgOnly.microStep.trans (tpgOnly_copyRow len _)).microStep.trans
      (tpgOnly_issueTransfer _)).microStep
  exact ((hissued.trans (agentsOnly_interleave _).tpgOnly).trans (tpgOnly_putSlot _)).microStep.trans
    (agentsOnly_returnOk _).tpgOnly

/-- An issue with no transfer out adds its own event to the transfers'. -/
theorem transferTrace_issueTransfer {es : List Event} {s : State} (h : s.noTransfer es) :
    transferTrace (issueTransfer s) = es ++ [.xfIssue (rowData s)] := by
  rw [← h.interleave.2]
  simp [transferTrace, issueTransfer]
  rfl

theorem State.noTransfer.returnOk {es : List Event} {s : State} (h : s.noTransfer es) : (returnOk s).noTransfer es :=
  .of_eq (h.seqEmit (.ret .ok) rfl) rfl rfl

section

variable {n len : Nat} {u : State} (hr : Ready 2 n (u.params.rowWidth + 1) u)
include hr

theorem ready_rowIssued : Ready 1 n (u.params.rowWidth + 1) (rowIssued len u) := by
  have hcopied : Ready 2 n (u.params.rowWidth + 1) (nextStep (nextAct (copyRow len (nextStep (nextAct u))))) :=
    hr.of_eq rfl rfl
  exact hcopied.interleave.2.of_eq rfl rfl

/-- On prompt hardware the transfer is over, without a failure, when OUTPUT_ROW looks. -/
theorem rowIssued_sent : (interleave (rowIssued len u)).xf = .ended true := by
  refine (ready_rowIssued hr).sent (.inl ⟨_, _, rowIssued_xf len u⟩) ?_
  rw [rowIssued_xf, xfrWork, rowData_length]
  exact le_rfl

/-- On prompt hardware OUTPUT_ROW goes from its slot's check to the normal exit. -/
theorem runSteps_row (hact : u.act = 0) (htr : u.tr = .held) :
    runSteps [[.checkSlot], [.copyRow len], [.issueTransfer], [.collectTransfer]] u = rowDone len u := by
  have hcollect : collectTransfer (rowIssued len u) = .done (putSlot (interleave (rowIssued len u))) := by
    rw [collectTransfer, rowIssued_sent hr]
  have hissued : runSteps [[.checkSlot], [.copyRow len], [.issueTransfer], [.collectTransfer]] u =
      runSteps [[.collectTransfer]] (rowIssued len u) := by
    simp [runSteps, hact, runActs, doAct, checkSlot, htr, rowIssued]
  have hzero : (rowIssued len u).act = 0 := rfl
  rw [hissued]
  simp [runSteps, hzero, runActs, doAct, hcollect, rowDone]

/-- The transfers' events of a row on prompt hardware (R134 to R136). -/
theorem transferTrace_rowDone {es : List Event} (hes : u.noTransfer es) :
    transferTrace (rowDone len u) =
      es ++ [.xfIssue (rowData (copyRow len u))] ++ beatEvents (rowData (copyRow len u)) ++ [.xfEnd true] := by
  have hissued : transferTrace (rowIssued len u) = es ++ [.xfIssue (rowData (copyRow len u))] :=
    transferTrace_issueTransfer (s := nextStep (nextAct (copyRow len (nextStep (nextAct u))))) (hes.of_eq rfl rfl)
  have hbeats := (ready_rowIssued hr).beats (rowIssued_xf len u) (by rw [rowData_length]; exact le_rfl)
  have hput : (putSlot (interleave (rowIssued len u))).noTransfer _ := ⟨rfl, hbeats⟩
  rw [← hissued]
  exact hput.nextAct.nextStep.returnOk.2

end

/-- Settles O38: on prompt hardware OUTPUT_ROW comes to its slot with the channel forfeited, and goes on from there with
the row's bytes to the normal exit. -/
theorem outputRowCompletes : Obligations.OutputRowCompletes := by
  intro s d l m h0 hc htr hxf hm hlen hp
  obtain ⟨u, hu, hx⟩ := exec_outputRow_driven h0 hc d l
  have hum : u.tbuf = some m := hu.tbuf.trans hm
  have hready : Ready 3 (tpgWork s.pq + 3) (u.params.rowWidth + 1) u := hu.params.symm ▸ hu.ready 3 hp
  have hprompt := hready.mono (Nat.le_succ 2)
  have hbyte : ∀ {i}, i < s.params.rowWidth → (rowData (copyRow l.toNat u))[i]? = some (rowByte u l.toNat i) :=
    fun hi => rowData_copyRow hum l.toNat (hu.params.symm ▸ hi)
  obtain ⟨hslot, hnone⟩ := slotFree_rowDone l.toNat u
  refine ⟨rowDone l.toNat u, rowData (copyRow l.toNat u), ?_, ⟨rfl, rfl⟩, hslot, hnone, ?_, ?_, ?_, ?_, ?_, ?_,
    fun i hi => ⟨?_, fun hil v hv => ?_, fun hil => ?_⟩, ?_, hu.wave.after (tpgOnly_rowDone l.toNat u), ?_⟩
  · rw [hx, runSteps_row hprompt hu.act (hu.tr.trans htr)]
  · exact (rowDone_tch _ u).trans hu.tch
  · exact (rowDone_tchGen _ u).trans hu.tchGen
  · exact (rowDone_cfg _ u).trans hu.cfg
  · simpa using hu.panelCfg
  · exact (rowDone_fsm _ u).trans hu.fsm
  · rw [rowData_length, copyRow_params, hu.params]
  · rw [tbufRead_rowDone, tbufRead_copyRow hum l.toNat (hu.params.symm ▸ hi), hbyte hi]
  · rw [hbyte hi, rowByte_of_read hil (hu.rsrc.symm ▸ hv)]
  · rw [hbyte hi, rowByte_of_le hil]
  · exact transferTrace_rowDone hprompt (hu.noTransfer _ ⟨hxf, rfl⟩)
  · rw [seqTrace_rowDone, hu.trace]
    simp

end Sys2Proof.Machine

namespace Sys2Proof.Machine

/-! ### The causes a command can end with (60_exceptions.md R151) -/

/-- The one cause with which an action can err (41_timing_pulse.md R93, R99; 44_row_output.md R131, R138). -/
def Act.cause : Act → Option Cause
  | .beginPulse _ _ _ => some .channelUnavailable
  | .awaitPulse => some .transmit
  | .checkSlot => some .resourceUnavailable
  | .collectTransfer => some .transferError
  | _ => none

theorem doAct_error_cause {a : Act} {c : Cause} {s t : State} (h : doAct a s = .error c t) : a.cause = some c := by
  cases a with
  | beginPulse high low blk =>
    simp only [doAct, beginPulse] at h
    split at h
    · cases h
    · split at h <;> cases h
      rfl
  | awaitPulse => simp only [doAct, awaitPulse] at h; split at h <;> cases h; rfl
  | checkSlot => simp only [doAct, checkSlot] at h; split at h <;> cases h; rfl
  | collectTransfer => simp only [doAct, collectTransfer] at h; split at h <;> cases h; rfl
  | _ => cases h

/-- The causes of a command's actions, each once. -/
def commandCauses (i : Instr) : List Cause := ((microSteps i).flatten.filterMap Act.cause).dedup

theorem mem_commandCauses {i : Instr} {a : Act} {c : Cause} (ha : a ∈ (microSteps i).flatten) (hc : a.cause = some c) :
    c ∈ commandCauses i :=
  List.mem_dedup.2 (List.mem_filterMap.2 ⟨a, ha, hc⟩)

/-- A command ends with Ok, or with the cause of one of its actions. -/
theorem exec_result_mem_commandCauses {i : Instr} {s t : State} (hb : s.busy = true) (hx : exec i s = .next t)
    (hend : t.busy = false) : t.result = .ok ∨ t.result ∈ commandCauses i := by
  have hleft : actsLeft ((microSteps i).drop s.step) s.act <:+ (microSteps i).flatten :=
    (actsLeft_suffix _ _).trans (List.drop_suffix _ _).flatten
  obtain ⟨-, hexit⟩ | ⟨hsame, -⟩ :=
    exec_outcome (P := fun as _ => as <:+ (microSteps i).flatten)
      (Q := fun t => t.result = .ok ∨ t.result ∈ commandCauses i)
      (fun a as _ _ h _ => (List.suffix_cons a as).trans h) (fun _ _ _ _ h _ => h) (fun _ _ h => h)
      (fun _ _ => .inl rfl)
      (fun a _ _ _ _ h hd => .inr (mem_commandCauses (h.mem List.mem_cons_self) (doAct_error_cause hd)))
      hx hleft
  · exact hexit
  · rw [hend, hb] at hsame
    cases hsame

/-- Settles O45: a command errs with the cause of one of its actions, and R151's row lists the causes of its actions. -/
theorem causesPerCommand : Obligations.CausesPerCommand := by
  intro i s t hb hx hend
  refine (exec_result_mem_commandCauses hb hx hend).imp_right fun hc => ?_
  cases i with
  | pulse high low blocking =>
    cases blocking with
    | false => exact List.mem_singleton.1 hc
    | true => exact List.mem_pair.1 hc
  | skip => exact List.mem_singleton.1 hc
  | frameStart => exact List.mem_pair.1 hc
  | frameEnd => exact List.mem_pair.1 hc
  | outputRow driveTime len =>
    have hrow : t.result ∈ [.channelUnavailable, .resourceUnavailable, .transferError] := hc
    simpa [or_comm] using hrow
  | _ => cases hc

end Sys2Proof.Machine

namespace Sys2Proof.Machine

/-! ### HOST's reset (70_reset_and_hazards.md R180 to R183) -/

/-- Nothing is in progress when no command runs and both the queue and the transfer are gone (R183). -/
theorem quiescent_iff (s : State) : quiescent s ↔ s.busy = false ∧ s.pq = [] ∧ s.xf = .none := by
  simp [quiescent, and_assoc]

/-- A reset is refused while something is in progress (R183). -/
theorem hostReset_of_not_quiescent {d : ResetDraw} {s : State} (h : ¬ quiescent (beforeAccess s)) :
    hostReset d s = .refused .resetInProgress :=
  if_neg h

/-- A reset while nothing is in progress takes the reset values and keeps the parameters and HOST's and ENV's own
lists, as the other agents' moves left them (R180, R181). -/
theorem hostReset_of_quiescent {d : ResetDraw} {s : State} (h : quiescent (beforeAccess s)) :
    hostReset d s = .next { State.afterReset s.params d with
      hostq := s.hostq, reads := s.reads, bursts := s.bursts.tail, acqs := s.acqs, drawn := s.drawn + 2,
      filled := s.drawn + 1 } := by
  rw [hostReset, if_pos h]
  simp

/-- After a reset `STATUS` shows a free slot, or after a failed one only `INIT_FAIL` (R180, R181). -/
theorem statusWord_afterReset (p : Params) (d : ResetDraw) :
    statusWord (State.afterReset p d) = if d.initOk then 0x08 else 0x20 := by
  simp only [statusWord, trHeld, tchHeld, State.afterReset]
  cases d.initOk <;> rfl

/-- After a reset `RESULT` holds Ok, or after a failed one the buffer's error (R180, R181). -/
theorem resultWord_afterReset (p : Params) (d : ResetDraw) :
    resultWord (State.afterReset p d) = if d.initOk then 0 else 3 := by
  simp only [resultWord, State.afterReset]
  cases d.initOk <;> rfl

/-- Settles O53: while a command runs the reset is refused outright; else the other agents step, and what they leave in
progress decides. -/
theorem hostResetOutcomes : Obligations.HostResetOutcomes := by
  intro s d rest hq q
  have hreset (hb : s.busy = false) : step s = hostReset d { s with hostq := rest } := step_hostStep hb hq
  have hquiet : quiescent (beforeAccess { s with hostq := rest }) ↔ s.busy = false ∧ q.pq = [] ∧ q.xf = .none :=
    quiescent_iff _
  refine ⟨fun hprogress => ?_, fun hb hpq hxf => ?_⟩
  · cases hb : s.busy with
    | true => exact (step_busy_refused_iff hb hq).2 rfl
    | false =>
      rw [hreset hb]
      refine hostReset_of_not_quiescent fun h => ?_
      obtain ⟨-, hpq, hxf⟩ := hquiet.1 h
      simp [hb, hpq, hxf] at hprogress
  · rw [hreset hb, hostReset_of_quiescent (hquiet.2 ⟨hb, hpq, hxf⟩)]
    refine ⟨_, rfl, rfl, rfl, rfl, rfl, rfl, rfl, rfl, rfl, rfl, rfl, rfl, rfl, rfl, rfl, fun hok => ?_, fun hbad => ?_⟩
    · have hstatus := statusWord_afterReset s.params d
      exact ⟨if_pos hok, by simp [State.afterReset, hok], if_pos hok, hstatus.trans (if_pos hok)⟩
    · have hnot : ¬ d.initOk := by simp [hbad]
      have hstatus := statusWord_afterReset s.params d
      have hresult := resultWord_afterReset s.params d
      exact ⟨if_neg hnot, if_neg hnot, if_neg hnot, hstatus.trans (if_neg hnot), hresult.trans (if_neg hnot)⟩

end Sys2Proof.Machine
